-- ==== Sys2Proof/Word.lean ====
section
/-! DEFINITION. The word types of AZC (00_scope.md R10; 10_state.md R33, R43): 32-bit registers and bus words, 8-bit input
bytes, 16-bit offsets of AZC's own address space, and the bit sequence of R9. -/

namespace Sys2Proof

/-- A register, a command word, or one word on the host bus (R10, R33, R73). -/
abbrev Word := BitVec 32

/-- One byte of the input buffer (R43). -/
abbrev Byte := BitVec 8

/-- A byte offset in AZC's 64 KiB address space (20_memory.md R70). -/
abbrev Offset := BitVec 16

/-- A bit sequence (R9): element 0 is the first bit appended or emitted. -/
abbrev Bits := List Bool

end Sys2Proof
end

