-- ==== Sys2Proof/Syntax.lean ====
section
/-! DEFINITION. The eleven commands of AZC (30_encoding.md R102), one constructor per row of spec/opcode_table.json, with the
operand fields of the command word (R100) as the unsigned numbers R104 says they are. -/

namespace Sys2Proof

/-- A decoded command (R102). An operand is the unsigned value of its field, neither scaled nor offset (R104). -/
inductive Instr where
  /-- `NOP` (R311). -/
  | nop
  /-- `BB_CLEAR` (R133). -/
  | bbClear
  /-- `BB_APPEND_MSB nb` (R134); `nb` is `NB`, bits 13:8. -/
  | bbAppendMsb (nb : Nat)
  /-- `BB_APPEND_LSB nb` (R135); `nb` is `NB`, bits 13:8. -/
  | bbAppendLsb (nb : Nat)
  /-- `MODE_ENCODE` (R173). -/
  | modeEncode
  /-- `STUFF_PAD w` (R206); `w` is `W`, bits 7:4. -/
  | stuffPad (w : Nat)
  /-- `RS_PARITY r` (R229); `r` is `R`, bits 27:16. -/
  | rsParity (r : Nat)
  /-- `SIZE_SELECT` (R257). -/
  | sizeSelect
  /-- `MODE_MESSAGE` (R273); its symbol descriptor is in `ARG`. -/
  | modeMessage
  /-- `LAYOUT` (R290); its symbol descriptor is in `ARG`. -/
  | layout
  /-- `ENCODE` (R310). -/
  | encode
  deriving DecidableEq, Repr

end Sys2Proof
end

