-- ==== Sys2Proof/WellFormed.lean ====
section
/-! DEFINITION. Which terms of Instr are command words: an operand has to fit its field of R100. A value that fits its field
and is out of the command's own range (an NB of 40, a W of 5) IS well-formed: it decodes, and the command then raises
ILLEGAL_OPERAND (30_encoding.md R101). -/

namespace Sys2Proof

/-- The operand fits its field: `NB` has 6 bits, `W` 4 bits, `R` 12 bits (R100). -/
def Instr.wellFormed : Instr → Bool
  | .nop => true
  | .bbClear => true
  | .bbAppendMsb nb => decide (nb < 64)
  | .bbAppendLsb nb => decide (nb < 64)
  | .modeEncode => true
  | .stuffPad w => decide (w < 16)
  | .rsParity r => decide (r < 4096)
  | .sizeSelect => true
  | .modeMessage => true
  | .layout => true
  | .encode => true

/-- `i` stands for a command word (R100). -/
abbrev WellFormed (i : Instr) : Prop := i.wellFormed = true

end Sys2Proof
end

