-- ==== Sys2Proof/Decode.lean ====
section
/-! DEFINITION. The decoder and the encoder of command words (30_encoding.md R100 to R105, R107). Decoding is total: a 32-bit
word is one command or is rejected by name; every rejection is the one error ILLEGAL_COMMAND (R101, R320). -/

namespace Sys2Proof

/-- Why a word is no command (R101, R105). Each of them is the error ILLEGAL_COMMAND. -/
inductive DecodeReject where
  /-- An opcode 0xB to 0xF. -/
  | reservedOpcode
  /-- A nonzero bit of 15:14 or 31:28. -/
  | reservedBits
  /-- A nonzero field the opcode does not use. -/
  | unusedField
  deriving DecidableEq, Repr

/-- `OP`, bits 3:0 (R100). -/
def fieldOp (v : Word) : Nat := (v.extractLsb' 0 4).toNat

/-- `W`, bits 7:4 (R100). -/
def fieldW (v : Word) : Nat := (v.extractLsb' 4 4).toNat

/-- `NB`, bits 13:8 (R100). -/
def fieldNb (v : Word) : Nat := (v.extractLsb' 8 6).toNat

/-- `R`, bits 27:16 (R100). -/
def fieldR (v : Word) : Nat := (v.extractLsb' 16 12).toNat

/-- Bits 15:14 and 31:28 are all zero (R100). -/
def reservedZero (v : Word) : Bool := v.extractLsb' 14 2 == 0#2 && v.extractLsb' 28 4 == 0#4

/-- The command an opcode names, with the operand fields it uses (R102). -/
def opcodeInstr (op w nb r : Nat) : Option Instr :=
  match op with
  | 0x0 => some .nop
  | 0x1 => some .bbClear
  | 0x2 => some (.bbAppendMsb nb)
  | 0x3 => some (.bbAppendLsb nb)
  | 0x4 => some .modeEncode
  | 0x5 => some (.stuffPad w)
  | 0x6 => some (.rsParity r)
  | 0x7 => some .sizeSelect
  | 0x8 => some .modeMessage
  | 0x9 => some .layout
  | 0xA => some .encode
  | _ => none

/-- `decode(v)` of R101, its tests in the rule's order. -/
def decode (v : Word) : Except DecodeReject Instr :=
  if 0xB ≤ fieldOp v then .error .reservedOpcode
  else if reservedZero v = false then .error .reservedBits
  else if fieldOp v ≠ 0x5 ∧ fieldW v ≠ 0 then .error .unusedField
  else if (fieldOp v ≠ 0x2 ∧ fieldOp v ≠ 0x3) ∧ fieldNb v ≠ 0 then .error .unusedField
  else if fieldOp v ≠ 0x6 ∧ fieldR v ≠ 0 then .error .unusedField
  else
    match opcodeInstr (fieldOp v) (fieldW v) (fieldNb v) (fieldR v) with
    | some i => .ok i
    | none => .error .reservedOpcode

/-- The instruction this decoder reads from the `nbits` low bits of `w`, with zeros above. A command is ONE 32-bit word
written as a value to `CMD` (R100, R85), so there is no byte order to lay out: bit 0 is the word's least significant bit. -/
def decodeTableWord (nbits w : Nat) : Option Instr :=
  match decode (BitVec.ofNat 32 (w % 2 ^ nbits)) with
  | .ok i => some i
  | .error _ => none

/-! The encoder. It stands after the decoder and is written from R103 and R107, not from the decoder. -/

/-- The fixed bits of a command's word: column `match` of R103. -/
def Instr.matchBits : Instr → Word
  | .nop => 0x00000000#32
  | .bbClear => 0x00000001#32
  | .bbAppendMsb _ => 0x00000002#32
  | .bbAppendLsb _ => 0x00000003#32
  | .modeEncode => 0x00000004#32
  | .stuffPad _ => 0x00000005#32
  | .rsParity _ => 0x00000006#32
  | .sizeSelect => 0x00000007#32
  | .modeMessage => 0x00000008#32
  | .layout => 0x00000009#32
  | .encode => 0x0000000A#32

/-- Which bits of a command's word are fixed: column `mask` of R103. -/
def Instr.maskBits : Instr → Word
  | .nop => 0xFFFFFFFF#32
  | .bbClear => 0xFFFFFFFF#32
  | .bbAppendMsb _ => 0xFFFFC0FF#32
  | .bbAppendLsb _ => 0xFFFFC0FF#32
  | .modeEncode => 0xFFFFFFFF#32
  | .stuffPad _ => 0xFFFFFF0F#32
  | .rsParity _ => 0xF000FFFF#32
  | .sizeSelect => 0xFFFFFFFF#32
  | .modeMessage => 0xFFFFFFFF#32
  | .layout => 0xFFFFFFFF#32
  | .encode => 0xFFFFFFFF#32

/-- The operand of a command, in its place in the word: `(nb << 8) | (w << 4) | (r << 16)` of R107. -/
def Instr.operandBits : Instr → Word
  | .nop => 0#32
  | .bbClear => 0#32
  | .bbAppendMsb nb => BitVec.ofNat 32 nb <<< 8
  | .bbAppendLsb nb => BitVec.ofNat 32 nb <<< 8
  | .modeEncode => 0#32
  | .stuffPad w => BitVec.ofNat 32 w <<< 4
  | .rsParity r => BitVec.ofNat 32 r <<< 16
  | .sizeSelect => 0#32
  | .modeMessage => 0#32
  | .layout => 0#32
  | .encode => 0#32

/-- The assembled word of a command (R107). Only a well-formed command has one that decodes to it. -/
def encode (i : Instr) : Word := i.matchBits ||| i.operandBits

end Sys2Proof
end

