-- ==== Sys2Proof/Config.lean ====
section
/-! DEFINITION. The implementation parameters of 00_scope.md R6, each fixed by the spec to its value, and the values the spec
leaves open: AZC_BASE (20_memory.md R70), AZC_LATENCY (70_reset_and_hazards.md R364) and the value of a host read of a result
while a command runs (20_memory.md R81). An open value is an opaque constant: nothing can be proved of what it is. -/

namespace Sys2Proof

/-- `IN_MAX`: the input buffer's capacity in bytes (R6). -/
def Config.inMax : Nat := 8192

/-- `RAW_MAX`: the raw bit buffer's capacity in bits (R6). -/
def Config.rawMax : Nat := 19968

/-- `CW_MAX`: the codeword buffer's capacity in codewords (R6). -/
def Config.cwMax : Nat := 8192

/-- `MAT_DIM`: the matrix memory is `MAT_DIM` by `MAT_DIM` modules (R6). -/
def Config.matDim : Nat := 151

/-- `BS_EXT_BIAS`: the 11-bit extended binary length holds the length minus this (R6, R161). -/
def Config.bsExtBias : Nat := 31

/-- `BIN_RUN_MAX`: the longest binary run one B/S token covers (R6, R161). -/
def Config.binRunMax : Nat := 2078

/-- `ECC_PCT`: the least share of parity codewords, in percent (R6, R254). -/
def Config.eccPct : Nat := 23

/-- `ECC_EXTRA`: the fixed addend of the least parity count (R6, R254). -/
def Config.eccExtra : Nat := 3

/-- `AZC_BASE`: where AZC's 64 KiB stand in the host's own address map. The spec leaves it open (R70, R331) and every rule
uses offsets only, so no step reads it. -/
opaque Config.azcBase : Nat

/-- `AZC_LATENCY`: how many steps of the model pass between the `CMD` write and the completion step, for the command word
written and the number of free draws made so far. The spec leaves it open, finite (R363, R364). UNCONSTRAINED. -/
opaque Config.latency : Word → Nat → Nat

/-- FREE VALUE: what the n-th free draw gives to a host read of a result register or of the RAW, CW or MAT window while a
command runs: "any value" (R81; 93_implementation_defined.md row 6, drawn per read). UNCONSTRAINED. -/
opaque Config.busyRead : Nat → Word

@[simp] theorem Config.inMax_eq : Config.inMax = 8192 := rfl
@[simp] theorem Config.rawMax_eq : Config.rawMax = 19968 := rfl
@[simp] theorem Config.cwMax_eq : Config.cwMax = 8192 := rfl
@[simp] theorem Config.matDim_eq : Config.matDim = 151 := rfl
@[simp] theorem Config.bsExtBias_eq : Config.bsExtBias = 31 := rfl
@[simp] theorem Config.binRunMax_eq : Config.binRunMax = 2078 := rfl
@[simp] theorem Config.eccPct_eq : Config.eccPct = 23 := rfl
@[simp] theorem Config.eccExtra_eq : Config.eccExtra = 3 := rfl

end Sys2Proof
end

