-- ==== Sys2Proof/Machine/State.lean ====
section
/-! DEFINITION. The state of AZC as plain data (10_state.md), the reasons a step can stop (60_exceptions.md R327), and the state
after reset (70_reset_and_hazards.md R350). Registers that only show a buffer's length or content (RAW_LEN, CW_STAT, MM0, MM1)
are views of that buffer, computed in Machine/Flags.lean, so that each piece of state has one home. -/

namespace Sys2Proof.Machine

/-- The command engine, `ENG` (R32). -/
inductive Engine where
  /-- No command runs. -/
  | idle
  /-- The command word `v` is being executed. -/
  | busy (v : Word)
  deriving DecidableEq, Repr

/-- The named error codes of `STATUS.ERR` (R320). -/
inductive ErrCode where
  /-- 0: success. -/
  | ok
  /-- 1: the input needs more bits than the largest symbol holds. -/
  | capacity
  /-- 2: a reserved opcode, or a nonzero reserved or unused field in the command word. -/
  | illegalCommand
  /-- 3: a field or descriptor value out of range. -/
  | illegalOperand
  /-- 4: the buffers do not hold what the command needs (`STATE`). -/
  | stateError
  /-- 5: an append would pass `RAW_MAX`. -/
  | overflow
  /-- 6: `INTERNAL`, which no command ever reports (R326). -/
  | internal
  deriving DecidableEq, Repr

/-- The two symbol families (R250). -/
inductive Form where
  /-- Layers 1 to 4. -/
  | compact
  /-- Layers 1 to 32, with a reference grid. -/
  | full
  deriving DecidableEq, Repr

/-- The text modes of the ModeEncoder (R13). Binary is only ever reached by a shift (R160) and is no latched mode. -/
inductive Mode where
  | upper
  | lower
  | mixed
  | punct
  | digit
  deriving DecidableEq, Repr

/-- What reaches AZC from outside, one at a time and in program order (R82, R365): host bus accesses of a number of bytes at
an offset (R73), the host's polling loop `WAIT` (R108), and the platform's reset input (R350). -/
inductive Input where
  /-- `MemRead(off, bytes)`. -/
  | read (off : Offset) (bytes : Nat)
  /-- `MemWrite(off, bytes, v)`. -/
  | write (off : Offset) (bytes : Nat) (v : Word)
  /-- `WAIT`: read `STATUS` again and again until `BUSY = 0` and `DONE = 1` (R108). -/
  | waitDone
  /-- The reset input. -/
  | reset
  deriving DecidableEq, Repr

/-- Why the machine stops for good: the model's faults of R327 (errors are no faults: they are codes in `STATUS`). -/
inductive Fault where
  /-- Raised by a host write, to any offset, while a command runs (R360). Safe: on the hardware the result is undefined. -/
  | hostWriteWhileBusy
  /-- Raised by `MODE_ENCODE` and `ENCODE` when `IN[a]`, `a < LEN`, was never written since reset (R352), in their completion
  step (log entry 18). Safe: on the hardware the byte has an unspecified value. -/
  | commandReadsUnwrittenInput
  /-- Raised by a host read of an input-window word that holds a byte never written since reset (R43, R74). Safe. -/
  | hostReadsUnwrittenInput
  /-- Raised by a host read of the MAT window before the first successful `LAYOUT` or `ENCODE` since reset (R47, R77). Safe. -/
  | hostReadsUnwrittenMatrix
  /-- Raised by a host access that is not one aligned 32-bit word (R73). Safe: the hardware answers a bus error and changes
  nothing. -/
  | busError
  /-- Raised where an INTERNAL condition of R326 would hold: a degenerate stuffed codeword, a remainder of the wrong length, a
  traversal outside the matrix, or a mode search with no step. Safe; the spec says it cannot happen. -/
  | internalCondition
  deriving DecidableEq, Repr

/-- Why a step has no meaning. -/
inductive Refusal where
  /-- Raised by exec's arm of an instruction that has no meaning yet; no arm is left. Safe. -/
  | notModelled (mnemonic : String)
  deriving DecidableEq, Repr

/-- The input buffer `IN` (R43) as the list of its written bytes: (index, value), indexes strictly rising. An index that is not
listed has its written flag clear and has no value. -/
abbrev Memory := List Host.Cell

/-- One value a host read returned: the offset read, and the word. -/
structure ReadRecord where
  off : Offset
  value : Word
  deriving DecidableEq, Repr

/-- The state of AZC (R32 to R47), and below it what the model itself keeps: the inputs still to come, what host reads have
returned, how long the running command still takes, and the count of free draws. -/
structure State where
  /-- `ENG` (R32); `STATUS.BUSY` shows it (R37). -/
  eng : Engine
  /-- `CMD` (R34): the last command word written. -/
  cmd : Word
  /-- `ARG` (R35). -/
  arg : Word
  /-- `IN_LEN[15:0]`, `LEN` (R36); the register's other bits are reserved and read 0. -/
  inLen : BitVec 16
  /-- `STATUS.DONE` (R37). -/
  done : Bool
  /-- `STATUS.ERR` (R37, R320). -/
  err : ErrCode
  /-- `RAW` (R44); `RAW_LEN` is its length (R38). -/
  raw : Bits
  /-- `CW` (R45); `CW_STAT.CW_COUNT` is its length (R39). -/
  cw : List Nat
  /-- `CW_STAT.CW_W` (R39): 0 when no command has filled `CW` since reset. -/
  cwW : Nat
  /-- `RES0` (R40). -/
  res0 : Word
  /-- `RES1` (R40). -/
  res1 : Word
  /-- `MM` (R46); `MM_LEN` is its length, and `MM0` and `MM1` show it (R41). -/
  mm : Bits
  /-- `IN` with its written flags (R43). -/
  mem : Memory
  /-- `MAT` (R47): row `r` is element `r`, and column `c` of a row is bit `150 - c`, the first column most significant (R77). -/
  mat : List (BitVec 151)
  /-- The matrix-written flag (R47). -/
  matWritten : Bool
  /-- MODEL: the inputs that reach AZC next, in order. -/
  inputs : List Input
  /-- MODEL: what host reads have returned, the latest first (R108: "value recorded"). -/
  seen : List ReadRecord
  /-- MODEL: how many steps pass before the running command's completion step (R363). -/
  wait : Nat
  /-- MODEL: how many free draws have been made. -/
  draws : Nat
  deriving DecidableEq, Repr

/-- The state after reset (R350). `mat` is unspecified there: its zero rows are never read as a value while `matWritten` is
false (R47). Nothing is pending and nothing has been read. -/
def State.reset : State where
  eng := .idle
  cmd := 0#32
  arg := 0#32
  inLen := 0#16
  done := false
  err := .ok
  raw := []
  cw := []
  cwW := 0
  res0 := 0#32
  res1 := 0#32
  mm := []
  mem := []
  mat := List.replicate 151 0#151
  matWritten := false
  inputs := []
  seen := []
  wait := 0
  draws := 0

end Sys2Proof.Machine
end

