-- ==== Sys2Proof/Machine/Bits.lean ====
section
/-! DEFINITION. Bit sequences and integers (00_scope.md R9; 40_bitbuffer.md R131): the two append orders, the value of a bit
sequence, and the packing of bits into a bus word, earlier bits in more significant positions (20_memory.md R78). -/

namespace Sys2Proof.Machine

/-- `msb_n(v)` (R9): bit `n-1-j` of `v` stands at index `j`. -/
def msbBits (n v : Nat) : Bits := (List.range n).map fun j => v.testBit (n - 1 - j)

/-- `lsb_n(v)` (R9): bit `j` of `v` stands at index `j`. -/
def lsbBits (n v : Nat) : Bits := (List.range n).map fun j => v.testBit j

/-- `val(s)` (R9): the integer whose most-significant-first binary digits are `s`. -/
def bitsVal (s : Bits) : Nat := s.foldl (fun acc b => 2 * acc + b.toNat) 0

/-- `appendMSB(s, v, n)` (R131). -/
def appendMsb (s : Bits) (v n : Nat) : Bits := s ++ msbBits n v

/-- `appendLSB(s, v, n)` (R131). -/
def appendLsb (s : Bits) (v n : Nat) : Bits := s ++ lsbBits n v

/-- The first 32 bits of `s` as a bus word, bit `j` at position `31 - j`, with zeros after the end of `s` (R75). -/
def packWord (s : Bits) : Word := BitVec.ofNat 32 (bitsVal ((s ++ List.replicate 32 false).take 32))

/-- `ceil(a / b)` for positive `b` (R11). -/
def ceilDiv (a b : Nat) : Nat := (a + b - 1) / b

/-- `|a - b|`. -/
def gap (a b : Nat) : Nat := (a - b) + (b - a)

end Sys2Proof.Machine
end

