-- ==== Sys2Proof/Machine/Ops.lean ====
section
/-! DEFINITION. The named operations every command is built from: the outcome of a command before it completes, completion and
the error effect as the two ways a command ends (10_state.md R32; 60_exceptions.md R323), the input buffer's bytes (R43), and
the buffer updates. -/

namespace Sys2Proof.Machine

/-- How the body of a command ends: with a value, with `raise Error(code)` (R12), or with a fault of the model (R327). -/
inductive Effect (α : Type) where
  | done (a : α)
  | raise (e : ErrCode)
  | stop (f : Fault)
  deriving DecidableEq, Repr

/-- Run a next part after a part that ended with a value; an error or a fault ends the whole (R323: all or nothing). -/
def Effect.andThen {α β : Type} (x : Effect α) (k : α → Effect β) : Effect β :=
  match x with
  | .done a => k a
  | .raise e => .raise e
  | .stop f => .stop f

/-- Completion with success (R32, R361): `STATUS.ERR <- 0`, `STATUS.DONE <- 1`, `STATUS.BUSY <- 0`, `ENG <- Idle`. -/
def State.complete (s : State) : State := { s with eng := .idle, done := true, err := .ok }

/-- The error effect (R323), which is all that happens when a command raises an error: `STATUS.ERR <- code`,
`STATUS.DONE <- 1`, `STATUS.BUSY <- 0`, `ENG <- Idle`. No state is saved and there is no handler; the next `CMD` write clears
the code (R324). -/
def State.raiseError (s : State) (e : ErrCode) : State := { s with eng := .idle, done := true, err := e }

/-- The one atomic completion step of a command (R32) from the state before it and the end of its body: all of its effect,
or on an error none of it (R323). -/
def finish (s : State) (x : Effect State) : Host.Outcome State Fault Refusal :=
  match x with
  | .done t => .next t.complete
  | .raise e => .next (s.raiseError e)
  | .stop f => .fault f

/-- The start of a command by a `CMD` write of `v` while idle (R34): `CMD` latches `v`, `DONE` and `ERR` are cleared and
`ENG <- Busy(v)`; `n` is how many steps pass before the completion step. -/
def State.start (s : State) (v : Word) (n : Nat) : State :=
  { s with eng := .busy v, cmd := v, done := false, err := .ok, wait := n }

/-- Replace the raw bit buffer (R44). -/
def State.setRaw (s : State) (b : Bits) : State := { s with raw := b }

/-- Replace the codeword buffer and its width tag (R45, R39). -/
def State.setCw (s : State) (w : Nat) (c : List Nat) : State := { s with cw := c, cwW := w }

/-- Write the two result registers (R40). -/
def State.setRes (s : State) (a b : Word) : State := { s with res0 := a, res1 := b }

/-- Replace the mode-message buffer (R46). -/
def State.setMm (s : State) (b : Bits) : State := { s with mm := b }

/-- Write the whole matrix and set the matrix-written flag (R47). -/
def State.setMat (s : State) (m : List (BitVec 151)) : State := { s with mat := m, matWritten := true }

/-- Write `ARG` (R35). -/
def State.setArg (s : State) (v : Word) : State := { s with arg := v }

/-- Write `IN_LEN`: bits 15:0 are stored, the reserved bits are ignored (R36). -/
def State.setInLen (s : State) (v : Word) : State := { s with inLen := v.extractLsb' 0 16 }

/-- Replace the input buffer (R43). -/
def State.setMem (s : State) (m : Memory) : State := { s with mem := m }

/-- The byte of `IN` at index `a`, and nothing when its written flag is clear (R43). -/
def Memory.read : Memory → Nat → Option Byte
  | [], _ => none
  | (k, b) :: m, a => if k = a then some b else Memory.read m a

/-- Write byte `b` at index `a` and set its written flag (R74), keeping the indexes strictly rising. -/
def Memory.write : Memory → Nat → Byte → Memory
  | [], a, b => [(a, b)]
  | (k, c) :: m, a, b =>
    if a < k then (a, b) :: (k, c) :: m
    else if a = k then (a, b) :: m
    else (k, c) :: Memory.write m a b

/-- The four bytes of a host write to input word `q`, the first byte least significant (R74). -/
def Memory.writeWord (m : Memory) (q : Nat) (v : Word) : Memory :=
  (((m.write (4 * q) (v.extractLsb' 0 8)).write (4 * q + 1) (v.extractLsb' 8 8)).write (4 * q + 2)
    (v.extractLsb' 16 8)).write (4 * q + 3) (v.extractLsb' 24 8)

/-- The value of input word `q` (R74), and nothing when one of its bytes was never written. -/
def Memory.readWord (m : Memory) (q : Nat) : Option Word :=
  match m.read (4 * q), m.read (4 * q + 1), m.read (4 * q + 2), m.read (4 * q + 3) with
  | some b0, some b1, some b2, some b3 => some (b3 ++ b2 ++ b1 ++ b0)
  | _, _, _, _ => none

/-- The input bytes `IN[a] .. IN[a+n-1]`, and nothing when one of them was never written (R352). -/
def Memory.readBytes (m : Memory) : Nat → Nat → Option (List Byte)
  | _, 0 => some []
  | a, n + 1 =>
    match m.read a with
    | none => none
    | some b =>
      match Memory.readBytes m (a + 1) n with
      | none => none
      | some bs => some (b :: bs)

/-- The indexes rise strictly from `lo` on and stay below `IN_MAX` (R43). -/
def Memory.wfFrom : Nat → Memory → Bool
  | _, [] => true
  | lo, (k, _) :: m => decide (lo ≤ k) && decide (k < Config.inMax) && Memory.wfFrom (k + 1) m

/-- The canonical form: indexes strictly rising and below `IN_MAX`. An unlisted index has no value, so no entry can equal what
an unlisted one reads as. -/
def Memory.wf (m : Memory) : Bool := Memory.wfFrom 0 m

/-- The module at row `r`, column `q` of `MAT`; true is dark (R14, R47). -/
def State.module (s : State) (r q : Nat) : Bool := (s.mat.getD r 0#151).getMsbD q

end Sys2Proof.Machine
end

