-- ==== Sys2Proof/Machine/Flags.lean ====
section
/-! DEFINITION. The status word and the registers that show a buffer (10_state.md R37 to R42): each is computed from the one
place its content is held. -/

namespace Sys2Proof.Machine

/-- The code of an error (R320). -/
def ErrCode.code : ErrCode → BitVec 4
  | .ok => 0#4
  | .capacity => 1#4
  | .illegalCommand => 2#4
  | .illegalOperand => 3#4
  | .stateError => 4#4
  | .overflow => 5#4
  | .internal => 6#4

/-- `STATUS.BUSY` (R37): 1 while `ENG = Busy`. -/
def State.busy (s : State) : Bool :=
  match s.eng with
  | .idle => false
  | .busy _ => true

/-- `STATUS` (R37): `ERR` in bits 7:4, bits 3:2 zero, `DONE` in bit 1, `BUSY` in bit 0. -/
def State.status (s : State) : Word :=
  0#24 ++ s.err.code ++ 0#2 ++ BitVec.ofBool s.done ++ BitVec.ofBool s.busy

/-- `RAW_LEN` (R38). -/
def State.rawLen (s : State) : Word := BitVec.ofNat 32 s.raw.length

/-- `CW_STAT` (R39): `CW_W` in bits 19:16, `CW_COUNT` in bits 13:0. -/
def State.cwStat (s : State) : Word := BitVec.ofNat 32 s.cwW <<< 16 ||| BitVec.ofNat 32 s.cw.length

/-- `MM0` (R41): `MM[i]` is bit `31 - i`. -/
def State.mm0 (s : State) : Word := packWord s.mm

/-- `MM1` (R41): `MM[i]` is bit `31 - (i - 32)` for `i` in 32 to 39, and `MM_LEN` is bits 5:0. -/
def State.mm1 (s : State) : Word := packWord ((s.mm.drop 32).take 8) ||| BitVec.ofNat 32 s.mm.length

/-- `ID` (R42), a constant. -/
def idWord : Word := 0x415A4301#32

/-- `RES0.FORM` (R40). -/
def resForm (v : Word) : Nat := (v.extractLsb' 0 1).toNat

/-- `RES0.LAYERS` (R40). -/
def resLayers (v : Word) : Nat := (v.extractLsb' 8 6).toNat

/-- `RES0.W` (R40). -/
def resW (v : Word) : Nat := (v.extractLsb' 16 4).toNat

/-- `RES0.SIDE` (R40). -/
def resSide (v : Word) : Nat := (v.extractLsb' 24 8).toNat

/-- `RES1.N` (R40). -/
def resN (v : Word) : Nat := (v.extractLsb' 0 12).toNat

/-- `RES1.K` (R40). -/
def resK (v : Word) : Nat := (v.extractLsb' 16 12).toNat

end Sys2Proof.Machine
end

