-- ==== Sys2Proof/Machine/Bus.lean ====
section
/-! DEFINITION. The host's accesses (20_memory.md R70 to R86; 10_state.md R33 to R42): the address map, what a read returns
while idle and while a command runs, and what a write does. -/

namespace Sys2Proof.Machine

/-- What stands at an aligned offset of AZC's address space (R72). -/
inductive Region where
  /-- `CMD`, offset 0x000. -/
  | cmd
  /-- `ARG`, 0x004. -/
  | arg
  /-- `IN_LEN`, 0x008. -/
  | inLen
  /-- `STATUS`, 0x00C. -/
  | status
  /-- `RAW_LEN`, 0x010. -/
  | rawLen
  /-- `CW_STAT`, 0x014. -/
  | cwStat
  /-- `RES0`, 0x018. -/
  | res0
  /-- `RES1`, 0x01C. -/
  | res1
  /-- `MM0`, 0x020. -/
  | mm0
  /-- `MM1`, 0x024. -/
  | mm1
  /-- `ID`, 0x028. -/
  | ident
  /-- Word `q` of the input window. -/
  | input (q : Nat)
  /-- Word `q` of the RAW window. -/
  | rawWindow (q : Nat)
  /-- Word `q` of row `r` in the MAT window. -/
  | matWindow (r q : Nat)
  /-- Word `i` of the CW window. -/
  | cwWindow (i : Nat)
  /-- Reserved register space or an unmapped offset: reads 0, ignores writes. -/
  | unmapped
  deriving DecidableEq, Repr

/-- The address map (R33, R72). -/
def region (a : Nat) : Region :=
  if a < 0x2C then
    match a / 4 with
    | 0 => .cmd
    | 1 => .arg
    | 2 => .inLen
    | 3 => .status
    | 4 => .rawLen
    | 5 => .cwStat
    | 6 => .res0
    | 7 => .res1
    | 8 => .mm0
    | 9 => .mm1
    | _ => .ident
  else if 0x2000 ≤ a ∧ a ≤ 0x3FFF then .input ((a - 0x2000) / 4)
  else if 0x4000 ≤ a ∧ a ≤ 0x49BF then .rawWindow ((a - 0x4000) / 4)
  else if 0x5000 ≤ a ∧ a ≤ 0x5BCB then .matWindow ((a - 0x5000) / 20) ((a - 0x5000) % 20 / 4)
  else if 0x8000 ≤ a then .cwWindow ((a - 0x8000) / 4)
  else .unmapped

/-- An access the bus accepts: one 32-bit word at a multiple of 4 (R73). -/
def busLegal (off : Offset) (bytes : Nat) : Bool := bytes == 4 && off.toNat % 4 == 0

/-- Word `q` of the RAW window (R75). -/
def State.rawWord (s : State) (q : Nat) : Word := packWord ((s.raw.drop (32 * q)).take 32)

/-- Word `i` of the CW window (R76). -/
def State.cwWord (s : State) (i : Nat) : Word := BitVec.ofNat 32 (s.cw.getD i 0)

/-- Word `q` of row `r` of the MAT window: the 151 modules, then 9 zeros, 32 at a time (R77). -/
def State.matWord (s : State) (r q : Nat) : Word := (s.mat.getD r 0#151 ++ 0#9).extractLsb' (128 - 32 * q) 32

/-- What a host read gets: a value the machine fixes, any value (R81), or a fault of the model (R327). -/
inductive ReadResult where
  | value (v : Word)
  | anyValue
  | stop (f : Fault)
  deriving DecidableEq, Repr

/-- A read of a result register or window: exact while idle, any value while a command runs (R81). -/
def resultRead (s : State) (v : Word) : ReadResult := if s.busy then .anyValue else .value v

/-- What a host read of a region gets (R33 to R42, R74 to R77, R81). -/
def readRegion (s : State) (g : Region) : ReadResult :=
  match g with
  | .cmd => .value s.cmd
  | .arg => .value s.arg
  | .inLen => .value (s.inLen.setWidth 32)
  | .status => .value s.status
  | .rawLen => resultRead s s.rawLen
  | .cwStat => resultRead s s.cwStat
  | .res0 => resultRead s s.res0
  | .res1 => resultRead s s.res1
  | .mm0 => resultRead s s.mm0
  | .mm1 => resultRead s s.mm1
  | .ident => .value idWord
  | .input q =>
    match s.mem.readWord q with
    | some v => .value v
    | none => .stop .hostReadsUnwrittenInput
  | .rawWindow q => resultRead s (s.rawWord q)
  | .matWindow r q => if s.matWritten then resultRead s (s.matWord r q) else .stop .hostReadsUnwrittenMatrix
  | .cwWindow i => resultRead s (s.cwWord i)
  | .unmapped => .value 0#32

/-- The host's record of a value it read (R108). -/
def State.record (s : State) (off : Offset) (v : Word) : State := { s with seen := ⟨off, v⟩ :: s.seen }

/-- One free draw has been made. -/
def State.drawn (s : State) : State := { s with draws := s.draws + 1 }

/-- A host read (R73, R79, R81): it changes nothing but the host's record and the count of free draws. -/
def hostRead (off : Offset) (bytes : Nat) (s : State) : Host.Outcome State Fault Refusal :=
  if busLegal off bytes then
    match readRegion s (region off.toNat) with
    | .value v => .next (s.record off v)
    | .anyValue => .next (s.record off (Config.busyRead s.draws)).drawn
    | .stop f => .fault f
  else .fault .busError

/-- What a host write to a region does while idle (R34 to R36, R72, R74); a read-only or unmapped place ignores it. -/
def writeRegion (s : State) (g : Region) (v : Word) : State :=
  match g with
  | .cmd => (s.start v (Config.latency v s.draws)).drawn
  | .arg => s.setArg v
  | .inLen => s.setInLen v
  | .status => s
  | .rawLen => s
  | .cwStat => s
  | .res0 => s
  | .res1 => s
  | .mm0 => s
  | .mm1 => s
  | .ident => s
  | .input q => s.setMem (s.mem.writeWord q v)
  | .rawWindow _ => s
  | .matWindow _ _ => s
  | .cwWindow _ => s
  | .unmapped => s

/-- A host write (R73, R360): a bus error unless it is one aligned word, a protocol violation while a command runs, and else the
region's own effect. -/
def hostWrite (off : Offset) (bytes : Nat) (v : Word) (s : State) : Host.Outcome State Fault Refusal :=
  if busLegal off bytes then
    if s.busy then .fault .hostWriteWhileBusy else .next (writeRegion s (region off.toNat) v)
  else .fault .busError

end Sys2Proof.Machine
end

