-- ==== Sys2Proof/Machine/Operands.lean ====
section
/-! DEFINITION. The operand forms: the input length and bytes (10_state.md R36, R43), the value operand of the append commands
with their checks (30_encoding.md R104; 40_bitbuffer.md R132), the legal codeword widths (42_stuffer.md R206), and the symbol
descriptor in ARG (45_layout.md R270). -/

namespace Sys2Proof.Machine

/-- `LEN = IN_LEN[15:0]` (R36). -/
def State.len (s : State) : Nat := s.inLen.toNat

/-- The value operand of the append commands: all of `ARG` (R104). -/
def State.argValue (s : State) : Nat := s.arg.toNat

/-- The input `IN[0] .. IN[LEN-1]`, with the length check before the first byte is read (R173). -/
def State.input (s : State) : Effect (List Byte) :=
  if Config.inMax < s.len then .raise .capacity
  else
    match s.mem.readBytes 0 s.len with
    | some bs => .done bs
    | none => .stop .commandReadsUnwrittenInput

/-- The operand checks of the append commands, in their order (R132). -/
def appendCheck (raw : Bits) (nb : Nat) : Option ErrCode :=
  if 32 < nb then some .illegalOperand
  else if Config.rawMax < raw.length + nb then some .overflow
  else none

/-- The widths `STUFF_PAD` accepts (R206). -/
def legalWidth (w : Nat) : Bool := w == 4 || w == 6 || w == 8 || w == 10 || w == 12

/-- A symbol descriptor (R270): form, layer count, and data codeword count. -/
structure Descriptor where
  form : Form
  layers : Nat
  k : Nat
  deriving DecidableEq, Repr

/-- The ranges a valid descriptor keeps (R270). -/
def Descriptor.inRange (d : Descriptor) : Bool :=
  match d.form with
  | .compact => decide (1 ≤ d.layers) && decide (d.layers ≤ 4) && decide (1 ≤ d.k) && decide (d.k ≤ 64)
  | .full => decide (1 ≤ d.layers) && decide (d.layers ≤ 32) && decide (1 ≤ d.k) && decide (d.k ≤ 2048)

/-- The descriptor fields of a word: `D_FORM` bit 0, `D_LAYERS` bits 6:1, `D_K` bits 19:8 (R270). -/
def descriptorFields (v : Word) : Descriptor where
  form := if v.getLsbD 0 then .full else .compact
  layers := (v.extractLsb' 1 6).toNat
  k := (v.extractLsb' 8 12).toNat

/-- The descriptor a word holds, and nothing when it is not valid: bits 7 and 31:20 zero and every field in range (R270). -/
def descriptorOf (v : Word) : Option Descriptor :=
  if v.extractLsb' 7 1 = 0#1 ∧ v.extractLsb' 20 12 = 0#12 ∧ (descriptorFields v).inRange = true then
    some (descriptorFields v)
  else none

/-- The number a form has in `FORM` and `D_FORM`: 0 = Compact, 1 = Full (R40, R270). -/
def Form.bit : Form → Nat
  | .compact => 0
  | .full => 1

/-- The word of a descriptor: `form | (L << 1) | (k << 8)` (R270, R310). -/
def descriptorWord (d : Descriptor) : Word :=
  BitVec.ofNat 32 d.form.bit ||| BitVec.ofNat 32 d.layers <<< 1 ||| BitVec.ofNat 32 d.k <<< 8

end Sys2Proof.Machine
end

