-- ==== Sys2Proof/Machine/BitBuffer.lean ====
section
/-! DEFINITION. The BitBuffer commands (40_bitbuffer.md): BB_CLEAR, BB_APPEND_MSB, BB_APPEND_LSB. -/

namespace Sys2Proof.Machine

/-- An append command, for one of the two append orders (R134, R135): the checks of R132, then `RAW` is extended. -/
def appendEffect (append : Bits → Nat → Nat → Bits) (nb : Nat) (s : State) : Effect State :=
  match appendCheck s.raw nb with
  | some e => .raise e
  | none => .done (s.setRaw (append s.raw s.argValue nb))

/-- `BB_CLEAR` (R133): `RAW <- []`. -/
def execBbClear (s : State) : Host.Outcome State Fault Refusal := finish s (.done (s.setRaw []))

/-- `BB_APPEND_MSB nb` (R134). -/
def execBbAppendMsb (nb : Nat) (s : State) : Host.Outcome State Fault Refusal :=
  finish s (appendEffect appendMsb nb s)

/-- `BB_APPEND_LSB nb` (R135). -/
def execBbAppendLsb (nb : Nat) (s : State) : Host.Outcome State Fault Refusal :=
  finish s (appendEffect appendLsb nb s)

end Sys2Proof.Machine
end

