-- ==== Sys2Proof/Machine/ReedSolomon.lean ====
section
/-! DEFINITION. GF(2^w), the ReedSolomonEncoder and the RS_PARITY command (43_reed_solomon.md R220 to R229). A field element is
the integer whose bit `j` is the coefficient of `x^j` (R221). -/

namespace Sys2Proof.Machine

/-- The field polynomial `p_w` (R222); a width that no rule names has none, and 0 stands there. -/
def fieldPoly (w : Nat) : Nat :=
  match w with
  | 4 => 0x13
  | 6 => 0x43
  | 8 => 0x12D
  | 10 => 0x409
  | 12 => 0x1069
  | _ => 0

/-- Multiplication by the primitive element `alpha = 2`: a shift, reduced modulo `p_w` when it leaves the field (R223). -/
def gfDouble (w a : Nat) : Nat := if 2 * a < 2 ^ w then 2 * a else (2 * a) ^^^ fieldPoly w

/-- The product of `a` with the polynomial of the bits `n-1 .. 0` of `b`, highest degree first (R221). -/
def gfMulBits (w a b : Nat) : Nat → Nat
  | 0 => 0
  | n + 1 => (if b.testBit 0 then a else 0) ^^^ gfDouble w (gfMulBits w a (b / 2) n)

/-- Multiplication in GF(2^w) (R221). -/
def gfMul (w a b : Nat) : Nat := gfMulBits w a b w

/-- `alpha^e`: the entry `exp[e]` of R223. -/
def alphaPow (w : Nat) : Nat → Nat
  | 0 => 1
  | e + 1 => gfDouble w (alphaPow w e)

/-- A polynomial, its highest-degree coefficient first, times `(x - c)`. -/
def mulRoot (w c : Nat) (p : List Nat) : List Nat :=
  List.zipWith (fun a b => a ^^^ b) (p ++ [0]) (0 :: p.map (gfMul w c))

/-- The coefficients `g_0 .. g_r` of the generator polynomial `g_r(x)` (R224). -/
def genPoly (w : Nat) : Nat → List Nat
  | 0 => [1]
  | r + 1 => mulRoot w (alphaPow w (r + 1)) (genPoly w r)

/-- One step of the remainder register with data codeword `d`; `g` holds `g_1 .. g_r` (R226). -/
def remStep (w : Nat) (g rem : List Nat) (d : Nat) : List Nat :=
  List.zipWith (fun gt t => t ^^^ gfMul w gt (d ^^^ rem.headD 0)) g (rem.drop 1 ++ [0])

/-- The parity codewords of `d`, highest degree first (R225, R226). -/
def parity (w r : Nat) (d : List Nat) : List Nat :=
  d.foldl (remStep w ((genPoly w r).drop 1)) (List.replicate r 0)

/-- The parity, with the INTERNAL condition of R326 that the remainder has `r` stages. -/
def parityEffect (w r : Nat) (d : List Nat) : Effect (List Nat) :=
  if (parity w r d).length = r then .done (parity w r d) else .stop .internalCondition

/-- The body of `RS_PARITY r` (R229). -/
def rsParityEffect (r : Nat) (s : State) : Effect State :=
  if s.cwW = 0 then .raise .stateError
  else if 2 ^ s.cwW - 1 < s.cw.length + r then .raise .illegalOperand
  else (parityEffect s.cwW r s.cw).andThen fun p => .done (s.setCw s.cwW (s.cw ++ p))

/-- `RS_PARITY r` (R229). -/
def execRsParity (r : Nat) (s : State) : Host.Outcome State Fault Refusal := finish s (rsParityEffect r s)

/-- The left side of the syndrome condition at root `alpha^i` (R225): the whole codeword sequence, its first codeword the
highest-degree coefficient, evaluated at `x = alpha^i`. -/
def syndrome (w i : Nat) (c : List Nat) : Nat := c.foldl (fun acc d => gfMul w (alphaPow w i) acc ^^^ d) 0

end Sys2Proof.Machine
end

