-- ==== Sys2Proof/Machine/Stuffer.lean ====
section
/-! DEFINITION. The StufferPadder and the STUFF_PAD command (42_stuffer.md R200 to R206). -/

namespace Sys2Proof.Machine

/-- All bits are equal to `v`. -/
def allBits (v : Bool) (b : Bits) : Bool := b.all fun x => x == v

/-- A codeword is degenerate when its bits are all 0 or all 1 (R200). -/
def degenerate (b : Bits) : Bool := allBits false b || allBits true b

/-- One stuffing step on at least `w` source bits (R202): the codeword emitted and the bits not yet consumed. -/
def stuffStep (w : Nat) (b : Bits) : Bits × Bits :=
  if degenerate (b.take (w - 1)) then (b.take (w - 1) ++ [!(b.headD false)], b.drop (w - 1))
  else (b.take w, b.drop w)

/-- The loop of R202 from source bits `b`: the codewords emitted and the bits that remain, fewer than `w`. The first argument
bounds the number of steps; the test says that at least `w` bits remain, without counting them all. -/
def stuffLoop : Nat → Nat → Bits → List Bits × Bits
  | 0, _, b => ([], b)
  | n + 1, w, b =>
    if (b.take w).length = w then
      ((stuffStep w b).1 :: (stuffLoop n w (stuffStep w b).2).1, (stuffLoop n w (stuffStep w b).2).2)
    else ([], b)

/-- The final codeword from the bits that remain (R203): padded with ones, and its last bit 0 if that makes it all ones. -/
def finalWord (w : Nat) (b : Bits) : Bits :=
  if allBits true b then List.replicate (w - 1) true ++ [false] else b ++ List.replicate (w - b.length) true

/-- The codewords of `stuff_pad(b, w)` as bit sequences (R202, R203). Each step consumes a bit, so there are at most as many
steps as bits. -/
def stuffWords (w : Nat) (b : Bits) : List Bits :=
  match stuffLoop b.length w b with
  | (ws, rest) => if ws = [] ∨ rest ≠ [] then ws ++ [finalWord w rest] else ws

/-- `stuff_pad(b, w)` (R200): the codewords as integers (R204). -/
def stuffPad (w : Nat) (b : Bits) : List Nat := (stuffWords w b).map bitsVal

/-- The stuffed codewords, with the INTERNAL condition of R326 that none of them is degenerate. -/
def stuffed (w : Nat) (b : Bits) : Effect (List Nat) :=
  if (stuffWords w b).any degenerate then .stop .internalCondition else .done (stuffPad w b)

/-- The body of `STUFF_PAD w` (R206). -/
def stuffPadEffect (w : Nat) (s : State) : Effect State :=
  if legalWidth w then (stuffed w s.raw).andThen fun c => .done (s.setCw w c) else .raise .illegalOperand

/-- `STUFF_PAD w` (R206). -/
def execStuffPad (w : Nat) (s : State) : Host.Outcome State Fault Refusal := finish s (stuffPadEffect w s)

end Sys2Proof.Machine
end

