-- ==== Sys2Proof/Machine/SizeSelector.lean ====
section
/-! DEFINITION. Symbol parameters, the SizeSelector and the SIZE_SELECT command (44_size_selector.md R250 to R258). -/

namespace Sys2Proof.Machine

/-- A symbol `(form, L)` (R250). -/
structure Symbol where
  form : Form
  layers : Nat
  deriving DecidableEq, Repr

/-- The symbols that exist: Compact 1 to 4, Full 1 to 32 (R250). -/
def Symbol.valid (y : Symbol) : Bool :=
  match y.form with
  | .compact => decide (1 ≤ y.layers) && decide (y.layers ≤ 4)
  | .full => decide (1 ≤ y.layers) && decide (y.layers ≤ 32)

/-- `w(form, L)` (R251). -/
def Symbol.width (y : Symbol) : Nat :=
  match y.form with
  | .compact => if y.layers ≤ 2 then 6 else 8
  | .full => if y.layers ≤ 2 then 6 else if y.layers ≤ 8 then 8 else if y.layers ≤ 22 then 10 else 12

/-- `T(form, L)` (R252). -/
def Symbol.dataBits (y : Symbol) : Nat :=
  match y.form with
  | .compact => (88 + 16 * y.layers) * y.layers
  | .full => (112 + 16 * y.layers) * y.layers

/-- `N(form, L)` (R253). -/
def Symbol.total (y : Symbol) : Nat := y.dataBits / y.width

/-- `rmin(N)` (R254). -/
def minParity (n : Nat) : Nat := ceilDiv (Config.eccPct * n) 100 + Config.eccExtra

/-- `B`, the side without reference lines (R258, R280). -/
def Symbol.base (y : Symbol) : Nat :=
  match y.form with
  | .compact => 11 + 4 * y.layers
  | .full => 14 + 4 * y.layers

/-- `side(form, L)` (R258). -/
def Symbol.side (y : Symbol) : Nat :=
  match y.form with
  | .compact => y.base
  | .full => y.base + 1 + 2 * ((y.base / 2 - 1) / 15)

/-- The candidates in the order they are tried (R255). -/
def candidates : List Symbol :=
  (List.range 4).map (fun i => ⟨.compact, i + 1⟩) ++ (List.range 32).map (fun i => ⟨.full, i + 1⟩)

/-- The raw stream, stuffed at the candidate's width, fits the candidate with its least parity (R254, R255). -/
def Symbol.fits (raw : Bits) (y : Symbol) : Bool :=
  decide ((stuffPad y.width raw).length + minParity y.total ≤ y.total)

/-- `size_select(RAW)` (R255): the first candidate that fits. -/
def sizeSelect (raw : Bits) : Option Symbol := candidates.find? fun y => y.fits raw

/-- The word of `RES0` for a symbol (R257): side, width, layers, form. -/
def res0Word (y : Symbol) : Word :=
  BitVec.ofNat 32 y.side <<< 24 ||| BitVec.ofNat 32 y.width <<< 16 ||| BitVec.ofNat 32 y.layers <<< 8 |||
    BitVec.ofNat 32 y.form.bit

/-- The word of `RES1` for `k` data codewords of a symbol (R257): `K` and `N`. -/
def res1Word (y : Symbol) (k : Nat) : Word := BitVec.ofNat 32 k <<< 16 ||| BitVec.ofNat 32 y.total

/-- `SIZE_SELECT`'s writes for the chosen symbol (R257). -/
def selectInto (s : State) (y : Symbol) (c : List Nat) : State :=
  (s.setCw y.width c).setRes (res0Word y) (res1Word y c.length)

/-- The body of `SIZE_SELECT` (R257). -/
def sizeSelectEffect (s : State) : Effect State :=
  match sizeSelect s.raw with
  | none => .raise .capacity
  | some y => (stuffed y.width s.raw).andThen fun c => .done (selectInto s y c)

/-- `SIZE_SELECT` (R257). -/
def execSizeSelect (s : State) : Host.Outcome State Fault Refusal := finish s (sizeSelectEffect s)

end Sys2Proof.Machine
end

