-- ==== Sys2Proof/Machine/Layout.lean ====
section
/-! DEFINITION. The mode message, the GridLayoutEngine, and the MODE_MESSAGE and LAYOUT commands (45_layout.md R270 to R290).
The placement rules are position generators, apart from the writing of the matrix. -/

namespace Sys2Proof.Machine

/-- The symbol a descriptor names (R270). -/
def Descriptor.symbol (d : Descriptor) : Symbol := ⟨d.form, d.layers⟩

/-- The field value `v` of the mode message (R271, R272). -/
def modeValue (d : Descriptor) : Nat :=
  match d.form with
  | .compact => ((d.layers - 1) <<< 6) ||| (d.k - 1)
  | .full => ((d.layers - 1) <<< 11) ||| (d.k - 1)

/-- `nd`, the data nibbles of the mode message (R271). -/
def Form.dataNibbles : Form → Nat
  | .compact => 2
  | .full => 4

/-- `nt - nd`, its parity nibbles (R271). -/
def Form.parityNibbles : Form → Nat
  | .compact => 5
  | .full => 6

/-- `MM_LEN` of a form (R273). -/
def Form.modeBits : Form → Nat
  | .compact => 28
  | .full => 40

/-- The data nibbles `d_0 .. d_{nd-1}`, the first one most significant (R272). -/
def modeNibbles (d : Descriptor) : List Nat :=
  (List.range d.form.dataNibbles).map fun j => (modeValue d >>> (4 * (d.form.dataNibbles - 1 - j))) &&& 0xF

/-- `mode_message(form, L, k)` (R272). -/
def modeMessage (d : Descriptor) : Effect Bits :=
  (parityEffect 4 d.form.parityNibbles (modeNibbles d)).andThen fun p =>
    .done ((modeNibbles d ++ p).flatMap (msbBits 4))

/-- The body of `MODE_MESSAGE` for the word that holds its descriptor (R273). -/
def modeMessageEffect (v : Word) (s : State) : Effect State :=
  match descriptorOf v with
  | none => .raise .illegalOperand
  | some d => (modeMessage d).andThen fun b => .done (s.setMm b)

/-- `MODE_MESSAGE` (R273): the descriptor is in `ARG`. -/
def execModeMessage (s : State) : Host.Outcome State Fault Refusal := finish s (modeMessageEffect s.arg s)

/-! Geometry (R280, R283) -/

/-- The centre coordinate `c = S div 2` (R280). -/
def Symbol.centre (y : Symbol) : Nat := y.side / 2

/-- `fs`, the distance of the mode-message ring from the centre (R280). -/
def Symbol.ring (y : Symbol) : Nat :=
  match y.form with
  | .compact => 5
  | .full => 7

/-- `d(r, q)`, the Chebyshev distance from the centre (R280). -/
def Symbol.distance (y : Symbol) (r q : Nat) : Nat := Nat.max (gap r y.centre) (gap q y.centre)

/-- `A[t]`, the alignment map (R283). -/
def Symbol.align (y : Symbol) (t : Nat) : Nat :=
  match y.form with
  | .compact => t
  | .full =>
    if t < y.base / 2 then y.centre - ((y.base / 2 - 1 - t) + (y.base / 2 - 1 - t) / 15) - 1
    else y.centre + ((t - y.base / 2) + (t - y.base / 2) / 15) + 1

/-- `rowSize(i)` of layer `i`, 0 the outermost (R252, R283). -/
def Symbol.rowSize (y : Symbol) (i : Nat) : Nat :=
  match y.form with
  | .compact => 4 * (y.layers - i) + 9
  | .full => 4 * (y.layers - i) + 12

/-- `ro` at the start of layer `i` (R284). -/
def Symbol.layerOffset (y : Symbol) : Nat → Nat
  | 0 => 0
  | i + 1 => y.layerOffset i + 8 * y.rowSize i

/-- One position of a generator: a module, and the index of the bit it shows. -/
structure Place where
  row : Nat
  col : Nat
  bit : Nat
  deriving DecidableEq, Repr

/-- The four positions of step `j` and bit `t` in layer `i`: left, bottom, right and top edge (R284). -/
def edgePlaces (y : Symbol) (i j t : Nat) : List Place :=
  [⟨y.align (2 * i + j), y.align (2 * i + t), y.layerOffset i + 2 * j + t⟩,
    ⟨y.align (y.base - 1 - 2 * i - t), y.align (2 * i + j), y.layerOffset i + 2 * y.rowSize i + 2 * j + t⟩,
    ⟨y.align (y.base - 1 - 2 * i - j), y.align (y.base - 1 - 2 * i - t),
      y.layerOffset i + 4 * y.rowSize i + 2 * j + t⟩,
    ⟨y.align (2 * i + t), y.align (y.base - 1 - 2 * i - j), y.layerOffset i + 6 * y.rowSize i + 2 * j + t⟩]

/-- The data placement generator (R284). -/
def dataPlaces (y : Symbol) : List Place :=
  (List.range y.layers).flatMap fun i =>
    (List.range (y.rowSize i)).flatMap fun j => (List.range 2).flatMap fun t => edgePlaces y i j t

/-- The mode message placement generator (R285). -/
def modePlaces (y : Symbol) : List Place :=
  match y.form with
  | .compact =>
    (List.range 7).flatMap fun t =>
      [⟨y.centre - 5, y.centre - 3 + t, t⟩, ⟨y.centre - 3 + t, y.centre + 5, t + 7⟩,
        ⟨y.centre + 5, y.centre - 3 + t, 20 - t⟩, ⟨y.centre - 3 + t, y.centre - 5, 27 - t⟩]
  | .full =>
    (List.range 10).flatMap fun t =>
      [⟨y.centre - 7, y.centre - 5 + t + t / 5, t⟩, ⟨y.centre - 5 + t + t / 5, y.centre + 7, t + 10⟩,
        ⟨y.centre + 7, y.centre - 5 + t + t / 5, 29 - t⟩, ⟨y.centre - 5 + t + t / 5, y.centre - 7, 39 - t⟩]

/-- The modules a generator sets dark for the bits `b` (R284, R285). -/
def darkPlaces (b : Bits) (ps : List Place) : List (Nat × Nat) :=
  (ps.filter fun p => b.getD p.bit false).map fun p => (p.row, p.col)

/-- The message bits of the data region (R282): the pad zeros, then the codewords. -/
def messageBits (y : Symbol) (c : List Nat) : Bits :=
  List.replicate (y.dataBits % y.width) false ++ c.flatMap (msbBits y.width)

/-- The bull's eye (R286): within distance `fs`, at even distance. -/
def bullsEye (y : Symbol) : List (Nat × Nat) :=
  (List.range (2 * y.ring + 1)).flatMap fun i =>
    ((List.range (2 * y.ring + 1)).filter fun j =>
      decide (y.distance (y.centre - y.ring + i) (y.centre - y.ring + j) < y.ring) &&
        y.distance (y.centre - y.ring + i) (y.centre - y.ring + j) % 2 == 0).map fun j =>
      (y.centre - y.ring + i, y.centre - y.ring + j)

/-- The orientation marks (R287). -/
def orientationMarks (y : Symbol) : List (Nat × Nat) :=
  [(y.centre - y.ring, y.centre - y.ring), (y.centre - y.ring, y.centre - y.ring + 1),
    (y.centre - y.ring + 1, y.centre - y.ring), (y.centre - y.ring, y.centre + y.ring),
    (y.centre - y.ring + 1, y.centre + y.ring), (y.centre + y.ring - 1, y.centre + y.ring)]

/-- The reference lines at offset `j` from the centre (R288). -/
def referenceLines (y : Symbol) (j : Nat) : List (Nat × Nat) :=
  ((List.range y.side).filter fun q => q % 2 == y.centre % 2).flatMap fun q =>
    [(y.centre - j, q), (y.centre + j, q), (q, y.centre - j), (q, y.centre + j)]

/-- The reference grid (R288); Compact symbols have none. -/
def referenceGrid (y : Symbol) : List (Nat × Nat) :=
  match y.form with
  | .compact => []
  | .full => (List.range (y.centre / 16 + 1)).flatMap fun m => referenceLines y (16 * m)

/-- Every dark module of a symbol with codewords `c` and mode message `b`: the five parts of R281. -/
def darkModules (y : Symbol) (c : List Nat) (b : Bits) : List (Nat × Nat) :=
  darkPlaces (messageBits y c) (dataPlaces y) ++ darkPlaces b (modePlaces y) ++ bullsEye y ++ orientationMarks y ++
    referenceGrid y

/-- A matrix row with the modules at the given columns dark and the others light (R281, R77). -/
def rowBits (cols : List Nat) : BitVec 151 :=
  cols.foldl (fun acc q => acc ||| (1#151 <<< (150 - q))) 0#151

/-- The 151 rows with exactly the given modules dark (R281). -/
def paint (ds : List (Nat × Nat)) : List (BitVec 151) :=
  (List.range Config.matDim).map fun r => rowBits ((ds.filter fun p => p.1 == r).map fun p => p.2)

/-- The matrix of a symbol, with the INTERNAL condition of R326 that no module lies outside its `S` by `S` square. -/
def layoutMatrix (y : Symbol) (c : List Nat) (b : Bits) : Effect (List (BitVec 151)) :=
  if (darkModules y c b).all (fun p => decide (p.1 < y.side) && decide (p.2 < y.side)) then
    .done (paint (darkModules y c b))
  else .stop .internalCondition

/-- The body of `LAYOUT` for the word that holds its descriptor (R290). -/
def layoutEffect (v : Word) (s : State) : Effect State :=
  match descriptorOf v with
  | none => .raise .illegalOperand
  | some d =>
    if s.cwW ≠ d.symbol.width ∨ s.cw.length ≠ d.symbol.total then .raise .stateError
    else if s.mm.length ≠ d.form.modeBits then .raise .stateError
    else (layoutMatrix d.symbol s.cw s.mm).andThen fun m => .done (s.setMat m)

/-- `LAYOUT` (R290): the descriptor is in `ARG`. -/
def execLayout (s : State) : Host.Outcome State Fault Refusal := finish s (layoutEffect s.arg s)

end Sys2Proof.Machine
end

