-- ==== Sys2Proof/Machine/ModeTables.lean ====
section
/-! DEFINITION. The ModeEncoder's tables (41_mode_encoder.md R151 to R162): code widths, the five character tables, the Punct
pair codes, latch sequences, shifts and binary runs. Bytes are compared by their numbers, as the rules write them. -/

namespace Sys2Proof.Machine

/-- One emitted token: a value and its width in bits (R150). -/
structure Token where
  value : Nat
  width : Nat
  deriving DecidableEq, Repr

/-- The modes in the fixed order `U, L, M, P, D` (R13, R171). -/
def modeOrder : List Mode := [.upper, .lower, .mixed, .punct, .digit]

/-- `width(X)` (R151). -/
def Mode.width : Mode → Nat
  | .upper => 5
  | .lower => 5
  | .mixed => 5
  | .punct => 5
  | .digit => 4

/-- The Upper table: byte number to code (R152). -/
def upperCode (n : Nat) : Option Nat :=
  if n = 0x20 then some 1
  else if 0x41 ≤ n ∧ n ≤ 0x5A then some (n - 0x3F)
  else none

/-- The Lower table (R153). -/
def lowerCode (n : Nat) : Option Nat :=
  if n = 0x20 then some 1
  else if 0x61 ≤ n ∧ n ≤ 0x7A then some (n - 0x5F)
  else none

/-- The Mixed table (R154). -/
def mixedCode (n : Nat) : Option Nat :=
  if n = 0x20 then some 1
  else if 0x01 ≤ n ∧ n ≤ 0x0D then some (n + 1)
  else if 0x1B ≤ n ∧ n ≤ 0x1F then some (n - 12)
  else if n = 0x40 then some 20
  else if n = 0x5C then some 21
  else if n = 0x5E then some 22
  else if n = 0x5F then some 23
  else if n = 0x60 then some 24
  else if n = 0x7C then some 25
  else if n = 0x7E then some 26
  else if n = 0x7F then some 27
  else none

/-- The Punct table, single characters (R155). -/
def punctCode (n : Nat) : Option Nat :=
  if n = 0x0D then some 1
  else if 0x21 ≤ n ∧ n ≤ 0x2F then some (n - 0x1B)
  else if 0x3A ≤ n ∧ n ≤ 0x3F then some (n - 0x25)
  else if n = 0x5B then some 27
  else if n = 0x5D then some 28
  else if n = 0x7B then some 29
  else if n = 0x7D then some 30
  else none

/-- The Digit table (R156). -/
def digitCode (n : Nat) : Option Nat :=
  if n = 0x20 then some 1
  else if 0x30 ≤ n ∧ n ≤ 0x39 then some (n - 0x2E)
  else if n = 0x2C then some 12
  else if n = 0x2E then some 13
  else none

/-- `code_T(b)`, and nothing when `b` is not in table `T` (R162). -/
def Mode.code (t : Mode) (b : Byte) : Option Nat :=
  match t with
  | .upper => upperCode b.toNat
  | .lower => lowerCode b.toNat
  | .mixed => mixedCode b.toNat
  | .punct => punctCode b.toNat
  | .digit => digitCode b.toNat

/-- A binary byte: no table gives it a single-character code (R162). -/
def isBinary (b : Byte) : Bool := modeOrder.all fun t => (t.code b).isNone

/-- `pair(i)` for the suffix of the input that begins at index `i` (R157). -/
def pairCode : List Byte → Option Nat
  | a :: b :: _ =>
    if a = 0x0D#8 ∧ b = 0x0A#8 then some 2
    else if a = 0x2E#8 ∧ b = 0x20#8 then some 3
    else if a = 0x2C#8 ∧ b = 0x20#8 then some 4
    else if a = 0x3A#8 ∧ b = 0x20#8 then some 5
    else none
  | _ => none

/-- `latch(X, T)` (R158): each code with the width of the mode it is interpreted in. -/
def latchTokens : Mode → Mode → List Token
  | .upper, .upper => []
  | .upper, .lower => [⟨28, 5⟩]
  | .upper, .mixed => [⟨29, 5⟩]
  | .upper, .punct => [⟨29, 5⟩, ⟨30, 5⟩]
  | .upper, .digit => [⟨30, 5⟩]
  | .lower, .upper => [⟨30, 5⟩, ⟨14, 4⟩]
  | .lower, .lower => []
  | .lower, .mixed => [⟨29, 5⟩]
  | .lower, .punct => [⟨29, 5⟩, ⟨30, 5⟩]
  | .lower, .digit => [⟨30, 5⟩]
  | .mixed, .upper => [⟨29, 5⟩]
  | .mixed, .lower => [⟨28, 5⟩]
  | .mixed, .mixed => []
  | .mixed, .punct => [⟨30, 5⟩]
  | .mixed, .digit => [⟨29, 5⟩, ⟨30, 5⟩]
  | .punct, .upper => [⟨31, 5⟩]
  | .punct, .lower => [⟨31, 5⟩, ⟨28, 5⟩]
  | .punct, .mixed => [⟨31, 5⟩, ⟨29, 5⟩]
  | .punct, .punct => []
  | .punct, .digit => [⟨31, 5⟩, ⟨30, 5⟩]
  | .digit, .upper => [⟨14, 4⟩]
  | .digit, .lower => [⟨14, 4⟩, ⟨28, 5⟩]
  | .digit, .mixed => [⟨14, 4⟩, ⟨29, 5⟩]
  | .digit, .punct => [⟨14, 4⟩, ⟨29, 5⟩, ⟨30, 5⟩]
  | .digit, .digit => []

/-- The bits of a token sequence: the sum of its widths. -/
def tokenBits (ts : List Token) : Nat := (ts.map fun t => t.width).sum

/-- `latbits(X, T)` (R158). -/
def latchBits (x t : Mode) : Nat := tokenBits (latchTokens x t)

/-- The P/S code of a mode, with its width; Punct has none (R159). -/
def punctShift : Mode → Option Token
  | .upper => some ⟨0, 5⟩
  | .lower => some ⟨0, 5⟩
  | .mixed => some ⟨0, 5⟩
  | .punct => none
  | .digit => some ⟨0, 4⟩

/-- The U/S code of a mode, with its width; only Lower and Digit have one (R159). -/
def upperShift : Mode → Option Token
  | .upper => none
  | .lower => some ⟨28, 5⟩
  | .mixed => none
  | .punct => none
  | .digit => some ⟨15, 4⟩

/-- The B/S code of a mode; Punct and Digit have none (R160). -/
def binaryShift : Mode → Option Token
  | .upper => some ⟨31, 5⟩
  | .lower => some ⟨31, 5⟩
  | .mixed => some ⟨31, 5⟩
  | .punct => none
  | .digit => none

/-- The length field of a binary run of `k` bytes (R161). -/
def binaryLength (k : Nat) : List Token :=
  if k ≤ 31 then [⟨k, 5⟩] else [⟨0, 5⟩, ⟨k - Config.bsExtBias, 11⟩]

/-- The raw bytes of a binary run (R161). -/
def binaryBytes (bs : List Byte) : List Token := bs.map fun b => ⟨b.toNat, 8⟩

/-- `binrun(i)` for the suffix that begins at index `i` (R164). -/
def binRun (s : List Byte) : Nat := ((s.take Config.binRunMax).takeWhile isBinary).length

end Sys2Proof.Machine
end

