-- ==== Sys2Proof/Machine/ModeEncoder.lean ====
section
/-! DEFINITION. The ModeEncoder's choice rule and the MODE_ENCODE command (41_mode_encoder.md R163 to R173). An encoder state
`(i, X)` is the latched mode with the suffix of the input that begins at index `i`. -/

namespace Sys2Proof.Machine

/-- The six actions (R164), each with the code it emits, or for a binary run its length. -/
inductive Action where
  | pair (c : Nat)
  | direct (c : Nat)
  | shiftPair (c : Nat)
  | shiftP (c : Nat)
  | shiftU (c : Nat)
  | binary (k : Nat)
  deriving DecidableEq, Repr

/-- How many bytes an action consumes, `i' - i` (R164). -/
def Action.span : Action → Nat
  | .pair _ => 2
  | .direct _ => 1
  | .shiftPair _ => 2
  | .shiftP _ => 1
  | .shiftU _ => 1
  | .binary k => k

/-- `bits` of an action in latched mode `x` (R164). -/
def Action.bits (x : Mode) : Action → Nat
  | .pair _ => 5
  | .direct _ => x.width
  | .shiftPair _ => x.width + 5
  | .shiftP _ => x.width + 5
  | .shiftU _ => x.width + 5
  | .binary k => 5 + (if k ≤ 31 then 5 else 16) + 8 * k

/-- The tokens of an action in latched mode `x` at the suffix `s` (R164, R161). -/
def Action.tokens (x : Mode) (s : List Byte) : Action → List Token
  | .pair c => [⟨c, 5⟩]
  | .direct c => [⟨c, x.width⟩]
  | .shiftPair c => (punctShift x).toList ++ [⟨c, 5⟩]
  | .shiftP c => (punctShift x).toList ++ [⟨c, 5⟩]
  | .shiftU c => (upperShift x).toList ++ [⟨c, 5⟩]
  | .binary k => (binaryShift x).toList ++ binaryLength k ++ binaryBytes (s.take k)

/-- The code table `t` gives the first byte of a suffix. -/
def headCode (t : Mode) : List Byte → Option Nat
  | [] => none
  | b :: _ => t.code b

/-- The forced action at `(i, X)`: `PAIR` if it applies, else `DIRECT` if it applies (R165). -/
def forcedAction (x : Mode) (s : List Byte) : Option Action :=
  match x, pairCode s with
  | .punct, some c => some (.pair c)
  | _, _ => (headCode x s).map .direct

/-- `SHIFT_PAIR` at `(i, X)`, if it applies (R164). -/
def shiftPairAction (x : Mode) (s : List Byte) : Option Action :=
  if (punctShift x).isSome then (pairCode s).map .shiftPair else none

/-- `SHIFT_P` at `(i, X)`, if it applies (R164). -/
def shiftPAction (x : Mode) (s : List Byte) : Option Action :=
  if (punctShift x).isSome then (headCode .punct s).map .shiftP else none

/-- `SHIFT_U` at `(i, X)`, if it applies (R164). -/
def shiftUAction (x : Mode) (s : List Byte) : Option Action :=
  if (upperShift x).isSome then (headCode .upper s).map .shiftU else none

/-- `BINARY` at `(i, X)`, if it applies (R164). -/
def binaryAction (x : Mode) (s : List Byte) : Option Action :=
  if (binaryShift x).isSome ∧ 0 < binRun s then some (.binary (binRun s)) else none

/-- The free actions that apply at `(i, X)`, in the order of R165. -/
def freeActions (x : Mode) (s : List Byte) : List Action :=
  (shiftPairAction x s).toList ++ (shiftPAction x s).toList ++ (shiftUAction x s).toList ++ (binaryAction x s).toList

/-- A cost in bits; nothing stands for infinity (R166). -/
abbrev Cost := Option Nat

/-- Add bits to a cost. -/
def Cost.plus (n : Nat) : Cost → Cost
  | none => none
  | some m => some (n + m)

/-- The smaller of two costs. -/
def Cost.min : Cost → Cost → Cost
  | none, c => c
  | some m, none => some m
  | some m, some n => some (Nat.min m n)

/-- The least of a list of costs; infinity for the empty list. -/
def Cost.least (cs : List Cost) : Cost := cs.foldr Cost.min none

/-- `C(i, X)` at one index, for every mode (R166). -/
structure CostRow where
  upper : Cost
  lower : Cost
  mixed : Cost
  punct : Cost
  digit : Cost
  deriving DecidableEq, Repr

/-- `C(i, X)` from the row of index `i`. -/
def CostRow.get (r : CostRow) : Mode → Cost
  | .upper => r.upper
  | .lower => r.lower
  | .mixed => r.mixed
  | .punct => r.punct
  | .digit => r.digit

/-- `C(n, X) = 0` (R166). -/
def CostRow.zero : CostRow := ⟨some 0, some 0, some 0, some 0, some 0⟩

/-- `bits(a) + C(i'(a), X)` (R166), where `rows` are the rows of the indexes `i+1, i+2, ...`. -/
def actionCost (x : Mode) (rows : List CostRow) (a : Action) : Cost :=
  match rows[a.span - 1]? with
  | some r => Cost.plus (a.bits x) (r.get x)
  | none => none

/-- The least cost of one action at `(i, T)` without a latch: `E(i, T)` of R166. -/
def enterCost (t : Mode) (s : List Byte) (rows : List CostRow) : Cost :=
  match forcedAction t s with
  | some a => actionCost t rows a
  | none => Cost.least ((freeActions t s).map (actionCost t rows))

/-- The modes other than `x`, in the fixed order (R169). -/
def otherModes (x : Mode) : List Mode := modeOrder.filter fun t => t != x

/-- `latbits(X, T) + E(i, T)` (R166). -/
def latchCost (x : Mode) (s : List Byte) (rows : List CostRow) (t : Mode) : Cost :=
  Cost.plus (latchBits x t) (enterCost t s rows)

/-- `C(i, X)` from the rows of the later indexes (R166). -/
def stateCost (x : Mode) (s : List Byte) (rows : List CostRow) : Cost :=
  match forcedAction x s with
  | some a => actionCost x rows a
  | none =>
    Cost.min (Cost.least ((freeActions x s).map (actionCost x rows)))
      (Cost.least ((otherModes x).map (latchCost x s rows)))

/-- The cost table of a suffix: the rows of its indexes and of the end of the input, the first index first (R166). -/
def costTable : List Byte → List CostRow
  | [] => [CostRow.zero]
  | b :: bs =>
    ⟨stateCost .upper (b :: bs) (costTable bs), stateCost .lower (b :: bs) (costTable bs),
      stateCost .mixed (b :: bs) (costTable bs), stateCost .punct (b :: bs) (costTable bs),
      stateCost .digit (b :: bs) (costTable bs)⟩ :: costTable bs

/-- `C(0, U)` (R167). -/
def inputCost (s : List Byte) : Cost :=
  match costTable s with
  | [] => none
  | r :: _ => r.upper

/-- The first action at `(i, T)` whose cost is `E(i, T)`, as R169 picks it after a latch. -/
def enterChoice (t : Mode) (s : List Byte) (rows : List CostRow) : Option Action :=
  match forcedAction t s with
  | some a => some a
  | none => (freeActions t s).find? fun a => actionCost t rows a == enterCost t s rows

/-- `step(i, X)` of R169: the action to take, and the mode to latch to before it if any. The first match wins. -/
def chooseStep (x : Mode) (s : List Byte) (rows : List CostRow) : Option (Action × Option Mode) :=
  match forcedAction x s with
  | some a => some (a, none)
  | none =>
    match (freeActions x s).find? fun a => actionCost x rows a == stateCost x s rows with
    | some a => some (a, none)
    | none =>
      match (otherModes x).find? fun t => latchCost x s rows t == stateCost x s rows with
      | some t => (enterChoice t s rows).map fun a => (a, some t)
      | none => none

/-- The mode an optional latch leaves. -/
def modeAfter (x : Mode) : Option Mode → Mode
  | none => x
  | some t => t

/-- The loop of `mode_encode` (R170) from latched mode `x` at the suffix `s`, whose cost table is `rows`; the first argument
bounds the number of actions. Nothing when some index has no step, which R166 rules out. -/
def encodeLoop : Nat → Mode → List Byte → List CostRow → Option (List Token)
  | _, _, [], _ => some []
  | 0, _, _ :: _, _ => none
  | n + 1, x, b :: bs, rows =>
    match chooseStep x (b :: bs) (rows.drop 1) with
    | none => none
    | some (a, l) =>
      match encodeLoop n (modeAfter x l) ((b :: bs).drop a.span) (rows.drop a.span) with
      | none => none
      | some ts => some (latchTokens x (modeAfter x l) ++ a.tokens (modeAfter x l) (b :: bs) ++ ts)

/-- `mode_encode(s)` (R170): from `(0, U)`. Every action consumes a byte, so there are at most as many as bytes. -/
def modeTokens (s : List Byte) : Option (List Token) := encodeLoop s.length .upper s (costTable s)

/-- `raw(s)` of a token sequence (R172). -/
def tokensRaw (ts : List Token) : Bits := ts.flatMap fun t => msbBits t.width t.value

/-- The raw stream of an input, as the body of `MODE_ENCODE` computes and checks it (R173). -/
def encodeBytes (s : List Byte) : Effect Bits :=
  match modeTokens s with
  | none => .stop .internalCondition
  | some ts => if Config.rawMax < (tokensRaw ts).length then .raise .capacity else .done (tokensRaw ts)

/-- The body of `MODE_ENCODE` (R173): the length check, the input, the stream and its length check, then `RAW`. -/
def modeEncodeEffect (s : State) : Effect State :=
  s.input.andThen fun bs => (encodeBytes bs).andThen fun b => .done (s.setRaw b)

/-- `MODE_ENCODE` (R173). -/
def execModeEncode (s : State) : Host.Outcome State Fault Refusal := finish s (modeEncodeEffect s)

end Sys2Proof.Machine
end

