-- ==== Sys2Proof/Machine/Pipeline.lean ====
section
/-! DEFINITION. ENCODE, the whole data flow as one command, and NOP (46_pipeline.md R310, R311). -/

namespace Sys2Proof.Machine

/-- The descriptor of the symbol the result registers name: `form | (L << 1) | (k << 8)` (R310, R270). -/
def selectedDescriptor (s : State) : Descriptor where
  form := if resForm s.res0 = 0 then .compact else .full
  layers := resLayers s.res0
  k := resK s.res1

/-- The parity count of the symbol the result registers name: `N - k` (R257, R310). -/
def selectedParity (s : State) : Nat := resN s.res1 - resK s.res1

/-- The body of `ENCODE` (R310): the five steps on a private copy of the state; the descriptor `ARG'` is internal and `ARG` is
not written. -/
def encodeEffect (s : State) : Effect State :=
  (modeEncodeEffect s).andThen fun s1 =>
    (sizeSelectEffect s1).andThen fun s2 =>
      (rsParityEffect (selectedParity s2) s2).andThen fun s3 =>
        (modeMessageEffect (descriptorWord (selectedDescriptor s3)) s3).andThen fun s4 =>
          layoutEffect (descriptorWord (selectedDescriptor s4)) s4

/-- `ENCODE` (R310). -/
def execEncode (s : State) : Host.Outcome State Fault Refusal := finish s (encodeEffect s)

/-- `NOP` (R311): no buffer and no result register changes. -/
def execNop (s : State) : Host.Outcome State Fault Refusal := finish s (.done s)

end Sys2Proof.Machine
end

