-- ==== Sys2Proof/Machine/Dispatch.lean ====
section
/-! DEFINITION. The meaning of each command, one arm per constructor of Instr: the completion step of that command (10_state.md
R32) from the state before it. -/

namespace Sys2Proof.Machine

def exec (i : Instr) (s : State) : Host.Outcome State Fault Refusal :=
  match i with
  | .nop => Sys2Proof.Machine.execNop s
  | .bbClear => Sys2Proof.Machine.execBbClear s
  | .bbAppendMsb nb => Sys2Proof.Machine.execBbAppendMsb nb s
  | .bbAppendLsb nb => Sys2Proof.Machine.execBbAppendLsb nb s
  | .modeEncode => Sys2Proof.Machine.execModeEncode s
  | .stuffPad w => Sys2Proof.Machine.execStuffPad w s
  | .rsParity r => Sys2Proof.Machine.execRsParity r s
  | .sizeSelect => Sys2Proof.Machine.execSizeSelect s
  | .modeMessage => Sys2Proof.Machine.execModeMessage s
  | .layout => Sys2Proof.Machine.execLayout s
  | .encode => Sys2Proof.Machine.execEncode s

end Sys2Proof.Machine
end

