-- ==== Sys2Proof/Machine/Engine.lean ====
section
/-! DEFINITION. Who moves next and what the move does (00_scope.md R8; 70_reset_and_hazards.md R350, R361, R363): the command
engine's completion step, and one input from outside. -/

namespace Sys2Proof.Machine

/-- The completion step of command word `v` (R32, R101): a word that is no command ends with ILLEGAL_COMMAND, any other with
its command's own effect. DESIGN CHOICE (log entry 18): the command reads its input here too, so the fault of R352 falls here. -/
def completeCommand (v : Word) (s : State) : Host.Outcome State Fault Refusal :=
  match decode v with
  | .error _ => .next (s.raiseError .illegalCommand)
  | .ok i => exec i s

/-- The reset input (R350, R351): every piece of AZC's state takes its reset value, and a command that runs is abandoned. What
the model keeps of the outside (the inputs still to come, the host's record, the count of free draws) stays. -/
def State.platformReset (s : State) : State :=
  { State.reset with inputs := s.inputs, seen := s.seen, draws := s.draws }

/-- The inputs that remain. -/
def State.setInputs (s : State) (is : List Input) : State := { s with inputs := is }

/-- One step of a running command's time has passed (R364). -/
def State.tick (s : State) : State := { s with wait := s.wait - 1 }

/-- One poll of `WAIT` (R108): a read of `STATUS`; the loop goes on until it shows `BUSY = 0` and `DONE = 1`. -/
def pollStatus (rest : List Input) (s : State) : State :=
  if s.busy = false ∧ s.done = true then (s.record 0x00C#16 s.status).setInputs rest else s.record 0x00C#16 s.status

/-- One input of the outside, the next in program order (R82); with none, nothing happens. -/
def inputStep (s : State) : Host.Outcome State Fault Refusal :=
  match s.inputs with
  | [] => .next s
  | .read off bytes :: rest => hostRead off bytes (s.setInputs rest)
  | .write off bytes v :: rest => hostWrite off bytes v (s.setInputs rest)
  | .waitDone :: rest => .next (pollStatus rest s)
  | .reset :: rest => .next (s.setInputs rest).platformReset

/-- One step of the machine. While idle only the outside moves. While a command runs, the outside moves until the command's
time is over, and then the engine's completion step is taken (R363: completion after finitely many steps, interleaved with
host reads). DESIGN CHOICE (log entry 18): `MODE_ENCODE` and `ENCODE` read their input in the completion step (R32), where R362
says at the start of the command, so what the outside does before it (a host read, a reset, an access that faults) comes before
the fault of R352, and a reset leaves none. -/
def machineStep (s : State) : Host.Outcome State Fault Refusal :=
  match s.eng with
  | .idle => inputStep s
  | .busy v => if s.wait = 0 then completeCommand v s else inputStep s.tick

/-- The state in which the completion step of command word `v` is the next step: what a `CMD` write of `v` sets (R34), with no
time left to pass. -/
def State.placeCommand (s : State) (v : Word) : State := s.start v 0

end Sys2Proof.Machine
end

