-- ==== Sys2Proof/Machine/Step.lean ====
section
/-! DEFINITION. The step of the machine, and how an instruction word is placed for the very next step. -/

namespace Sys2Proof.Machine

/-- One step of AZC and the outside (Machine/Engine.lean, machineStep). -/
def step (s : State) : Host.Outcome State Fault Refusal := machineStep s

/-- `s` with the command word made of the `nbits` low bits of `w` as the running command, its completion step being the next
step. AZC fetches no instruction (R31, R85): the command word is the value a host writes to `CMD`. -/
def State.withFetchWord (s : State) (nbits w : Nat) : State := s.placeCommand (BitVec.ofNat 32 (w % 2 ^ nbits))

end Sys2Proof.Machine
end

