-- ==== Sys2Proof/Safety.lean ====
section
/-! DEFINITION. The terms claims are stated in: the next state of an outcome, the invariant of the machine, what one action at an
encoder state may be, the streams the ModeEncoder could have produced and the one it
produces, the source bits a sequence of stuffed codewords holds, and
when a run of a host program is over. -/

namespace Sys2Proof.Machine

/-- The next state, if the outcome is one. -/
def nextOf (o : Host.Outcome State Fault Refusal) : Option State :=
  match o with
  | .next s => some s
  | .fault _ => none
  | .refused _ => none

/-- The result registers hold their reset value, or the words of a symbol that exists with a data codeword count that fits it
(R40, R254). -/
def resLegal (a b : Word) : Prop :=
  (a = 0#32 ∧ b = 0#32) ∨
    ∃ (y : Symbol) (k : Nat), y.valid = true ∧ 1 ≤ k ∧ k + minParity y.total ≤ y.total ∧ a = res0Word y ∧ b = res1Word y k

/-- The invariant of the machine, one clause per promise of 10_state.md. -/
structure State.Inv (s : State) : Prop where
  /-- `|RAW| <= RAW_MAX` (R44). -/
  raw_le : s.raw.length ≤ 19968
  /-- `CW_COUNT <= CW_MAX` (R45). -/
  cw_le : s.cw.length ≤ 8192
  /-- `CW_W` is 0 or one of 4, 6, 8, 10, 12 (R39). -/
  cw_width : s.cwW = 0 ∨ s.cwW = 4 ∨ s.cwW = 6 ∨ s.cwW = 8 ∨ s.cwW = 10 ∨ s.cwW = 12
  /-- A buffer that no command has filled is empty (R39, R45). -/
  cw_unfilled : s.cwW = 0 → s.cw = []
  /-- `0 <= CW[i] < 2^CW_W` (R45). -/
  cw_range : ∀ c ∈ s.cw, c < 2 ^ s.cwW
  /-- `MM_LEN` is 0, 28 or 40 (R46). -/
  mm_len : s.mm.length = 0 ∨ s.mm.length = 28 ∨ s.mm.length = 40
  /-- The input bytes stand in canonical form, at indexes below `IN_MAX` (R43). -/
  mem_wf : s.mem.wf = true
  /-- The matrix has 151 rows (R47). -/
  mat_rows : s.mat.length = 151
  /-- `RES0` and `RES1` hold legal values (R40). -/
  res_legal : resLegal s.res0 s.res1
  /-- While `ENG = Busy(v)`, `CMD` holds `v`, `DONE = 0` and `ERR = 0` (R34, R361). -/
  busy_cmd : ∀ v, s.eng = .busy v → s.cmd = v ∧ s.done = false ∧ s.err = .ok
  /-- An error code is shown only after a completion (R37). -/
  err_done : s.done = false → s.err = .ok
  /-- `INTERNAL` is never reported (R326). -/
  err_external : s.err ≠ .internal

/-- The actions that may be taken at `(i, X)` without a latch: the forced one alone if there is one, else the free ones (R165). -/
def applicable (x : Mode) (s : List Byte) : List Action :=
  match forcedAction x s with
  | some a => [a]
  | none => freeActions x s

/-- `n` is the bit count of some stream for the suffix `s` from latched mode `x` that the actions of R164 can produce under the
forced-action rule, with at most one latch before each action (R167). -/
inductive StreamBits : Mode → List Byte → Nat → Prop where
  | stop (x : Mode) : StreamBits x [] 0
  | stay {x : Mode} {s : List Byte} {a : Action} {n : Nat} :
    s ≠ [] → a ∈ applicable x s → StreamBits x (s.drop a.span) n → StreamBits x s (a.bits x + n)
  | latch {x t : Mode} {s : List Byte} {a : Action} {n : Nat} :
    s ≠ [] → forcedAction x s = none → t ≠ x → a ∈ applicable t s → StreamBits t (s.drop a.span) n →
      StreamBits x s (latchBits x t + a.bits t + n)

/-- `C(i, X) = n` at the suffix `s` (R166, R167): `n` is the bit count of a stream and none is shorter. -/
def CostIs (x : Mode) (s : List Byte) (n : Nat) : Prop := StreamBits x s n ∧ ∀ m, StreamBits x s m → n ≤ m

/-- `bits(a) + C(i'(a), X) = n` (R166). -/
def ThroughIs (x : Mode) (s : List Byte) (a : Action) (n : Nat) : Prop :=
  ∃ m, CostIs x (s.drop a.span) m ∧ n = a.bits x + m

/-- `E(i, T) = n` (R166): the least of those costs over the actions that may be taken in `T`; infinity is that there is none. -/
def EnterIs (t : Mode) (s : List Byte) (n : Nat) : Prop :=
  (∃ a ∈ applicable t s, ThroughIs t s a n) ∧ ∀ a ∈ applicable t s, ∀ m, ThroughIs t s a m → n ≤ m

/-- `a` is the first element of `l` for which `p` holds: the first match of R169. -/
def FirstIn {α : Type} (l : List α) (p : α → Prop) (a : α) : Prop :=
  ∃ before after, l = before ++ a :: after ∧ p a ∧ ∀ b ∈ before, ¬p b

/-- `ts` are the tokens the encoder emits from latched mode `x` at the suffix `s` (R169, R170): at each state the first action that
attains the cost, without a latch if there is one, else the first latch that attains it and the first action that attains the
cost of entering its mode. It says what `modeTokens` computes, without its table or its loop. -/
inductive Emits : Mode → List Byte → List Token → Prop where
  | stop (x : Mode) : Emits x [] []
  | stay {x : Mode} {s : List Byte} {a : Action} {n : Nat} {ts : List Token} :
    s ≠ [] → CostIs x s n → FirstIn (applicable x s) (fun a => ThroughIs x s a n) a →
      Emits x (s.drop a.span) ts → Emits x s (a.tokens x s ++ ts)
  | latch {x t : Mode} {s : List Byte} {a : Action} {n m : Nat} {ts : List Token} :
    s ≠ [] → forcedAction x s = none → CostIs x s n → (∀ a ∈ applicable x s, ¬ThroughIs x s a n) →
      FirstIn ([Mode.upper, .lower, .mixed, .punct, .digit].filter fun t => t ≠ x)
        (fun t => ∃ m, EnterIs t s m ∧ n = latchBits x t + m) t →
      EnterIs t s m → FirstIn (applicable t s) (fun a => ThroughIs t s a m) a →
      Emits t (s.drop a.span) ts → Emits x s (latchTokens x t ++ a.tokens t s ++ ts)

/-- The source bits of one stuffed codeword (R202): without its last bit when the others are all equal. -/
def sourceBits (w : Nat) (word : Bits) : Bits :=
  if degenerate (word.take (w - 1)) then word.take (w - 1) else word

/-- How far a run of a host program has come towards its end (R366). -/
inductive RunStatus where
  /-- The host has written no command. -/
  | noCommand
  /-- The last `CMD` write is not yet followed by a `STATUS` read that shows `BUSY = 0` and `DONE = 1`. -/
  | waiting
  /-- It is, and `u` is the state at that read. -/
  | waitedFor (u : State)
  deriving DecidableEq, Repr

/-- The step from `t` to `u` was a host read of `STATUS` that showed `BUSY = 0` and `DONE = 1`. -/
def readsDone (t u : State) : Bool :=
  match u.seen with
  | [] => false
  | r :: older => older == t.seen && r.off == 0x00C#16 && r.value.extractLsb' 0 2 == 2#2

/-- The status of a run after a step from `t` to `u`: a `CMD` write, which alone makes an idle engine busy, is one to be waited
for, and the first `STATUS` read that shows its completion is that read of R366. DESIGN CHOICE (log entry 17): of several such
reads the first is the one the rule means, and before any `CMD` write no read is one. -/
def RunStatus.after (w : RunStatus) (t u : State) : RunStatus :=
  if t.eng = .idle ∧ u.eng ≠ .idle then .waiting
  else
    match w with
    | .noCommand => .noCommand
    | .waiting => if readsDone t u then .waitedFor u else .waiting
    | .waitedFor x => .waitedFor x

/-- The status of a run that begins in `s`: a command that runs in `s` is one to be waited for. -/
def RunStatus.first (s : State) : RunStatus := if s.busy then .waiting else .noCommand

/-- `Ran s w t`: steps that each answer a next state lead from `s` to `t`, and `w` is the status of the run there. -/
inductive Ran (s : State) : RunStatus → State → Prop where
  | start : Ran s (RunStatus.first s) s
  | step {w : RunStatus} {t u : State} : Ran s w t → Sys2Proof.Machine.step t = .next u → Ran s (w.after t u) u

/-- `u` is the final state of a run from `s` (R366): the run goes on without a fault until the host has made its last access, and
`u` is the state at the `STATUS` read that showed the completion of the last command. What comes after that read (host writes to
`ARG`, `IN_LEN` or the input buffer, reads, a reset) does not change it. A run with a fault has no final state. DESIGN CHOICE
(log entry 17): a host program with no `CMD` write has none either, since the rule speaks only of the read after the last one. -/
def FinalState (s u : State) : Prop := ∃ t, Ran s (.waitedFor u) t ∧ t.inputs = []

end Sys2Proof.Machine
end

