-- ==== Sys2Proof/Certificates/Slice0/Obligations.lean ====
section
/-! DEFINITION. What is claimed of the model, one definition per claim. Each docstring names the rule of spec/ the claim
formalises; where a claim speaks of something that is the model's own choice, it says so and names the log entry. -/

open Sys2Proof Sys2Proof.Machine

/-! ## Command words -/

/-- Words written out from the columns of 30_encoding.md R103 and the examples of R107 decode to the commands they stand for,
and words R105 calls illegal do not. -/
def Obligations.KnownWordsDecode : Prop :=
  decode 0x00000000#32 = .ok .nop ∧ decode 0x00000001#32 = .ok .bbClear ∧
  decode 0x00000502#32 = .ok (.bbAppendMsb 5) ∧ decode 0x00002002#32 = .ok (.bbAppendMsb 32) ∧
  decode 0x00000503#32 = .ok (.bbAppendLsb 5) ∧ decode 0x00000004#32 = .ok .modeEncode ∧
  decode 0x00000045#32 = .ok (.stuffPad 4) ∧ decode 0x000000C5#32 = .ok (.stuffPad 12) ∧
  decode 0x00090006#32 = .ok (.rsParity 9) ∧ decode 0x0FFF0006#32 = .ok (.rsParity 4095) ∧
  decode 0x00000007#32 = .ok .sizeSelect ∧ decode 0x00000008#32 = .ok .modeMessage ∧
  decode 0x00000009#32 = .ok .layout ∧ decode 0x0000000A#32 = .ok .encode ∧
  decode 0x0000000B#32 = .error .reservedOpcode ∧ decode 0x00004002#32 = .error .reservedBits ∧
  decode 0x00000010#32 = .error .unusedField

/-- Decode and encode agree: the word of a well-formed command decodes to that command, with its operand at every value the
field admits (R100, R101, R107). -/
def Obligations.EncodeThenDecode : Prop :=
  ∀ i : Instr, WellFormed i → decode (encode i) = .ok i

/-- R103: a word selects a mnemonic exactly when it matches that mnemonic's row, no two rows match one word, a word no row
matches raises ILLEGAL_COMMAND, and a word that decodes is the word of its command (the pattern column). -/
def Obligations.CommandWordMatchesItsRow : Prop :=
  (∀ (v : Word) (i : Instr),
      (∃ j, decode v = .ok j ∧ j.matchBits = i.matchBits) ↔ v &&& i.maskBits = i.matchBits) ∧
  (∀ (v : Word) (i j : Instr), v &&& i.maskBits = i.matchBits → v &&& j.maskBits = j.matchBits →
      i.matchBits = j.matchBits) ∧
  (∀ (v : Word) (s : State), (∀ i : Instr, v &&& i.maskBits ≠ i.matchBits) →
      completeCommand v s = .next { s with eng := .idle, done := true, err := .illegalCommand }) ∧
  (∀ (v : Word) (i : Instr), decode v = .ok i → WellFormed i ∧ encode i = v)

/-- R101: every 32-bit word is either illegal, by the tests of the rule on its fields, and then ends with ILLEGAL_COMMAND, or is
exactly the command its opcode names with the operands its fields hold. An operand that fits its field and is out of the
command's range (the rule's W of 5 and NB of 40) decodes, and the command raises ILLEGAL_OPERAND. -/
def Obligations.DecodeIsTotal : Prop :=
  (∀ (v : Word) (n op w nb r : Nat), n = v.toNat → op = n % 16 → w = n / 16 % 16 → nb = n / 256 % 64 →
    r = n / 65536 % 4096 →
    if 11 ≤ op ∨ n / 16384 % 4 ≠ 0 ∨ n / 268435456 ≠ 0 ∨ (op ≠ 5 ∧ w ≠ 0) ∨ (op ≠ 2 ∧ op ≠ 3 ∧ nb ≠ 0) ∨
        (op ≠ 6 ∧ r ≠ 0) then
      (∃ e, decode v = .error e) ∧
        ∀ s : State, completeCommand v s = .next { s with eng := .idle, done := true, err := .illegalCommand }
    else ∃ i, opcodeInstr op w nb r = some i ∧ decode v = .ok i ∧ ∀ s : State, completeCommand v s = exec i s) ∧
  ∀ s : State,
    completeCommand 0x00000055#32 s = .next { s with eng := .idle, done := true, err := .illegalOperand } ∧
    completeCommand 0x00002802#32 s = .next { s with eng := .idle, done := true, err := .illegalOperand }

/-! ## The step -/

/-- A step runs the decoded command: when the engine is busy with a word whose time is over (`wait` is the model's own field,
log entries 2 and 3) and the word decodes to a well-formed command, the step is that command's meaning, and nothing else (R32). -/
def Obligations.StepRunsDecodedCommand : Prop :=
  ∀ (s : State) (v : Word) (i : Instr), s.eng = .busy v → s.wait = 0 → decode v = .ok i → WellFormed i →
    step s = exec i s

/-- A step on a word that is no command ends the command with ILLEGAL_COMMAND and changes nothing but STATUS and ENG (R101,
R323). That the word is found illegal in the completion step is deduced from R32 (log entry 16), and `wait`, whose end makes that
step due, is the model's own (log entry 3). -/
def Obligations.UndecodableWordEndsInIllegalCommand : Prop :=
  ∀ (s : State) (v : Word) (e : DecodeReject), s.eng = .busy v → s.wait = 0 → decode v = .error e →
    step s = .next { s with eng := .idle, done := true, err := .illegalCommand }

/-- While no completion is due the outside moves: one input while idle, and while a command runs one input and one step of the
command's time. With no input, an idle machine waits (R334). `inputs` and `wait` are the model's own (log entries 2 and 3), and so is
that a running `MODE_ENCODE` or `ENCODE` has not yet met an unwritten input byte (log entry 18). -/
def Obligations.OutsideMovesWhileNoCompletionIsDue : Prop :=
  (∀ s : State, s.eng = .idle → step s = inputStep s) ∧
  (∀ (s : State) (v : Word), s.eng = .busy v → s.wait ≠ 0 → step s = inputStep { s with wait := s.wait - 1 }) ∧
  (∀ s : State, s.inputs = [] → inputStep s = .next s) ∧
  (∀ (s : State) (off : Offset) (n : Nat) (rest : List Input), s.inputs = .read off n :: rest →
      inputStep s = hostRead off n { s with inputs := rest }) ∧
  (∀ (s : State) (off : Offset) (n : Nat) (v : Word) (rest : List Input), s.inputs = .write off n v :: rest →
      inputStep s = hostWrite off n v { s with inputs := rest }) ∧
  (∀ (s : State) (rest : List Input), s.inputs = .waitDone :: rest →
      inputStep s = .next { s with
        seen := ⟨0x00C#16, s.status⟩ :: s.seen
        inputs := if s.eng = .idle ∧ s.done = true then rest else .waitDone :: rest })

/-! ## BitBuffer -/

/-- R311: `NOP` is word 0, changes no buffer and no result register, and leaves `STATUS = 0x00000002`; any other word with its
opcode is illegal. -/
def Obligations.NopOnlyCompletes : Prop :=
  decode 0x00000000#32 = .ok .nop ∧
  (∀ s : State, exec .nop s = .next { s with eng := .idle, done := true, err := .ok } ∧
    State.status { s with eng := .idle, done := true, err := .ok } = 0x00000002#32) ∧
  ∀ (s : State) (v : Word), v.toNat % 16 = 0 → v ≠ 0#32 →
    completeCommand v s = .next { s with eng := .idle, done := true, err := .illegalCommand }

/-- R133: `BB_CLEAR` is word 1 and leaves `RAW = []` and `RAW_LEN = 0`, with success, and touches nothing else; any other word
with its opcode is illegal. -/
def Obligations.BbClearEmptiesRaw : Prop :=
  decode 0x00000001#32 = .ok .bbClear ∧
  (∀ s : State, exec .bbClear s = .next { s with raw := [], eng := .idle, done := true, err := .ok } ∧
    State.rawLen { s with raw := [], eng := .idle, done := true, err := .ok } = 0#32) ∧
  ∀ (s : State) (v : Word), v.toNat % 16 = 1 → v ≠ 1#32 →
    completeCommand v s = .next { s with eng := .idle, done := true, err := .illegalCommand }

/-- `BB_APPEND_MSB nb` appends bit `nb-1-j` of `ARG` at index `j`, for every `nb` from 0 to 32 that still fits, and writes
nothing else (R131, R134). -/
def Obligations.BbAppendMsbAppends : Prop :=
  ∀ (s : State) (nb : Nat), nb ≤ 32 → s.raw.length + nb ≤ 19968 →
    ∃ b : Bits, b.length = nb ∧ (∀ j, j < nb → b[j]? = some (s.arg.getLsbD (nb - 1 - j))) ∧
      exec (.bbAppendMsb nb) s = .next { s with raw := s.raw ++ b, eng := .idle, done := true, err := .ok }

/-- `BB_APPEND_LSB nb` appends bit `j` of `ARG` at index `j`, for every `nb` from 0 to 32 that still fits, and writes nothing
else (R131, R135). -/
def Obligations.BbAppendLsbAppends : Prop :=
  ∀ (s : State) (nb : Nat), nb ≤ 32 → s.raw.length + nb ≤ 19968 →
    ∃ b : Bits, b.length = nb ∧ (∀ j, j < nb → b[j]? = some (s.arg.getLsbD j)) ∧
      exec (.bbAppendLsb nb) s = .next { s with raw := s.raw ++ b, eng := .idle, done := true, err := .ok }

/-- R132: the operand checks of both append commands, in their order, and the error effect each has. -/
def Obligations.AppendChecksInOrder : Prop :=
  ∀ (s : State) (nb : Nat) (i : Instr), i = .bbAppendMsb nb ∨ i = .bbAppendLsb nb →
    if 32 < nb then exec i s = .next { s with eng := .idle, done := true, err := .illegalOperand }
    else if 19968 < s.raw.length + nb then
      exec i s = .next { s with eng := .idle, done := true, err := .overflow }
    else ∃ t, exec i s = .next t ∧ t.err = .ok

/-! ## ModeEncoder -/

/-- `MODE_ENCODE` on a written input whose least cost fits `RAW_MAX` completes: the encoder has a token sequence, its raw stream
has exactly `C(0, U)` bits, and that stream replaces `RAW`; nothing else is written (R170, R172, R173). The
input is the bytes at the indexes below `LEN`, in their order. -/
def Obligations.ModeEncodeWritesTheStream : Prop :=
  (∀ (m : Memory) (n : Nat) (bs : List Byte), m.readBytes 0 n = some bs ↔
    bs.length = n ∧ ∀ i, i < n → m.read i = bs[i]?) ∧
  ∀ (s : State) (bs : List Byte) (c : Nat), s.inLen.toNat ≤ 8192 →
    s.mem.readBytes 0 s.inLen.toNat = some bs → inputCost bs = some c → c ≤ 19968 →
    ∃ ts, modeTokens bs = some ts ∧ (tokensRaw ts).length = c ∧
      exec .modeEncode s = .next { s with raw := tokensRaw ts, eng := .idle, done := true, err := .ok }

/-- `MODE_ENCODE` reports CAPACITY, and changes nothing but STATUS, when `LEN` is above `IN_MAX`, whether or not the bytes were
written, and when the stream of a written input is longer than `RAW_MAX` (R173, R323). -/
def Obligations.ModeEncodeReportsCapacity : Prop :=
  (∀ s : State, 8192 < s.inLen.toNat →
      exec .modeEncode s = .next { s with eng := .idle, done := true, err := .capacity }) ∧
  (∀ (s : State) (bs : List Byte) (c : Nat), s.inLen.toNat ≤ 8192 →
      s.mem.readBytes 0 s.inLen.toNat = some bs → inputCost bs = some c → 19968 < c →
      exec .modeEncode s = .next { s with eng := .idle, done := true, err := .capacity })

/-- R352: `MODE_ENCODE` and `ENCODE` fault when a byte `IN[a]`, `a < LEN`, that they read has its written flag clear (they read
none when `LEN` is above `IN_MAX`, R173), and a host that has written every byte below `LEN` never meets this. -/
def Obligations.UnwrittenInputByteFaults : Prop :=
  ∀ (s : State) (i : Instr), i = .modeEncode ∨ i = .encode →
    (s.inLen.toNat ≤ 8192 → (∃ a, a < s.inLen.toNat ∧ s.mem.read a = none) →
        exec i s = .fault .commandReadsUnwrittenInput) ∧
    ((∀ a, a < s.inLen.toNat → s.mem.read a ≠ none) → exec i s ≠ .fault .commandReadsUnwrittenInput)

/-- The code tables of R152 to R156, each as its list of (code, byte), the pair codes of R157, and the byte classes of R162: a
byte is binary exactly when no table gives it a single-character code; the binary bytes are exactly 0x00, 0x0E to 0x1A and 0x80
to 0xFF, 142 values; and the bytes in more than one table are space, comma, full stop and CR, in the tables the rule lists. -/
def Obligations.BinaryBytesAreTheUntabled : Prop :=
  (∀ (b : Byte) (c : Nat),
    (Mode.upper.code b = some c ↔ (c, b.toNat) ∈ (1, 0x20) :: (List.range 26).map fun i => (2 + i, 0x41 + i)) ∧
    (Mode.lower.code b = some c ↔ (c, b.toNat) ∈ (1, 0x20) :: (List.range 26).map fun i => (2 + i, 0x61 + i)) ∧
    (Mode.mixed.code b = some c ↔ (c, b.toNat) ∈
      [(1, 0x20), (2, 0x01), (3, 0x02), (4, 0x03), (5, 0x04), (6, 0x05), (7, 0x06), (8, 0x07), (9, 0x08), (10, 0x09),
        (11, 0x0A), (12, 0x0B), (13, 0x0C), (14, 0x0D)] ++
      [(15, 0x1B), (16, 0x1C), (17, 0x1D), (18, 0x1E), (19, 0x1F), (20, 0x40), (21, 0x5C), (22, 0x5E), (23, 0x5F),
        (24, 0x60), (25, 0x7C), (26, 0x7E), (27, 0x7F)]) ∧
    (Mode.punct.code b = some c ↔ (c, b.toNat) ∈
      [(1, 0x0D), (6, 0x21), (7, 0x22), (8, 0x23), (9, 0x24), (10, 0x25), (11, 0x26), (12, 0x27), (13, 0x28), (14, 0x29),
        (15, 0x2A), (16, 0x2B), (17, 0x2C), (18, 0x2D), (19, 0x2E), (20, 0x2F)] ++
      [(21, 0x3A), (22, 0x3B), (23, 0x3C), (24, 0x3D), (25, 0x3E), (26, 0x3F), (27, 0x5B), (28, 0x5D), (29, 0x7B),
        (30, 0x7D)]) ∧
    (Mode.digit.code b = some c ↔ (c, b.toNat) ∈
      [(1, 0x20), (12, 0x2C), (13, 0x2E)] ++ (List.range 10).map fun i => (2 + i, 0x30 + i))) ∧
  (∀ (a b : Byte) (s : List Byte) (c : Nat), pairCode (a :: b :: s) = some c ↔
    (c, a.toNat, b.toNat) ∈ [(2, 0x0D, 0x0A), (3, 0x2E, 0x20), (4, 0x2C, 0x20), (5, 0x3A, 0x20)]) ∧
  (pairCode [] = none ∧ ∀ a : Byte, pairCode [a] = none) ∧
  (∀ b : Byte, (isBinary b = true ↔ ∀ t : Mode, t.code b = none) ∧
    (isBinary b = true ↔ b.toNat = 0 ∨ (0x0E ≤ b.toNat ∧ b.toNat ≤ 0x1A) ∨ 0x80 ≤ b.toNat)) ∧
  ((List.range 256).filter fun n => isBinary (BitVec.ofNat 8 n)).length = 142 ∧
  (∀ t : Mode, ((t.code 0x20#8).isSome = true ↔ t ≠ .punct) ∧
    ((t.code 0x2C#8).isSome = true ↔ t = .punct ∨ t = .digit) ∧
    ((t.code 0x2E#8).isSome = true ↔ t = .punct ∨ t = .digit) ∧
    ((t.code 0x0D#8).isSome = true ↔ t = .mixed ∨ t = .punct)) ∧
  ∀ (b : Byte) (t u : Mode), t ≠ u → (t.code b).isSome = true → (u.code b).isSome = true →
    b = 0x20#8 ∨ b = 0x2C#8 ∨ b = 0x2E#8 ∨ b = 0x0D#8

/-- Every emitted token's value is below 2 to its width, so no bit is lost in the raw stream, which is the tokens' values, each most
significant bit first in its width (R172). The tokens themselves: the widths of R151, the latch sequences of R158 as its table of
(code, width), which shifts exist and their codes (R159, R160), and the format of a binary run (R161). And the actions of R164, for
every latched mode and every suffix of an input: which one is forced and with which code, else which free ones apply, in the order
of R165 and with the codes of the tables; how many bytes each consumes; that its bits are the sum of its token widths; and that a
binary run is the longest one of at most 2078 bytes. -/
def Obligations.TokensFitTheirWidths : Prop :=
  (∀ (bs : List Byte) (ts : List Token), modeTokens bs = some ts → ∀ t ∈ ts, t.value < 2 ^ t.width) ∧
  (∀ x : Mode, x.width = if x = .digit then 4 else 5) ∧
  ([Mode.upper, .lower, .mixed, .punct, .digit].map fun x =>
      [Mode.upper, .lower, .mixed, .punct, .digit].map fun t => (latchTokens x t).map fun k => (k.value, k.width)) =
    [[[], [(28, 5)], [(29, 5)], [(29, 5), (30, 5)], [(30, 5)]],
      [[(30, 5), (14, 4)], [], [(29, 5)], [(29, 5), (30, 5)], [(30, 5)]],
      [[(29, 5)], [(28, 5)], [], [(30, 5)], [(29, 5), (30, 5)]],
      [[(31, 5)], [(31, 5), (28, 5)], [(31, 5), (29, 5)], [], [(31, 5), (30, 5)]],
      [[(14, 4)], [(14, 4), (28, 5)], [(14, 4), (29, 5)], [(14, 4), (29, 5), (30, 5)], []]] ∧
  (∀ x : Mode, ((punctShift x).isSome = true ↔ x ≠ .punct) ∧ ((upperShift x).isSome = true ↔ x = .lower ∨ x = .digit) ∧
    ((binaryShift x).isSome = true ↔ x = .upper ∨ x = .lower ∨ x = .mixed)) ∧
  (∀ (x : Mode) (s : List Byte) (c : Nat),
    (Action.pair c).tokens x s = [⟨c, 5⟩] ∧ (Action.direct c).tokens x s = [⟨c, if x = .digit then 4 else 5⟩] ∧
    (x ≠ .punct → (Action.shiftPair c).tokens x s = [⟨0, if x = .digit then 4 else 5⟩, ⟨c, 5⟩] ∧
      (Action.shiftP c).tokens x s = [⟨0, if x = .digit then 4 else 5⟩, ⟨c, 5⟩])) ∧
  (∀ (s : List Byte) (c : Nat), (Action.shiftU c).tokens .lower s = [⟨28, 5⟩, ⟨c, 5⟩] ∧
    (Action.shiftU c).tokens .digit s = [⟨15, 4⟩, ⟨c, 5⟩]) ∧
  (∀ (x : Mode) (s : List Byte) (k : Nat), x = .upper ∨ x = .lower ∨ x = .mixed → 1 ≤ k → k ≤ 2078 →
    (Action.binary k).tokens x s =
      ⟨31, 5⟩ :: ((if k ≤ 31 then [⟨k, 5⟩] else [⟨0, 5⟩, ⟨k - 31, 11⟩]) ++ (s.take k).map fun b => ⟨b.toNat, 8⟩)) ∧
  (tokensRaw [] = [] ∧ ∀ (t : Token) (ts : List Token), ∃ b : Bits, b.length = t.width ∧
    (∀ j, j < t.width → b[j]? = some (t.value.testBit (t.width - 1 - j))) ∧ tokensRaw (t :: ts) = b ++ tokensRaw ts) ∧
  (∀ (x : Mode) (b : Byte) (s : List Byte),
    (∀ c, x = .punct → pairCode (b :: s) = some c → forcedAction x (b :: s) = some (.pair c)) ∧
    ((x ≠ .punct ∨ pairCode (b :: s) = none) →
      (∀ c, x.code b = some c → forcedAction x (b :: s) = some (.direct c)) ∧
      (x.code b = none → forcedAction x (b :: s) = none)) ∧
    freeActions x (b :: s) =
      (if x = .punct then [] else (pairCode (b :: s)).toList.map .shiftPair) ++
      (if x = .punct then [] else (Mode.punct.code b).toList.map .shiftP) ++
      (if x = .lower ∨ x = .digit then (Mode.upper.code b).toList.map .shiftU else []) ++
      (if (x = .upper ∨ x = .lower ∨ x = .mixed) ∧ isBinary b = true then [.binary (binRun (b :: s))] else []) ∧
    ∀ a ∈ applicable x (b :: s), a.bits x = ((a.tokens x (b :: s)).map fun k => k.width).sum) ∧
  (∀ c : Nat, (Action.pair c).span = 2 ∧ (Action.direct c).span = 1 ∧ (Action.shiftPair c).span = 2 ∧
    (Action.shiftP c).span = 1 ∧ (Action.shiftU c).span = 1 ∧ (Action.binary c).span = c) ∧
  ∀ s : List Byte, binRun s ≤ 2078 ∧ binRun s ≤ s.length ∧ (∀ b ∈ s.take (binRun s), isBinary b = true) ∧
    ∀ k, k ≤ 2078 → k ≤ s.length → (∀ b ∈ s.take k, isBinary b = true) → k ≤ binRun s

/-- R167: for every input the encoder has a stream of exactly `C(0, U)` bits; it is one of the streams the actions can produce,
and none of those is shorter. R169, R170: of the shortest streams it is the one the choice rule picks, state by state with the first
match winning (Safety.lean, Emits), and the rule picks no other. -/
def Obligations.StreamIsShortest : Prop :=
  ∀ bs : List Byte, ∃ (c : Nat) (ts : List Token), inputCost bs = some c ∧ modeTokens bs = some ts ∧
    (tokensRaw ts).length = c ∧ StreamBits .upper bs c ∧ (∀ n, StreamBits .upper bs n → c ≤ n) ∧
    Emits .upper bs ts ∧ ∀ us, Emits .upper bs us → us = ts

/-! ## StufferPadder -/

/-- `STUFF_PAD w` replaces `CW` by the stuffed codewords of `RAW`, read most significant bit first, and sets `CW_W`, for each of
the five widths; any other width is ILLEGAL_OPERAND and changes nothing but STATUS (R202 to R206). -/
def Obligations.StuffPadFillsCodewords : Prop :=
  (∀ (s : State) (w : Nat),
    if w = 4 ∨ w = 6 ∨ w = 8 ∨ w = 10 ∨ w = 12 then
      exec (.stuffPad w) s = .next { s with
        cw := (stuffWords w s.raw).map bitsVal, cwW := w, eng := .idle, done := true, err := .ok }
    else exec (.stuffPad w) s = .next { s with eng := .idle, done := true, err := .illegalOperand }) ∧
  (∀ (w : Nat) (b : Bits), stuffPad w b = (stuffWords w b).map bitsVal) ∧
  ∀ x : Bits, bitsVal x < 2 ^ x.length ∧ ∀ j, j < x.length → x[j]? = some ((bitsVal x).testBit (x.length - 1 - j))

/-- R205: the output is codewords of `w` bits, at least one; none is degenerate; the source bits stand in it exactly once, in
order and unchanged, followed by at most `w-1` pad ones, and the last codeword holds one of them unless
there is none, which gives the one codeword of ones and a 0; the count is bounded; and the output has at least as many bits as the
input. -/
def Obligations.StuffingKeepsEverySourceBit : Prop :=
  ∀ (w : Nat) (b : Bits), w = 4 ∨ w = 6 ∨ w = 8 ∨ w = 10 ∨ w = 12 →
    (∀ x ∈ stuffWords w b, x.length = w) ∧ stuffWords w b ≠ [] ∧
    (∀ x ∈ stuffWords w b, true ∈ x ∧ false ∈ x) ∧
    (∃ n, n < w ∧ (stuffWords w b).flatMap (sourceBits w) = b ++ List.replicate n true) ∧
    (b ≠ [] → ((stuffWords w b).dropLast.flatMap (sourceBits w)).length < b.length) ∧
    (b = [] → stuffWords w b = [List.replicate (w - 1) true ++ [false]]) ∧
    (stuffWords w b).length ≤ b.length / (w - 1) + 1 ∧
    (b.length ≤ 19968 → (stuffWords w b).length ≤ 6657) ∧
    b.length ≤ w * (stuffWords w b).length

/-! ## Reed-Solomon -/

/-- `RS_PARITY r` on a filled `CW` within the field's limit appends the `r` parity codewords, and writes nothing else (R226,
R229). -/
def Obligations.RsParityAppendsParity : Prop :=
  ∀ (s : State) (r : Nat), s.cwW ≠ 0 → s.cw.length + r ≤ 2 ^ s.cwW - 1 →
    ∃ p : List Nat, p.length = r ∧ p = parity s.cwW r s.cw ∧
      exec (.rsParity r) s = .next { s with cw := s.cw ++ p, eng := .idle, done := true, err := .ok }

/-- `RS_PARITY`'s errors: STATE when no command has filled `CW`, and only then, past the field's limit, ILLEGAL_OPERAND; nothing
but STATUS changes (R229, R322). -/
def Obligations.RsParityErrors : Prop :=
  ∀ (s : State) (r : Nat),
    (s.cwW = 0 → exec (.rsParity r) s = .next { s with eng := .idle, done := true, err := .stateError }) ∧
    (s.cwW ≠ 0 → 2 ^ s.cwW - 1 < s.cw.length + r →
      exec (.rsParity r) s = .next { s with eng := .idle, done := true, err := .illegalOperand })

/-- The field polynomials of R222 are 0x13, 0x43, 0x12D, 0x409 and 0x1069. Multiplication in GF(2^w) stays in the field, is
commutative, associative and distributive over exclusive or, with 1 its identity, 0 its zero and 2 the polynomial `x` (R221,
R222). -/
def Obligations.GfMulFieldLaws : Prop :=
  (fieldPoly 4 = 0x13 ∧ fieldPoly 6 = 0x43 ∧ fieldPoly 8 = 0x12D ∧ fieldPoly 10 = 0x409 ∧ fieldPoly 12 = 0x1069) ∧
  ∀ w a b c : Nat, w = 4 ∨ w = 6 ∨ w = 8 ∨ w = 10 ∨ w = 12 → a < 2 ^ w → b < 2 ^ w → c < 2 ^ w →
    gfMul w a b < 2 ^ w ∧ gfMul w a b = gfMul w b a ∧ gfMul w (gfMul w a b) c = gfMul w a (gfMul w b c) ∧
    gfMul w a (b ^^^ c) = gfMul w a b ^^^ gfMul w a c ∧ gfMul w 1 a = a ∧ gfMul w 0 a = 0 ∧
    gfMul w 2 a = if 2 * a < 2 ^ w then 2 * a else (2 * a) ^^^ fieldPoly w

/-- The syndrome condition of R225: data followed by its parity, `r` codewords in range, evaluated at each root
`alpha^1 .. alpha^r`, is 0. The powers of `alpha` start at 1 and each is 2 times the one before (R223), and a codeword sequence is
evaluated with its first codeword the highest-degree coefficient. -/
def Obligations.ParityMakesSyndromesVanish : Prop :=
  (∀ w e : Nat, w = 4 ∨ w = 6 ∨ w = 8 ∨ w = 10 ∨ w = 12 →
    alphaPow w 0 = 1 ∧ alphaPow w (e + 1) = gfMul w 2 (alphaPow w e)) ∧
  (∀ (w i x : Nat) (c : List Nat), syndrome w i [] = 0 ∧
    syndrome w i (c ++ [x]) = gfMul w (alphaPow w i) (syndrome w i c) ^^^ x) ∧
  ∀ (w r : Nat) (d : List Nat), w = 4 ∨ w = 6 ∨ w = 8 ∨ w = 10 ∨ w = 12 → (∀ c ∈ d, c < 2 ^ w) →
    (parity w r d).length = r ∧ (∀ c ∈ parity w r d, c < 2 ^ w) ∧
    ∀ i, 1 ≤ i → i ≤ r → syndrome w i (d ++ parity w r d) = 0

/-! ## SizeSelector -/

/-- R255: the candidates are Compact 1 to 4, then Full 1 to 32; the first one whose stuffed stream and least parity fit its
codewords is taken, its data codewords and result registers are written and nothing else; when none fits, CAPACITY, and nothing
but STATUS changes. -/
def Obligations.SizeSelectTakesTheFirstFit : Prop :=
  candidates = [1, 2, 3, 4].map (fun n => ⟨.compact, n⟩) ++ (List.range' 1 32).map (fun n => ⟨.full, n⟩) ∧
  (∀ (s : State) (before after : List Symbol) (y : Symbol), candidates = before ++ y :: after →
      (∀ z ∈ before, ¬(stuffPad z.width s.raw).length + minParity z.total ≤ z.total) →
      (stuffPad y.width s.raw).length + minParity y.total ≤ y.total →
      exec .sizeSelect s = .next { s with
        cw := stuffPad y.width s.raw, cwW := y.width, res0 := res0Word y,
        res1 := res1Word y (stuffPad y.width s.raw).length, eng := .idle, done := true, err := .ok }) ∧
  (∀ s : State, (∀ z ∈ candidates, ¬(stuffPad z.width s.raw).length + minParity z.total ≤ z.total) →
      exec .sizeSelect s = .next { s with eng := .idle, done := true, err := .capacity })

/-- The parameters of every symbol are the rows of R259, which are those of R251 to R254 and R258: form (0 Compact, 1 Full),
layers, `w`, `T`, `N`, pad, `rmin`, `kmax` and side. The result registers show the selected symbol: form, layers, width, side,
total and data codewords, each in its field (R40, R257). -/
def Obligations.ResultRegistersShowTheSymbol : Prop :=
  (candidates.map fun y => [if y.form = .full then 1 else 0, y.layers, y.width, y.dataBits, y.total, y.dataBits % y.width,
      minParity y.total, y.total - minParity y.total, y.side]) =
    [[0, 1, 6, 104, 17, 2, 7, 10, 15], [0, 2, 6, 240, 40, 0, 13, 27, 19], [0, 3, 8, 408, 51, 0, 15, 36, 23],
      [0, 4, 8, 608, 76, 0, 21, 55, 27], [1, 1, 6, 128, 21, 2, 8, 13, 19], [1, 2, 6, 288, 48, 0, 15, 33, 23],
      [1, 3, 8, 480, 60, 0, 17, 43, 27], [1, 4, 8, 704, 88, 0, 24, 64, 31], [1, 5, 8, 960, 120, 0, 31, 89, 37]] ++
    [[1, 6, 8, 1248, 156, 0, 39, 117, 41], [1, 7, 8, 1568, 196, 0, 49, 147, 45],
      [1, 8, 8, 1920, 240, 0, 59, 181, 49], [1, 9, 10, 2304, 230, 4, 56, 174, 53],
      [1, 10, 10, 2720, 272, 0, 66, 206, 57], [1, 11, 10, 3168, 316, 8, 76, 240, 61],
      [1, 12, 10, 3648, 364, 8, 87, 277, 67], [1, 13, 10, 4160, 416, 0, 99, 317, 71],
      [1, 14, 10, 4704, 470, 4, 112, 358, 75]] ++
    [[1, 15, 10, 5280, 528, 0, 125, 403, 79], [1, 16, 10, 5888, 588, 8, 139, 449, 83],
      [1, 17, 10, 6528, 652, 8, 153, 499, 87], [1, 18, 10, 7200, 720, 0, 169, 551, 91],
      [1, 19, 10, 7904, 790, 4, 185, 605, 95], [1, 20, 10, 8640, 864, 0, 202, 662, 101],
      [1, 21, 10, 9408, 940, 8, 220, 720, 105], [1, 22, 10, 10208, 1020, 8, 238, 782, 109],
      [1, 23, 12, 11040, 920, 0, 215, 705, 113]] ++
    [[1, 24, 12, 11904, 992, 0, 232, 760, 117], [1, 25, 12, 12800, 1066, 8, 249, 817, 121],
      [1, 26, 12, 13728, 1144, 0, 267, 877, 125], [1, 27, 12, 14688, 1224, 0, 285, 939, 131],
      [1, 28, 12, 15680, 1306, 8, 304, 1002, 135], [1, 29, 12, 16704, 1392, 0, 324, 1068, 139],
      [1, 30, 12, 17760, 1480, 0, 344, 1136, 143], [1, 31, 12, 18848, 1570, 8, 365, 1205, 147],
      [1, 32, 12, 19968, 1664, 0, 386, 1278, 151]] ∧
  ∀ (y : Symbol) (k : Nat), y.valid = true → k + minParity y.total ≤ y.total →
    (res0Word y).toNat = (if y.form = .full then 1 else 0) + 256 * y.layers + 65536 * y.width + 16777216 * y.side ∧
    (res1Word y k).toNat = y.total + 65536 * k ∧
    resForm (res0Word y) = (if y.form = .full then 1 else 0) ∧ resLayers (res0Word y) = y.layers ∧
    resW (res0Word y) = y.width ∧ resSide (res0Word y) = y.side ∧ resN (res1Word y k) = y.total ∧
    resK (res1Word y k) = k ∧ res0Word y &&& 0x00F0C0FE#32 = 0#32 ∧ res1Word y k &&& 0xF000F000#32 = 0#32

/-! ## Mode message and layout -/

/-- R270: a word is a valid descriptor exactly when it is the word of a form, a layer count and a data codeword count in range;
an invalid one makes MODE_MESSAGE and LAYOUT raise ILLEGAL_OPERAND; and the descriptor of a selected symbol is
`RES0.FORM | (RES0.LAYERS << 1) | (RES1.K << 8)`. -/
def Obligations.DescriptorOfArg : Prop :=
  (∀ (v : Word) (d : Descriptor), descriptorOf v = some d ↔
      v.toNat = (if d.form = .full then 1 else 0) + 2 * d.layers + 256 * d.k ∧ 1 ≤ d.layers ∧ 1 ≤ d.k ∧
        (d.form = .compact → d.layers ≤ 4 ∧ d.k ≤ 64) ∧ (d.form = .full → d.layers ≤ 32 ∧ d.k ≤ 2048)) ∧
  (∀ s : State, descriptorOf s.arg = none →
      exec .modeMessage s = .next { s with eng := .idle, done := true, err := .illegalOperand } ∧
      exec .layout s = .next { s with eng := .idle, done := true, err := .illegalOperand }) ∧
  (∀ (y : Symbol) (k : Nat), y.valid = true → 1 ≤ k → k + minParity y.total ≤ y.total →
      descriptorOf (BitVec.ofNat 32 (resForm (res0Word y)) ||| BitVec.ofNat 32 (resLayers (res0Word y)) <<< 1 |||
        BitVec.ofNat 32 (resK (res1Word y k)) <<< 8) = some ⟨y.form, y.layers, k⟩)

/-- `MODE_MESSAGE` on a valid descriptor writes the data nibbles and their parity over GF(16) to `MM`, 28 or 40 bits, and
nothing else, each nibble most significant bit first (R272, R273). -/
def Obligations.ModeMessageFillsMM : Prop :=
  ∀ (s : State) (d : Descriptor), descriptorOf s.arg = some d →
    ∃ b : Bits, b.length = (if d.form = .compact then 28 else 40) ∧
      b = (modeNibbles d ++ parity 4 (if d.form = .compact then 5 else 6) (modeNibbles d)).flatMap (msbBits 4) ∧
      (∀ j t, j < b.length / 4 → t < 4 → b[4 * j + t]? =
        some (((modeNibbles d ++ parity 4 (if d.form = .compact then 5 else 6) (modeNibbles d)).getD j 0).testBit (3 - t))) ∧
      exec .modeMessage s = .next { s with mm := b, eng := .idle, done := true, err := .ok }

/-- R271: the fields of the mode message, most significant bit first: for Compact `L - 1` in 2 bits and `k - 1` in 6, for Full
`L - 1` in 5 bits and `k - 1` in 11; 2 data and 5 parity nibbles, or 4 and 6; 28 or 40 bits. -/
def Obligations.ModeMessageFields : Prop :=
  ∀ d : Descriptor, d.inRange = true → ∃ b : Bits, modeMessage d = .done b ∧
    (d.form = .compact → b.length = 28 ∧ bitsVal (b.take 2) = d.layers - 1 ∧
      bitsVal ((b.drop 2).take 6) = d.k - 1 ∧ (modeNibbles d).length = 2) ∧
    (d.form = .full → b.length = 40 ∧ bitsVal (b.take 5) = d.layers - 1 ∧
      bitsVal ((b.drop 5).take 11) = d.k - 1 ∧ (modeNibbles d).length = 4)

/-- R281: `LAYOUT` on a valid descriptor with the symbol's codewords and mode message completes, and writes the matrix alone: a
module of the symbol is dark exactly when one of the five parts sets it (data, mode message, bull's eye, orientation marks,
reference grid), and every module outside the symbol is light. -/
def Obligations.LayoutPaintsTheSymbol : Prop :=
  ∀ (s : State) (d : Descriptor), descriptorOf s.arg = some d → s.cwW = d.symbol.width →
    s.cw.length = d.symbol.total → s.mm.length = (if d.form = .compact then 28 else 40) →
    ∃ m : List (BitVec 151), m.length = 151 ∧
      exec .layout s = .next { s with mat := m, matWritten := true, eng := .idle, done := true, err := .ok } ∧
      (∀ r q, r < 151 → q < 151 → (d.symbol.side ≤ r ∨ d.symbol.side ≤ q) → (m.getD r 0#151).getMsbD q = false) ∧
      ∀ r q, r < d.symbol.side → q < d.symbol.side →
        ((m.getD r 0#151).getMsbD q = true ↔
          (∃ p ∈ dataPlaces d.symbol, p.row = r ∧ p.col = q ∧
              (messageBits d.symbol s.cw).getD p.bit false = true) ∨
            (∃ p ∈ modePlaces d.symbol, p.row = r ∧ p.col = q ∧ s.mm.getD p.bit false = true) ∨
            (d.symbol.distance r q < d.symbol.ring ∧ d.symbol.distance r q % 2 = 0) ∨
            (r, q) ∈ orientationMarks d.symbol ∨
            (d.form = .full ∧
              ((gap r d.symbol.centre % 16 = 0 ∧ gap q d.symbol.centre % 2 = 0) ∨
                (gap q d.symbol.centre % 16 = 0 ∧ gap r d.symbol.centre % 2 = 0))))

/-- `LAYOUT`'s errors after a valid descriptor: STATE when the codeword buffer is not the symbol's or the mode message is of the
other form; nothing but STATUS changes (R290). -/
def Obligations.LayoutStateErrors : Prop :=
  ∀ (s : State) (d : Descriptor), descriptorOf s.arg = some d →
    (s.cwW ≠ d.symbol.width ∨ s.cw.length ≠ d.symbol.total ∨
      s.mm.length ≠ (if d.form = .compact then 28 else 40)) →
    exec .layout s = .next { s with eng := .idle, done := true, err := .stateError }

/-- The message bits are the pad zeros and then the bits of the codewords, each most significant bit first (R282). The data placement
generator visits every one exactly once, at a module of the symbol (R284, R290), which is the one R284 gives for each layer, step,
bit and edge; its alignment map enumerates the coordinates that lie on no reference line (R283); and it starts and ends where R291
says. The centre, the ring and the distance are those of R280. The mode message
generator visits every mode-message bit exactly once, each at a module of its own on the ring `d = fs`, clockwise from the
top-left, off the orientation marks and the reference lines (R285); and the orientation marks are the six modules of R287. -/
def Obligations.PlacementVisitsEveryBitOnce : Prop :=
  (∀ y : Symbol, y.valid = true →
    ((dataPlaces y).map fun p => p.bit).Perm (List.range y.dataBits) ∧
    (∀ p ∈ dataPlaces y, p.row < y.side ∧ p.col < y.side) ∧
    (∀ c : List Nat, c.length = y.total → (messageBits y c).length = y.dataBits ∧
      (∀ i, i < y.dataBits % y.width → (messageBits y c)[i]? = some false) ∧
      ∀ n b, n < y.total → b < y.width → (messageBits y c)[y.dataBits % y.width + n * y.width + b]? =
        some ((c.getD n 0).testBit (y.width - 1 - b))) ∧
    (∀ i j t rs ro last : Nat, i < y.layers → rs = 4 * (y.layers - i) + (if y.form = .compact then 9 else 12) →
      ro = ((List.range i).map fun m => 8 * (4 * (y.layers - m) + (if y.form = .compact then 9 else 12))).sum →
      last = 4 * y.layers + (if y.form = .compact then 10 else 13) → j < rs → t < 2 →
      ⟨y.align (2 * i + j), y.align (2 * i + t), ro + 2 * j + t⟩ ∈ dataPlaces y ∧
      ⟨y.align (last - 2 * i - t), y.align (2 * i + j), ro + 2 * rs + 2 * j + t⟩ ∈ dataPlaces y ∧
      ⟨y.align (last - 2 * i - j), y.align (last - 2 * i - t), ro + 4 * rs + 2 * j + t⟩ ∈ dataPlaces y ∧
      ⟨y.align (2 * i + t), y.align (last - 2 * i - j), ro + 6 * rs + 2 * j + t⟩ ∈ dataPlaces y) ∧
    (List.range y.base).map y.align =
      (List.range y.side).filter fun q => y.form = .compact ∨ gap q (y.side / 2) % 16 ≠ 0) ∧
  (∀ p ∈ [(⟨0, 0, 0⟩ : Place), ⟨0, 1, 1⟩, ⟨1, 0, 2⟩, ⟨1, 1, 3⟩, ⟨12, 0, 24⟩, ⟨12, 1, 25⟩, ⟨14, 0, 26⟩, ⟨13, 0, 27⟩,
    ⟨14, 14, 52⟩, ⟨0, 14, 78⟩, ⟨1, 2, 103⟩], p ∈ dataPlaces ⟨.compact, 1⟩) ∧
  (∀ a b : Nat, gap a b = if a ≤ b then b - a else a - b) ∧
  ∀ (y : Symbol) (c f : Nat), y.valid = true → c = y.side / 2 → f = (if y.form = .compact then 5 else 7) →
    (y.centre = c ∧ y.ring = f ∧ ∀ r q, y.distance r q = Nat.max (gap r c) (gap q c)) ∧
    ((modePlaces y).map fun p => p.bit).Perm (List.range (if y.form = .compact then 28 else 40)) ∧
    ((modePlaces y).map fun p => (p.row, p.col)).Nodup ∧
    (∀ p ∈ modePlaces y, Nat.max (gap p.row c) (gap p.col c) = f ∧ (p.row, p.col) ∉ orientationMarks y ∧
      (y.form = .full → gap p.row c % 16 ≠ 0 ∧ gap p.col c % 16 ≠ 0)) ∧
    (y.form = .compact → ∀ t, t < 7 → ⟨c - 5, c - 3 + t, t⟩ ∈ modePlaces y ∧ ⟨c - 3 + t, c + 5, 7 + t⟩ ∈ modePlaces y ∧
      ⟨c + 5, c + 3 - t, 14 + t⟩ ∈ modePlaces y ∧ ⟨c + 3 - t, c - 5, 21 + t⟩ ∈ modePlaces y) ∧
    (y.form = .full → ∀ t o i : Nat, t < 10 → o = c - 5 + t + (if t < 5 then 0 else 1) →
      i = c + 5 - t - (if t < 5 then 0 else 1) → ⟨c - 7, o, t⟩ ∈ modePlaces y ∧ ⟨o, c + 7, 10 + t⟩ ∈ modePlaces y ∧
        ⟨c + 7, i, 20 + t⟩ ∈ modePlaces y ∧ ⟨i, c - 7, 30 + t⟩ ∈ modePlaces y) ∧
    orientationMarks y = [(c - f, c - f), (c - f, c - f + 1), (c - f + 1, c - f), (c - f, c + f), (c - f + 1, c + f),
      (c + f - 1, c + f)]

/-- The positions of the data placement generator are all distinct, and none lies in the core or on a reference line (R284). -/
def Obligations.PlacementAvoidsCoreAndLines : Prop :=
  ∀ y : Symbol, y.valid = true →
    ((dataPlaces y).map fun p => (p.row, p.col)).Nodup ∧
    ∀ p ∈ dataPlaces y, y.ring < y.distance p.row p.col ∧
      (y.form = .full → gap p.row y.centre % 16 ≠ 0 ∧ gap p.col y.centre % 16 ≠ 0)

/-! ## The whole pipeline -/

/-- `ENCODE` on a written input whose stream some candidate fits completes with the whole symbol: no later step can fail once a
symbol is selected. It writes `RAW`, `CW`, `CW_W`, `RES0`, `RES1`, `MM` and `MAT`, and nothing else (R310). -/
def Obligations.EncodeCompletes : Prop :=
  ∀ (s : State) (bs : List Byte) (ts : List Token) (y : Symbol) (d : List Nat) (k : Nat), s.inLen.toNat ≤ 8192 →
    s.mem.readBytes 0 s.inLen.toNat = some bs → modeTokens bs = some ts → sizeSelect (tokensRaw ts) = some y →
    d = stuffPad y.width (tokensRaw ts) → k = d.length →
    ∃ (c : List Nat) (b : Bits), c = d ++ parity y.width (y.total - k) d ∧ c.length = y.total ∧
      modeMessage ⟨y.form, y.layers, k⟩ = .done b ∧
      exec .encode s = .next { s with
        raw := tokensRaw ts, cw := c, cwW := y.width, res0 := res0Word y, res1 := res1Word y k, mm := b,
        mat := paint (darkModules y c b), matWritten := true, eng := .idle, done := true, err := .ok }

/-- `ENCODE` fails as a whole: with `LEN` above `IN_MAX`, or a stream of a written input that no candidate fits, it reports
CAPACITY and leaves no stage's effect (R310, R323). -/
def Obligations.EncodeFailsWhole : Prop :=
  (∀ s : State, 8192 < s.inLen.toNat →
      exec .encode s = .next { s with eng := .idle, done := true, err := .capacity }) ∧
  (∀ (s : State) (bs : List Byte) (ts : List Token), s.inLen.toNat ≤ 8192 →
      s.mem.readBytes 0 s.inLen.toNat = some bs → modeTokens bs = some ts → sizeSelect (tokensRaw ts) = none →
      exec .encode s = .next { s with eng := .idle, done := true, err := .capacity })

/-- `ENCODE` ends where the five stage commands end, run one after the other with the descriptor written to `ARG` before
MODE_MESSAGE, whenever each of them succeeds; only `ARG` differs (R310, R313). -/
def Obligations.EncodeIsTheFiveCommands : Prop :=
  ∀ (s s1 s2 s3 s4 s5 : State) (v : Word), exec .modeEncode s = .next s1 → s1.err = .ok →
    exec .sizeSelect s1 = .next s2 → s2.err = .ok →
    exec (.rsParity (resN s2.res1 - resK s2.res1)) s2 = .next s3 → s3.err = .ok →
    v = BitVec.ofNat 32 (resForm s3.res0) ||| BitVec.ofNat 32 (resLayers s3.res0) <<< 1 |||
      BitVec.ofNat 32 (resK s3.res1) <<< 8 →
    exec .modeMessage { s3 with arg := v } = .next s4 → s4.err = .ok →
    exec .layout s4 = .next s5 → s5.err = .ok →
    exec .encode s = .next { s5 with arg := s.arg }

/-- After a successful `ENCODE` the codeword buffer is the symbol's: `N` codewords of width `W` with `K < N`, and it meets the
syndrome condition for its `N - K` parity codewords (R225, R314). -/
def Obligations.EncodedSymbolChecks : Prop :=
  ∀ s t : State, exec .encode s = .next t → t.err = .ok →
    t.cw.length = resN t.res1 ∧ t.cwW = resW t.res0 ∧ resK t.res1 < resN t.res1 ∧
      ∀ i, 1 ≤ i → i ≤ resN t.res1 - resK t.res1 → syndrome t.cwW i t.cw = 0

/-! ## Errors and faults -/

/-- R323: a command that reports an error changes STATUS and ENG and nothing else; the word need not even be a command. -/
def Obligations.ErrorChangesOnlyStatus : Prop :=
  (∀ (i : Instr) (s t : State), exec i s = .next t → t.err ≠ .ok →
      t = { s with eng := .idle, done := true, err := t.err }) ∧
  (∀ (v : Word) (s t : State), completeCommand v s = .next t → t.err ≠ .ok →
      t = { s with eng := .idle, done := true, err := t.err })

/-- Which command reports which code, and the number of each code in `STATUS` (R320): a decoded command never reports
ILLEGAL_COMMAND, and none reports INTERNAL. -/
def Obligations.ErrorCodesByCommand : Prop :=
  (ErrCode.code .ok = 0#4 ∧ ErrCode.code .capacity = 1#4 ∧ ErrCode.code .illegalCommand = 2#4 ∧
    ErrCode.code .illegalOperand = 3#4 ∧ ErrCode.code .stateError = 4#4 ∧ ErrCode.code .overflow = 5#4 ∧
    ErrCode.code .internal = 6#4) ∧
  ∀ (i : Instr) (s t : State), exec i s = .next t →
    t.err ≠ .illegalCommand ∧ t.err ≠ .internal ∧
    (t.err = .capacity → i = .modeEncode ∨ i = .sizeSelect ∨ i = .encode) ∧
    (t.err = .illegalOperand →
      (∃ n, i = .bbAppendMsb n ∨ i = .bbAppendLsb n ∨ i = .stuffPad n ∨ i = .rsParity n) ∨
        i = .modeMessage ∨ i = .layout) ∧
    (t.err = .stateError → (∃ n, i = .rsParity n) ∨ i = .layout) ∧
    (t.err = .overflow → ∃ n, i = .bbAppendMsb n ∨ i = .bbAppendLsb n)

/-- No command is refused, none reaches an INTERNAL condition, and the one fault a command can end in is that of
`MODE_ENCODE` or `ENCODE` on an input byte below `LEN` that was never written (R326, R327, R352). -/
def Obligations.ExecFaultsOnlyOnUnwrittenInput : Prop :=
  ∀ (i : Instr) (s : State),
    (∀ r : Refusal, exec i s ≠ .refused r) ∧
    ∀ f : Fault, exec i s = .fault f → f = .commandReadsUnwrittenInput ∧ (i = .modeEncode ∨ i = .encode) ∧
      s.inLen.toNat ≤ 8192 ∧ ∃ a, a < s.inLen.toNat ∧ s.mem.read a = none

/-- The frame of all commands: none writes `CMD`, `ARG`, `IN_LEN` or the input buffer, nor what the model keeps of the outside,
and every one that answers a next state leaves the engine idle with `DONE` set (R32, R35, R36, R43). -/
def Obligations.CommandsLeaveOperandsAlone : Prop :=
  ∀ (i : Instr) (s t : State), exec i s = .next t →
    t.cmd = s.cmd ∧ t.arg = s.arg ∧ t.inLen = s.inLen ∧ t.mem = s.mem ∧ t.inputs = s.inputs ∧ t.seen = s.seen ∧
      t.wait = s.wait ∧ t.draws = s.draws ∧ t.eng = .idle ∧ t.done = true

/-- The frame of each buffer and result register: only the commands R38 to R41 and R47 name write it. -/
def Obligations.EachBufferHasItsWriters : Prop :=
  ∀ (i : Instr) (s t : State), exec i s = .next t →
    (t.raw ≠ s.raw → i = .bbClear ∨ (∃ n, i = .bbAppendMsb n ∨ i = .bbAppendLsb n) ∨ i = .modeEncode ∨
      i = .encode) ∧
    ((t.cw ≠ s.cw ∨ t.cwW ≠ s.cwW) → (∃ n, i = .stuffPad n ∨ i = .rsParity n) ∨ i = .sizeSelect ∨ i = .encode) ∧
    ((t.res0 ≠ s.res0 ∨ t.res1 ≠ s.res1) → i = .sizeSelect ∨ i = .encode) ∧
    (t.mm ≠ s.mm → i = .modeMessage ∨ i = .encode) ∧
    ((t.mat ≠ s.mat ∨ t.matWritten ≠ s.matWritten) → i = .layout ∨ i = .encode)

/-! ## The host's accesses -/

/-- R74: a host write to input word `q` stores its four bytes, the first least significant, and sets their written flags, and
changes no other byte and no register; a read returns the four bytes the same way round, and faults when one of them was never
written. -/
def Obligations.InputWindow : Prop :=
  (∀ (s : State) (q : Nat) (v : Word), q < 2048 → s.eng = .idle →
      ∃ m : Memory, hostWrite (BitVec.ofNat 16 (0x2000 + 4 * q)) 4 v s = .next { s with mem := m } ∧
        ∀ x, m.read x = if x / 4 = q then some (v.extractLsb' (8 * (x % 4)) 8) else s.mem.read x) ∧
  (∀ (s : State) (q : Nat) (b0 b1 b2 b3 : Byte), q < 2048 → s.mem.read (4 * q) = some b0 →
      s.mem.read (4 * q + 1) = some b1 → s.mem.read (4 * q + 2) = some b2 → s.mem.read (4 * q + 3) = some b3 →
      ∃ v : Word, v.toNat = b0.toNat + b1.toNat * 256 + b2.toNat * 65536 + b3.toNat * 16777216 ∧
        hostRead (BitVec.ofNat 16 (0x2000 + 4 * q)) 4 s =
          .next { s with seen := ⟨BitVec.ofNat 16 (0x2000 + 4 * q), v⟩ :: s.seen }) ∧
  (∀ (s : State) (q j : Nat), q < 2048 → j < 4 → s.mem.read (4 * q + j) = none →
      hostRead (BitVec.ofNat 16 (0x2000 + 4 * q)) 4 s = .fault .hostReadsUnwrittenInput)

/-- R75: while idle, word `q` of the RAW window shows raw bit `32q + j` at position `31 - j`, and 0 after the end of `RAW`. -/
def Obligations.RawWindow : Prop :=
  ∀ (s : State) (q : Nat), q < 624 → s.eng = .idle →
    ∃ w : Word, hostRead (BitVec.ofNat 16 (0x4000 + 4 * q)) 4 s =
        .next { s with seen := ⟨BitVec.ofNat 16 (0x4000 + 4 * q), w⟩ :: s.seen } ∧
      ∀ j, j < 32 → w.getLsbD (31 - j) = s.raw.getD (32 * q + j) false

/-- R76: while idle, word `i` of the CW window is codeword `i`, zero-extended, and 0 at and after `CW_COUNT`; no bit at or above
`CW_W` is set. The premise on the codewords is a clause of the model's invariant (StepKeepsInvariant). -/
def Obligations.CodewordWindow : Prop :=
  ∀ (s : State) (i : Nat), i < 8192 → s.eng = .idle → s.cwW ≤ 12 → (∀ c ∈ s.cw, c < 2 ^ s.cwW) →
    ∃ w : Word, hostRead (BitVec.ofNat 16 (0x8000 + 4 * i)) 4 s =
        .next { s with seen := ⟨BitVec.ofNat 16 (0x8000 + 4 * i), w⟩ :: s.seen } ∧
      w.toNat = (if h : i < s.cw.length then s.cw[i] else 0) ∧ ∀ j, s.cwW ≤ j → w.getLsbD j = false

/-- The MAT window (R77): once a matrix was written and while idle, word `q` of row `r` shows module `(r, 32q + j)` at position
`31 - j`, and 0 after column 150; before, the read faults. That it then faults while a command runs too is the model's reading of
R77 and R327 against R81 (log entry 5). -/
def Obligations.MatrixWindow : Prop :=
  (∀ (s : State) (r q : Nat), r < 151 → q < 5 → s.eng = .idle → s.matWritten = true →
      ∃ w : Word, hostRead (BitVec.ofNat 16 (0x5000 + 20 * r + 4 * q)) 4 s =
          .next { s with seen := ⟨BitVec.ofNat 16 (0x5000 + 20 * r + 4 * q), w⟩ :: s.seen } ∧
        ∀ j, j < 32 → w.getLsbD (31 - j) = if 32 * q + j ≤ 150 then s.module r (32 * q + j) else false) ∧
  (∀ (s : State) (r q : Nat), s.module r q = (s.mat.getD r 0#151).getMsbD q) ∧
  (∀ (s : State) (r q : Nat), r < 151 → q < 5 → s.matWritten = false →
      hostRead (BitVec.ofNat 16 (0x5000 + 20 * r + 4 * q)) 4 s = .fault .hostReadsUnwrittenMatrix)

/-- R73: an access that is not one 32-bit word at a multiple of 4 is a bus error, read or write, and a fault of the model; no
other access is one. That such a write is named a bus error while a command runs too, and not the busy violation, is the model's
choice (log entry 9). -/
def Obligations.BusErrors : Prop :=
  ∀ (s : State) (off : Offset) (n : Nat) (v : Word),
    (¬(n = 4 ∧ off.toNat % 4 = 0) → hostRead off n s = .fault .busError ∧ hostWrite off n v s = .fault .busError) ∧
    (n = 4 ∧ off.toNat % 4 = 0 → hostRead off n s ≠ .fault .busError ∧ hostWrite off n v s ≠ .fault .busError)

/-- R360: a host write to any offset while a command runs faults; a host read while a command runs is no violation, and a write
while idle is none. The writes are those the bus accepts; what another one is while a command runs is BusErrors' (log entry 9). -/
def Obligations.WriteWhileBusyFaults : Prop :=
  (∀ (s : State) (u v : Word) (off : Offset), s.eng = .busy u → off.toNat % 4 = 0 →
      hostWrite off 4 v s = .fault .hostWriteWhileBusy) ∧
  (∀ (s : State) (off : Offset) (n : Nat), hostRead off n s ≠ .fault .hostWriteWhileBusy) ∧
  (∀ (s : State) (off : Offset) (v : Word), s.eng = .idle → off.toNat % 4 = 0 →
      hostWrite off 4 v s ≠ .fault .hostWriteWhileBusy)

/-- R81: while a command runs, a read of CMD, ARG, IN_LEN, STATUS, ID or a written input word returns its current value, a read
of an input word with a byte never written faults, and a read of a result register or of the RAW, CW or (once written) MAT window
returns a free draw, whatever that is. That a MAT read before the first layout faults while busy too is the model's reading (log
entry 5). -/
def Obligations.BusyReads : Prop :=
  ∀ (s : State) (u : Word) (off : Offset), s.eng = .busy u → off.toNat % 4 = 0 →
    (off.toNat = 0x000 → hostRead off 4 s = .next { s with seen := ⟨off, s.cmd⟩ :: s.seen }) ∧
    (off.toNat = 0x004 → hostRead off 4 s = .next { s with seen := ⟨off, s.arg⟩ :: s.seen }) ∧
    (off.toNat = 0x008 → hostRead off 4 s = .next { s with seen := ⟨off, s.inLen.setWidth 32⟩ :: s.seen }) ∧
    (off.toNat = 0x00C → hostRead off 4 s = .next { s with seen := ⟨off, s.status⟩ :: s.seen }) ∧
    (off.toNat = 0x028 → hostRead off 4 s = .next { s with seen := ⟨off, 0x415A4301#32⟩ :: s.seen }) ∧
    (∀ v : Word, 0x2000 ≤ off.toNat → off.toNat ≤ 0x3FFF → s.mem.readWord ((off.toNat - 0x2000) / 4) = some v →
      hostRead off 4 s = .next { s with seen := ⟨off, v⟩ :: s.seen }) ∧
    (0x2000 ≤ off.toNat → off.toNat ≤ 0x3FFF → s.mem.readWord ((off.toNat - 0x2000) / 4) = none →
      hostRead off 4 s = .fault .hostReadsUnwrittenInput) ∧
    ((0x010 ≤ off.toNat ∧ off.toNat ≤ 0x024) ∨ (0x4000 ≤ off.toNat ∧ off.toNat ≤ 0x49BF) ∨ 0x8000 ≤ off.toNat ∨
        (0x5000 ≤ off.toNat ∧ off.toNat ≤ 0x5BCB ∧ s.matWritten = true) →
      hostRead off 4 s =
        .next { s with seen := ⟨off, Config.busyRead s.draws⟩ :: s.seen, draws := s.draws + 1 })

/-- R34: a `CMD` write while idle latches the word, clears DONE and ERR and starts the command, whatever time it then takes; a
read returns the last word written, 0 after reset; and a write while busy is a violation. -/
def Obligations.CmdWriteStartsCommand : Prop :=
  (∀ (s : State) (v : Word), s.eng = .idle →
      ∃ n, hostWrite 0x000#16 4 v s = .next { s with
        cmd := v, eng := .busy v, done := false, err := .ok, wait := n, draws := s.draws + 1 }) ∧
  (∀ s : State, hostRead 0x000#16 4 s = .next { s with seen := ⟨0x000#16, s.cmd⟩ :: s.seen }) ∧
  State.reset.cmd = 0#32 ∧
  (∀ (s : State) (u v : Word), s.eng = .busy u → hostWrite 0x000#16 4 v s = .fault .hostWriteWhileBusy)

/-- `ARG` and `IN_LEN` are stored and read back, `IN_LEN` with its upper half ignored and read as 0 (R35, R36). -/
def Obligations.ArgAndInLenAreStored : Prop :=
  ∀ (s : State) (v : Word), s.eng = .idle →
    hostWrite 0x004#16 4 v s = .next { s with arg := v } ∧
    hostRead 0x004#16 4 { s with arg := v } = .next { s with arg := v, seen := ⟨0x004#16, v⟩ :: s.seen } ∧
    ∃ t, hostWrite 0x008#16 4 v s = .next t ∧ t = { s with inLen := t.inLen } ∧ t.inLen.toNat = v.toNat % 65536 ∧
      ∃ w : Word, w.toNat = v.toNat % 65536 ∧
        hostRead 0x008#16 4 t = .next { t with seen := ⟨0x008#16, w⟩ :: t.seen }

/-- A write while idle to any other place, a read-only register or window, reserved space or an unmapped offset, is ignored, and
reserved space and unmapped offsets read 0 (R33, R72). -/
def Obligations.OtherWritesAreIgnored : Prop :=
  (∀ (s : State) (off : Offset) (v : Word), s.eng = .idle → off.toNat % 4 = 0 → 0x00C ≤ off.toNat →
      ¬(0x2000 ≤ off.toNat ∧ off.toNat ≤ 0x3FFF) → hostWrite off 4 v s = .next s) ∧
  (∀ (s : State) (off : Offset), off.toNat % 4 = 0 →
      (0x02C ≤ off.toNat ∧ off.toNat < 0x2000) ∨ (0x49C0 ≤ off.toNat ∧ off.toNat < 0x5000) ∨
        (0x5BCC ≤ off.toNat ∧ off.toNat < 0x8000) →
      hostRead off 4 s = .next { s with seen := ⟨off, 0#32⟩ :: s.seen })

/-- R79: a host read changes nothing of AZC (the host's record and the draw count are the model's), and read again with nothing
in between an idle machine returns the same value; of the writes only one to `CMD` starts a command. -/
def Obligations.HostReadsHaveNoSideEffect : Prop :=
  (∀ (s t : State) (off : Offset) (n : Nat), hostRead off n s = .next t →
      ∃ (v : Word) (m : Nat), t = { s with seen := ⟨off, v⟩ :: s.seen, draws := m }) ∧
  (∀ (s t u : State) (off : Offset) (n : Nat), s.eng = .idle → hostRead off n s = .next t →
      hostRead off n t = .next u → ∃ v : Word, t.seen = ⟨off, v⟩ :: s.seen ∧ u.seen = ⟨off, v⟩ :: t.seen) ∧
  (∀ (s t : State) (off : Offset) (n : Nat) (v : Word), off ≠ 0#16 → hostWrite off n v s = .next t →
      t = { s with arg := t.arg, inLen := t.inLen, mem := t.mem })

/-- The fields of `STATUS`: BUSY, DONE, two zero bits, the code of ERR, and zeros (R37). -/
def Obligations.StatusWordFields : Prop :=
  ∀ s : State, s.status.getLsbD 0 = decide (s.eng ≠ .idle) ∧ s.status.getLsbD 1 = s.done ∧
    s.status.extractLsb' 2 2 = 0#2 ∧ s.status.extractLsb' 4 4 = s.err.code ∧ s.status.extractLsb' 8 24 = 0#24

/-- The registers that show a buffer: `RAW_LEN`, `CW_STAT`, and the bits and length of the mode message in `MM0` and `MM1`, with
every other bit 0 (R38, R39, R41); the premise of this part is the model's invariant. And a host read while idle at the offset of
each register of R33 returns that register. -/
def Obligations.ViewRegisters : Prop :=
  (∀ s : State, s.Inv →
    s.rawLen.toNat = s.raw.length ∧
     (s.cwStat.extractLsb' 0 14).toNat = s.cw.length ∧ (s.cwStat.extractLsb' 16 4).toNat = s.cwW ∧
     s.cwStat &&& 0xFFF0C000#32 = 0#32 ∧
     (∀ i, i < 32 → s.mm0.getLsbD (31 - i) = s.mm.getD i false) ∧
     (∀ i, 32 ≤ i → i < 40 → s.mm1.getLsbD (31 - (i - 32)) = s.mm.getD i false) ∧
     (s.mm1.extractLsb' 0 6).toNat = s.mm.length ∧ s.mm1.extractLsb' 6 18 = 0#18) ∧
  ∀ s : State, s.eng = .idle →
    hostRead 0x000#16 4 s = .next { s with seen := ⟨0x000#16, s.cmd⟩ :: s.seen } ∧
    hostRead 0x004#16 4 s = .next { s with seen := ⟨0x004#16, s.arg⟩ :: s.seen } ∧
    hostRead 0x008#16 4 s = .next { s with seen := ⟨0x008#16, s.inLen.setWidth 32⟩ :: s.seen } ∧
    hostRead 0x00C#16 4 s = .next { s with seen := ⟨0x00C#16, s.status⟩ :: s.seen } ∧
    hostRead 0x010#16 4 s = .next { s with seen := ⟨0x010#16, s.rawLen⟩ :: s.seen } ∧
    hostRead 0x014#16 4 s = .next { s with seen := ⟨0x014#16, s.cwStat⟩ :: s.seen } ∧
    hostRead 0x018#16 4 s = .next { s with seen := ⟨0x018#16, s.res0⟩ :: s.seen } ∧
    hostRead 0x01C#16 4 s = .next { s with seen := ⟨0x01C#16, s.res1⟩ :: s.seen } ∧
    hostRead 0x020#16 4 s = .next { s with seen := ⟨0x020#16, s.mm0⟩ :: s.seen } ∧
    hostRead 0x024#16 4 s = .next { s with seen := ⟨0x024#16, s.mm1⟩ :: s.seen } ∧
    hostRead 0x028#16 4 s = .next { s with seen := ⟨0x028#16, 0x415A4301#32⟩ :: s.seen }

/-! ## Reset, progress, invariant -/

/-- The state after reset (R350), and that a reset while a command runs abandons it: the machine takes that state, and none of
the command's effects is applied. The model's own: the reset comes before a completion step that is not yet due and leaves the
inputs, the host's record and the draw count alone (log entry 13), and the matrix it leaves, which R350 leaves unspecified, is
that of `State.reset` (log entry 6). That an abandoned `MODE_ENCODE` or `ENCODE` with an unwritten input byte leaves no fault is
the model's too: it reads its input at completion (log entry 18). -/
def Obligations.ResetState : Prop :=
  (State.reset.eng = .idle ∧ State.reset.cmd = 0#32 ∧ State.reset.arg = 0#32 ∧ State.reset.inLen = 0#16 ∧
    State.reset.status = 0#32 ∧ State.reset.raw = [] ∧ State.reset.rawLen = 0#32 ∧ State.reset.cw = [] ∧
    State.reset.cwW = 0 ∧ State.reset.cwStat = 0#32 ∧ State.reset.res0 = 0#32 ∧ State.reset.res1 = 0#32 ∧
    State.reset.mm = [] ∧ State.reset.mm0 = 0#32 ∧ State.reset.mm1 = 0#32 ∧ idWord = 0x415A4301#32 ∧
    (∀ a, State.reset.mem.read a = none) ∧ State.reset.matWritten = false) ∧
  (∀ (s : State) (v : Word) (rest : List Input), s.eng = .idle ∨ (s.eng = .busy v ∧ s.wait ≠ 0) →
      s.inputs = .reset :: rest →
      step s = .next { State.reset with inputs := rest, seen := s.seen, draws := s.draws })

/-- Only completion and reset make a busy engine idle; no step but a reset clears a written flag or the matrix-written flag,
a completion taken while a reset waits included; and a step that is neither changes no buffer and no result register
(R351). The model's own: `wait = 0` is that the completion is due (log entry 3), and a due completion goes before a waiting reset
(log entry 13). -/
def Obligations.OnlyCompletionOrResetIdles : Prop :=
  (∀ (s t : State) (v : Word), s.eng = .busy v → step s = .next t → t.eng = .idle →
      s.wait = 0 ∨ ∃ rest, s.inputs = .reset :: rest) ∧
  (∀ s t : State, step s = .next t → ((∃ v, s.eng = .busy v) ∧ s.wait = 0) ∨ (∀ rest, s.inputs ≠ .reset :: rest) →
      (s.matWritten = true → t.matWritten = true) ∧ (∀ a, s.mem.read a ≠ none → t.mem.read a ≠ none) ∧
      (s.eng = .idle ∨ s.wait ≠ 0 → t.raw = s.raw ∧ t.cw = s.cw ∧ t.cwW = s.cwW ∧ t.mm = s.mm ∧
        t.res0 = s.res0 ∧ t.res1 = s.res1 ∧ t.mat = s.mat ∧ t.matWritten = s.matWritten))

/-- Progress: while a command runs every step that is not the completion and not a reset brings the completion one step nearer,
and with no input from outside the command completes after the time it takes (R363; that the time is a count of steps in `wait`
is the model's, log entry 3, and so is that the fault of R352 falls in the completion, log entry 18). -/
def Obligations.EveryCommandCompletes : Prop :=
  (∀ (s t : State) (v : Word), s.eng = .busy v → s.wait ≠ 0 → step s = .next t →
      (t.eng = .busy v ∧ t.wait + 1 = s.wait) ∨ ∃ rest, s.inputs = .reset :: rest) ∧
  (∀ (s : State) (v : Word), s.eng = .busy v → s.inputs = [] →
      Host.Core.run Sys2Proof.core (s.wait + 1) s = completeCommand v { s with wait := 0 })

/-- The invariant holds after reset. -/
def Obligations.ResetMeetsInvariant : Prop := State.reset.Inv

/-- Every step keeps the invariant, from every state that meets it: the buffers stay within their sizes and widths, the input
buffer stays canonical, the result registers stay legal, and BUSY, DONE and ERR stay consistent (R37 to R47, R326, R361). -/
def Obligations.StepKeepsInvariant : Prop :=
  ∀ s t : State, s.Inv → step s = .next t → t.Inv
end

