-- ==== Sys2Proof/Laws/Bits.lean ====
section
/-! SUPPORT. Lengths, elements and values of bit sequences (Machine/Bits.lean). -/

namespace Sys2Proof.Machine

@[simp] theorem msbBits_length (n v : Nat) : (msbBits n v).length = n := by simp [msbBits]

@[simp] theorem lsbBits_length (n v : Nat) : (lsbBits n v).length = n := by simp [lsbBits]

theorem msbBits_getElem (n v j : Nat) (h : j < (msbBits n v).length) :
    (msbBits n v)[j] = v.testBit (n - 1 - j) := by simp [msbBits]

theorem lsbBits_getElem (n v j : Nat) (h : j < (lsbBits n v).length) : (lsbBits n v)[j] = v.testBit j := by
  simp [lsbBits]

theorem bitsVal_foldl (s : Bits) (acc : Nat) :
    s.foldl (fun acc b => 2 * acc + b.toNat) acc = acc * 2 ^ s.length + bitsVal s := by
  unfold bitsVal
  induction s generalizing acc with
  | nil => simp
  | cons b s ih =>
    simp only [List.foldl_cons, List.length_cons, Nat.mul_zero, Nat.zero_add]
    rw [ih, ih b.toNat, pow_succ]
    ring

@[simp] theorem bitsVal_nil : bitsVal [] = 0 := rfl

theorem bitsVal_cons (b : Bool) (s : Bits) : bitsVal (b :: s) = b.toNat * 2 ^ s.length + bitsVal s := by
  have h := bitsVal_foldl s b.toNat
  rw [← h]
  simp [bitsVal]

theorem bitsVal_append (s t : Bits) : bitsVal (s ++ t) = bitsVal s * 2 ^ t.length + bitsVal t := by
  have h := bitsVal_foldl t (bitsVal s)
  rw [← h]
  simp [bitsVal]

theorem bitsVal_lt (s : Bits) : bitsVal s < 2 ^ s.length := by
  induction s with
  | nil => simp
  | cons b s ih =>
    rw [bitsVal_cons, List.length_cons, pow_succ]
    cases b <;> simp <;> omega

/-- The bit of a value that element `j` of its sequence is. -/
theorem bitsVal_testBit (s : Bits) (j : Nat) (h : j < s.length) :
    (bitsVal s).testBit (s.length - 1 - j) = s[j] := by
  induction s generalizing j with
  | nil => simp at h
  | cons b s ih =>
    rw [bitsVal_cons]
    cases j with
    | zero =>
      simp only [List.length_cons, Nat.add_sub_cancel, Nat.sub_zero, List.getElem_cons_zero]
      have hs := bitsVal_lt s
      rw [Nat.mul_comm, Nat.testBit_two_pow_mul_add _ hs]
      cases b <;> simp
    | succ j =>
      have hj : j < s.length := by simpa using h
      have hs := bitsVal_lt s
      have e : (b :: s).length - 1 - (j + 1) = s.length - 1 - j := by simp only [List.length_cons]; omega
      rw [e, Nat.mul_comm, Nat.testBit_two_pow_mul_add _ hs]
      have hl : s.length - 1 - j < s.length := by omega
      simp [hl, ih j hj]

/-- `val(msb_n(v)) = v mod 2^n` (R9). -/
theorem bitsVal_msbBits (n v : Nat) : bitsVal (msbBits n v) = v % 2 ^ n := by
  apply Nat.eq_of_testBit_eq
  intro i
  rw [Nat.testBit_mod_two_pow]
  by_cases hi : i < n
  · have h := bitsVal_testBit (msbBits n v) (n - 1 - i) (by rw [msbBits_length]; omega)
    rw [msbBits_getElem, msbBits_length] at h
    have e : n - 1 - (n - 1 - i) = i := by omega
    rw [e] at h
    simp [hi, h]
  · have h := bitsVal_lt (msbBits n v)
    rw [msbBits_length] at h
    have hlt : bitsVal (msbBits n v) < 2 ^ i := lt_of_lt_of_le h (Nat.pow_le_pow_right (by omega) (by omega))
    simp [hi, Nat.testBit_lt_two_pow hlt]

/-- Bit `31 - j` of a packed word is element `j`, and 0 after the end of the sequence (R75). -/
theorem packWord_getLsbD (s : Bits) (j : Nat) (hj : j < 32) : (packWord s).getLsbD (31 - j) = s.getD j false := by
  have hlen : ((s ++ List.replicate 32 false).take 32).length = 32 := by simp
  have h := bitsVal_testBit ((s ++ List.replicate 32 false).take 32) j (by rw [hlen]; exact hj)
  have e : ((s ++ List.replicate 32 false).take 32).length - 1 - j = 31 - j := by rw [hlen]
  rw [e] at h
  have hlt : 31 - j < 32 := by omega
  simp only [packWord, BitVec.getLsbD_ofNat, hlt, decide_true, Bool.true_and]
  rw [h, List.getElem_take]
  by_cases hs : j < s.length
  · simp [List.getElem_append_left hs, List.getD_eq_getElem?_getD, hs]
  · rw [List.getElem_append_right (by omega), List.getElem_replicate]
    simp [List.getD_eq_getElem?_getD, Nat.le_of_not_lt hs]

end Sys2Proof.Machine
end

