-- ==== Sys2Proof/Laws/Memory.lean ====
section
/-! SUPPORT. The input buffer (10_state.md R43; 20_memory.md R74): a read after a write, and that every memory operation keeps the
canonical form. -/

namespace Sys2Proof.Machine

theorem Memory.read_write_same (m : Memory) (a : Nat) (b : Byte) : (m.write a b).read a = some b := by
  induction m with
  | nil => simp [Memory.write, Memory.read]
  | cons c m ih =>
    obtain ⟨k, v⟩ := c
    simp only [Memory.write]
    split
    · simp [Memory.read]
    · split
      · simp [Memory.read]
      · rename_i h
        have hk : k ≠ a := fun e => h e.symm
        simp [Memory.read, hk, ih]

theorem Memory.read_write_other (m : Memory) (a x : Nat) (b : Byte) (h : x ≠ a) :
    (m.write a b).read x = m.read x := by
  have ha : a ≠ x := fun e => h e.symm
  induction m with
  | nil => simp [Memory.write, Memory.read, ha]
  | cons c m ih =>
    obtain ⟨k, v⟩ := c
    simp only [Memory.write]
    split
    · simp [Memory.read, ha]
    · split
      · rename_i hk
        subst hk
        simp [Memory.read, ha]
      · simp [Memory.read, ih]

/-- Everything a read sees after a write. -/
theorem Memory.read_write (m : Memory) (a x : Nat) (b : Byte) :
    (m.write a b).read x = if x = a then some b else m.read x := by
  by_cases h : x = a
  · subst h; simp [Memory.read_write_same]
  · simp [h, Memory.read_write_other m a x b h]

/-- Everything a read sees after a host write of one input word. -/
theorem Memory.read_writeWord (m : Memory) (q x : Nat) (v : Word) :
    (m.writeWord q v).read x =
      if x = 4 * q then some (v.extractLsb' 0 8)
      else if x = 4 * q + 1 then some (v.extractLsb' 8 8)
      else if x = 4 * q + 2 then some (v.extractLsb' 16 8)
      else if x = 4 * q + 3 then some (v.extractLsb' 24 8)
      else m.read x := by
  simp only [Memory.writeWord, Memory.read_write]
  split_ifs <;> first | omega | rfl

theorem Memory.wfFrom_write (m : Memory) (lo a : Nat) (b : Byte) (h : Memory.wfFrom lo m = true) (hlo : lo ≤ a)
    (ha : a < Config.inMax) : Memory.wfFrom lo (m.write a b) = true := by
  induction m generalizing lo with
  | nil =>
    simp only [Memory.write, Memory.wfFrom, Bool.and_eq_true, decide_eq_true_eq]
    exact ⟨⟨hlo, ha⟩, trivial⟩
  | cons c m ih =>
    obtain ⟨k, v⟩ := c
    simp only [Memory.wfFrom, Bool.and_eq_true, decide_eq_true_eq] at h
    obtain ⟨⟨hk, hkm⟩, hm⟩ := h
    simp only [Memory.write]
    split
    · rename_i hlt
      simp only [Memory.wfFrom, Bool.and_eq_true, decide_eq_true_eq]
      exact ⟨⟨hlo, ha⟩, ⟨by omega, hkm⟩, hm⟩
    · split
      · rename_i heq
        subst heq
        simp only [Memory.wfFrom, Bool.and_eq_true, decide_eq_true_eq]
        exact ⟨⟨hlo, ha⟩, hm⟩
      · rename_i h1 h2
        simp only [Memory.wfFrom, Bool.and_eq_true, decide_eq_true_eq]
        exact ⟨⟨hk, hkm⟩, ih (k + 1) hm (by omega)⟩

/-- A write at an index that exists keeps the canonical form. -/
theorem Memory.wf_write (m : Memory) (a : Nat) (b : Byte) (h : m.wf = true) (ha : a < Config.inMax) :
    (m.write a b).wf = true := Memory.wfFrom_write m 0 a b h (Nat.zero_le _) ha

/-- A host write of an input word that exists keeps the canonical form. -/
theorem Memory.wf_writeWord (m : Memory) (q : Nat) (v : Word) (h : m.wf = true) (hq : q < 2048) :
    (m.writeWord q v).wf = true := by
  unfold Memory.writeWord
  have e : Config.inMax = 8192 := rfl
  refine Memory.wf_write _ _ _ (Memory.wf_write _ _ _ (Memory.wf_write _ _ _ (Memory.wf_write _ _ _ h ?_) ?_) ?_) ?_ <;>
    omega

/-- The memory of the reset state is in canonical form. -/
theorem reset_mem_wf : State.reset.mem.wf = true := rfl

/-- Everything `readBytes` can answer: the bytes at the indexes `a .. a+n-1`, each written. -/
theorem Memory.readBytes_eq_some_iff (m : Memory) (a n : Nat) (bs : List Byte) :
    m.readBytes a n = some bs ↔ bs.length = n ∧ ∀ i, i < n → m.read (a + i) = bs[i]? := by
  induction n generalizing a bs with
  | zero =>
    simp only [Memory.readBytes, Option.some.injEq, Nat.not_lt_zero, false_imp_iff, implies_true, and_true]
    exact ⟨fun h => by simp [← h], fun h => (List.length_eq_zero_iff.mp h).symm⟩
  | succ n ih =>
    simp only [Memory.readBytes]
    constructor
    · intro h
      split at h
      · simp at h
      · rename_i b hb
        split at h
        · simp at h
        · rename_i t ht
          obtain ⟨hl, hr⟩ := (ih (a + 1) t).mp ht
          simp only [Option.some.injEq] at h
          subst h
          refine ⟨by simp [hl], fun i hi => ?_⟩
          cases i with
          | zero => simpa using hb
          | succ i =>
            have hx := hr i (by omega)
            rw [show a + (i + 1) = a + 1 + i by omega, hx]
            simp
    · rintro ⟨hl, hr⟩
      cases bs with
      | nil => simp at hl
      | cons b t =>
        have h0 : m.read a = some b := by simpa using hr 0 (by omega)
        have ht : m.readBytes (a + 1) n = some t := by
          refine (ih (a + 1) t).mpr ⟨by simpa using hl, fun i hi => ?_⟩
          have hx := hr (i + 1) (by omega)
          rw [show a + 1 + i = a + (i + 1) by omega, hx]
          simp
        simp [h0, ht]

/-- `readBytes` answers nothing exactly when one of the bytes was never written. -/
theorem Memory.readBytes_eq_none_iff (m : Memory) (a n : Nat) :
    m.readBytes a n = none ↔ ∃ i, i < n ∧ m.read (a + i) = none := by
  induction n generalizing a with
  | zero => simp [Memory.readBytes]
  | succ n ih =>
    simp only [Memory.readBytes]
    constructor
    · intro h
      split at h
      · rename_i hb
        exact ⟨0, by omega, by simpa using hb⟩
      · split at h
        · rename_i ht
          obtain ⟨i, hi, hr⟩ := (ih (a + 1)).mp ht
          exact ⟨i + 1, by omega, by rw [show a + (i + 1) = a + 1 + i by omega]; exact hr⟩
        · simp at h
    · rintro ⟨i, hi, hr⟩
      cases i with
      | zero =>
        have h0 : m.read a = none := by simpa using hr
        simp [h0]
      | succ i =>
        have ht : m.readBytes (a + 1) n = none :=
          (ih (a + 1)).mpr ⟨i, by omega, by rw [show a + 1 + i = a + (i + 1) by omega]; exact hr⟩
        cases m.read a <;> simp [ht]

end Sys2Proof.Machine
end

