-- ==== Sys2Proof/Laws/Ops.lean ====
section
/-! SUPPORT. What the shared operations of a command can do (Machine/Ops.lean, Operands.lean): one inversion lemma per operation. -/

namespace Sys2Proof.Machine

variable {α β : Type}

@[simp] theorem Effect.andThen_done (a : α) (k : α → Effect β) : (Effect.done a).andThen k = k a := rfl
@[simp] theorem Effect.andThen_raise (e : ErrCode) (k : α → Effect β) : (Effect.raise e).andThen k = .raise e := rfl
@[simp] theorem Effect.andThen_stop (f : Fault) (k : α → Effect β) : (Effect.stop f).andThen k = .stop f := rfl

theorem Effect.andThen_eq_done_iff {x : Effect α} {k : α → Effect β} {b : β} :
    x.andThen k = .done b ↔ ∃ a, x = .done a ∧ k a = .done b := by
  cases x <;> simp [Effect.andThen]

theorem Effect.andThen_eq_raise_iff {x : Effect α} {k : α → Effect β} {e : ErrCode} :
    x.andThen k = .raise e ↔ x = .raise e ∨ ∃ a, x = .done a ∧ k a = .raise e := by
  cases x <;> simp [Effect.andThen]

theorem Effect.andThen_eq_stop_iff {x : Effect α} {k : α → Effect β} {f : Fault} :
    x.andThen k = .stop f ↔ x = .stop f ∨ ∃ a, x = .done a ∧ k a = .stop f := by
  cases x <;> simp [Effect.andThen]

@[simp] theorem finish_done (s t : State) : finish s (.done t) = .next t.complete := rfl
@[simp] theorem finish_raise (s : State) (e : ErrCode) : finish s (.raise e) = .next (s.raiseError e) := rfl
@[simp] theorem finish_stop (s : State) (f : Fault) : finish s (.stop f) = .fault f := rfl

/-- A completion step answers a next state in two ways: the body's own effect, or the error effect (R323). -/
theorem finish_eq_next_iff {s t : State} {x : Effect State} :
    finish s x = .next t ↔ (∃ u, x = .done u ∧ t = u.complete) ∨ ∃ e, x = .raise e ∧ t = s.raiseError e := by
  cases x <;> simp [finish, eq_comm]

theorem finish_eq_fault_iff {s : State} {x : Effect State} {f : Fault} :
    finish s x = .fault f ↔ x = .stop f := by
  cases x <;> simp [finish]

theorem finish_ne_refused (s : State) (x : Effect State) (r : Refusal) : finish s x ≠ .refused r := by
  cases x <;> simp [finish]

/-- The checks of an append pass exactly when the operand is at most 32 and the result fits (R132). -/
theorem appendCheck_eq_none_iff {raw : Bits} {nb : Nat} :
    appendCheck raw nb = none ↔ nb ≤ 32 ∧ raw.length + nb ≤ 19968 := by
  unfold appendCheck
  split_ifs <;> simp_all

/-- The codes the checks of an append can give (R132). -/
theorem appendCheck_eq_some_iff {raw : Bits} {nb : Nat} {e : ErrCode} :
    appendCheck raw nb = some e ↔
      (32 < nb ∧ e = .illegalOperand) ∨ (nb ≤ 32 ∧ 19968 < raw.length + nb ∧ e = .overflow) := by
  unfold appendCheck
  split_ifs <;> simp_all [eq_comm]

theorem legalWidth_iff {w : Nat} : legalWidth w = true ↔ w = 4 ∨ w = 6 ∨ w = 8 ∨ w = 10 ∨ w = 12 := by
  simp [legalWidth, or_assoc]

/-- The input is read exactly when its length is in range and every byte was written (R173, R352). -/
theorem State.input_eq_done_iff {s : State} {bs : List Byte} :
    s.input = .done bs ↔ s.len ≤ 8192 ∧ s.mem.readBytes 0 s.len = some bs := by
  unfold State.input
  split_ifs with h
  · simp at h; simp; omega
  · simp at h
    cases hm : s.mem.readBytes 0 s.len <;> simp [h]

theorem State.input_eq_raise_iff {s : State} {e : ErrCode} :
    s.input = .raise e ↔ 8192 < s.len ∧ e = .capacity := by
  unfold State.input
  split_ifs with h
  · simp at h; simp [h, eq_comm]
  · simp at h
    cases hm : s.mem.readBytes 0 s.len <;> simp <;> omega

theorem State.input_eq_stop_iff {s : State} {f : Fault} :
    s.input = .stop f ↔
      s.len ≤ 8192 ∧ s.mem.readBytes 0 s.len = none ∧ f = .commandReadsUnwrittenInput := by
  unfold State.input
  split_ifs with h
  · simp at h; simp; omega
  · simp at h
    cases hm : s.mem.readBytes 0 s.len <;> simp [h, eq_comm]

/-- A word holds a descriptor exactly when its reserved bits are zero and its fields are in range (R270). -/
theorem descriptorOf_eq_some_iff {v : Word} {d : Descriptor} :
    descriptorOf v = some d ↔
      v.extractLsb' 7 1 = 0#1 ∧ v.extractLsb' 20 12 = 0#12 ∧ (descriptorFields v).inRange = true ∧
        descriptorFields v = d := by
  unfold descriptorOf
  split_ifs with h
  · simp [h]
  · simp only [false_iff]
    rintro ⟨h1, h2, h3, -⟩
    exact h ⟨h1, h2, h3⟩

/-- A descriptor is in range exactly as R270 says. -/
theorem Descriptor.inRange_iff {d : Descriptor} :
    d.inRange = true ↔
      (d.form = .compact ∧ 1 ≤ d.layers ∧ d.layers ≤ 4 ∧ 1 ≤ d.k ∧ d.k ≤ 64) ∨
        (d.form = .full ∧ 1 ≤ d.layers ∧ d.layers ≤ 32 ∧ 1 ≤ d.k ∧ d.k ≤ 2048) := by
  unfold Descriptor.inRange
  cases d.form <;> simp [and_assoc]

end Sys2Proof.Machine
end

