-- ==== Sys2Proof/Laws/Commands.lean ====
section
/-! SUPPORT. What the body of each command can end with: one lemma per body and per end. A prover cites these instead of
unfolding a body. -/

namespace Sys2Proof.Machine

variable {s t : State}

theorem appendEffect_eq_done_iff {f : Bits → Nat → Nat → Bits} {nb : Nat} :
    appendEffect f nb s = .done t ↔
      (nb ≤ 32 ∧ s.raw.length + nb ≤ 19968) ∧ t = s.setRaw (f s.raw s.argValue nb) := by
  unfold appendEffect
  cases h : appendCheck s.raw nb with
  | none => simp [appendCheck_eq_none_iff.mp h, eq_comm]
  | some e =>
    simp only [reduceCtorEq, false_iff, not_and]
    intro hn
    rw [appendCheck_eq_none_iff.mpr hn] at h
    cases h

theorem appendEffect_eq_raise_iff {f : Bits → Nat → Nat → Bits} {nb : Nat} {e : ErrCode} :
    appendEffect f nb s = .raise e ↔ appendCheck s.raw nb = some e := by
  unfold appendEffect
  cases appendCheck s.raw nb <;> simp

theorem appendEffect_ne_stop {f : Bits → Nat → Nat → Bits} {nb : Nat} {g : Fault} :
    appendEffect f nb s ≠ .stop g := by
  unfold appendEffect
  cases appendCheck s.raw nb <;> simp

/-- The stuffed words are the result unless one of them is degenerate (R326). -/
theorem stuffed_eq_done_iff {w : Nat} {b : Bits} {c : List Nat} :
    stuffed w b = .done c ↔ (∀ x ∈ stuffWords w b, degenerate x = false) ∧ c = stuffPad w b := by
  unfold stuffed
  split_ifs with h
  · simp only [false_iff, not_and]
    intro hd
    obtain ⟨x, hx, hdx⟩ := List.any_eq_true.mp h
    rw [hd x hx] at hdx
    cases hdx
  · have hd : ∀ x ∈ stuffWords w b, degenerate x = false := by
      intro x hx
      by_contra hne
      exact h (List.any_eq_true.mpr ⟨x, hx, by simpa using hne⟩)
    simp only [Effect.done.injEq, eq_comm (a := c)]
    exact ⟨fun hc => ⟨hd, hc⟩, fun hc => hc.2⟩

theorem stuffed_ne_raise {w : Nat} {b : Bits} {e : ErrCode} : stuffed w b ≠ .raise e := by
  unfold stuffed; split_ifs <;> simp

theorem stuffed_eq_stop {w : Nat} {b : Bits} {f : Fault} (h : stuffed w b = .stop f) : f = .internalCondition := by
  unfold stuffed at h
  split_ifs at h
  simpa using h.symm

theorem stuffPadEffect_eq_done_iff {w : Nat} :
    stuffPadEffect w s = .done t ↔
      legalWidth w = true ∧ ∃ c, stuffed w s.raw = .done c ∧ t = s.setCw w c := by
  unfold stuffPadEffect
  split_ifs with h <;> simp [h, Effect.andThen_eq_done_iff, eq_comm (a := t)]

theorem stuffPadEffect_eq_raise_iff {w : Nat} {e : ErrCode} :
    stuffPadEffect w s = .raise e ↔ legalWidth w = false ∧ e = .illegalOperand := by
  unfold stuffPadEffect
  split_ifs with h <;> simp [h, Effect.andThen_eq_raise_iff, stuffed_ne_raise, eq_comm (a := e)]

theorem parityEffect_eq_done_iff {w r : Nat} {d p : List Nat} :
    parityEffect w r d = .done p ↔ (parity w r d).length = r ∧ p = parity w r d := by
  unfold parityEffect
  split_ifs with h <;> simp [h, eq_comm]

theorem parityEffect_ne_raise {w r : Nat} {d : List Nat} {e : ErrCode} : parityEffect w r d ≠ .raise e := by
  unfold parityEffect; split_ifs <;> simp

theorem rsParityEffect_eq_done_iff {r : Nat} :
    rsParityEffect r s = .done t ↔
      s.cwW ≠ 0 ∧ s.cw.length + r ≤ 2 ^ s.cwW - 1 ∧
        ∃ p, parityEffect s.cwW r s.cw = .done p ∧ t = s.setCw s.cwW (s.cw ++ p) := by
  unfold rsParityEffect
  split_ifs with h h'
  · simp [h]
  · simp only [false_iff, not_and]
    intro _ hle
    omega
  · simp [h, Nat.le_of_not_lt h', Effect.andThen_eq_done_iff, eq_comm (a := t)]

theorem rsParityEffect_eq_raise_iff {r : Nat} {e : ErrCode} :
    rsParityEffect r s = .raise e ↔
      (s.cwW = 0 ∧ e = .stateError) ∨
        (s.cwW ≠ 0 ∧ 2 ^ s.cwW - 1 < s.cw.length + r ∧ e = .illegalOperand) := by
  unfold rsParityEffect
  split_ifs with h h'
  · simp [h, eq_comm]
  · simp [h, h', eq_comm]
  · simp [h, h', Effect.andThen_eq_raise_iff, parityEffect_ne_raise]

theorem sizeSelectEffect_eq_done_iff :
    sizeSelectEffect s = .done t ↔
      ∃ y c, sizeSelect s.raw = some y ∧ stuffed y.width s.raw = .done c ∧ t = selectInto s y c := by
  unfold sizeSelectEffect
  cases sizeSelect s.raw <;> simp [Effect.andThen_eq_done_iff, eq_comm (a := t)]

theorem sizeSelectEffect_eq_raise_iff {e : ErrCode} :
    sizeSelectEffect s = .raise e ↔ sizeSelect s.raw = none ∧ e = .capacity := by
  unfold sizeSelectEffect
  cases sizeSelect s.raw <;> simp [Effect.andThen_eq_raise_iff, stuffed_ne_raise, eq_comm (a := e)]

theorem modeMessage_ne_raise {d : Descriptor} {e : ErrCode} : modeMessage d ≠ .raise e := by
  unfold modeMessage
  simp [Effect.andThen_eq_raise_iff, parityEffect_ne_raise]

theorem modeMessageEffect_eq_done_iff {v : Word} :
    modeMessageEffect v s = .done t ↔
      ∃ d b, descriptorOf v = some d ∧ modeMessage d = .done b ∧ t = s.setMm b := by
  unfold modeMessageEffect
  cases descriptorOf v <;> simp [Effect.andThen_eq_done_iff, eq_comm (a := t)]

theorem modeMessageEffect_eq_raise_iff {v : Word} {e : ErrCode} :
    modeMessageEffect v s = .raise e ↔ descriptorOf v = none ∧ e = .illegalOperand := by
  unfold modeMessageEffect
  cases descriptorOf v <;> simp [Effect.andThen_eq_raise_iff, modeMessage_ne_raise, eq_comm (a := e)]

theorem layoutMatrix_eq_done_iff {y : Symbol} {c : List Nat} {b : Bits} {m : List (BitVec 151)} :
    layoutMatrix y c b = .done m ↔
      (∀ p ∈ darkModules y c b, p.1 < y.side ∧ p.2 < y.side) ∧ m = paint (darkModules y c b) := by
  unfold layoutMatrix
  split_ifs with h
  · simp only [List.all_eq_true, Bool.and_eq_true, decide_eq_true_eq] at h
    simp only [Effect.done.injEq, eq_comm (a := m)]
    exact ⟨fun hm => ⟨h, hm⟩, fun hm => hm.2⟩
  · simp only [List.all_eq_true, Bool.and_eq_true, decide_eq_true_eq] at h
    simp only [false_iff, not_and]
    exact fun hp => absurd hp h

theorem layoutMatrix_ne_raise {y : Symbol} {c : List Nat} {b : Bits} {e : ErrCode} :
    layoutMatrix y c b ≠ .raise e := by
  unfold layoutMatrix; split_ifs <;> simp

theorem layoutEffect_eq_done_iff {v : Word} :
    layoutEffect v s = .done t ↔
      ∃ d m, descriptorOf v = some d ∧ s.cwW = d.symbol.width ∧ s.cw.length = d.symbol.total ∧
        s.mm.length = d.form.modeBits ∧ layoutMatrix d.symbol s.cw s.mm = .done m ∧ t = s.setMat m := by
  unfold layoutEffect
  cases h : descriptorOf v with
  | none => simp
  | some d =>
    simp only [Option.some.injEq, exists_and_left, exists_eq_left']
    split_ifs with h1 h2
    · simp only [false_iff, not_and, not_exists]
      intro a b
      rcases h1 with h1 | h1
      · exact absurd a h1
      · exact absurd b h1
    · simp [h2]
    · push Not at h1 h2
      simp [h1, h2, Effect.andThen_eq_done_iff, eq_comm (a := t)]

theorem layoutEffect_eq_raise_iff {v : Word} {e : ErrCode} :
    layoutEffect v s = .raise e ↔
      (descriptorOf v = none ∧ e = .illegalOperand) ∨
        ∃ d, descriptorOf v = some d ∧
          (s.cwW ≠ d.symbol.width ∨ s.cw.length ≠ d.symbol.total ∨ s.mm.length ≠ d.form.modeBits) ∧
            e = .stateError := by
  unfold layoutEffect
  cases h : descriptorOf v with
  | none => simp [eq_comm]
  | some d =>
    simp only [reduceCtorEq, false_and, Option.some.injEq, exists_eq_left', false_or]
    split_ifs with h1 h2
    · have h3 : s.cwW ≠ d.symbol.width ∨ s.cw.length ≠ d.symbol.total ∨ s.mm.length ≠ d.form.modeBits := by tauto
      simp [h3, eq_comm]
    · simp [h2, eq_comm]
    · push Not at h1 h2
      simp [h1, h2, Effect.andThen_eq_raise_iff, layoutMatrix_ne_raise]

/-- `encodeBytes` answers the raw stream exactly when the encoder has one of at most 19968 bits (R173). -/
theorem encodeBytes_eq_done_iff {bs : List Byte} {b : Bits} :
    encodeBytes bs = .done b ↔ ∃ ts, modeTokens bs = some ts ∧ (tokensRaw ts).length ≤ 19968 ∧ b = tokensRaw ts := by
  unfold encodeBytes
  cases modeTokens bs with
  | none => simp
  | some ts =>
    simp only [Option.some.injEq, exists_eq_left']
    split_ifs with h
    · simp only [Config.rawMax_eq] at h
      simp only [false_iff, not_and]
      omega
    · simp only [Config.rawMax_eq, not_lt] at h
      simp [h, eq_comm]

theorem modeEncodeEffect_eq_done_iff :
    modeEncodeEffect s = .done t ↔ ∃ bs b, s.input = .done bs ∧ encodeBytes bs = .done b ∧ t = s.setRaw b := by
  unfold modeEncodeEffect
  simp [Effect.andThen_eq_done_iff, eq_comm (a := t)]

theorem modeEncodeEffect_eq_raise_iff {e : ErrCode} :
    modeEncodeEffect s = .raise e ↔ s.input = .raise e ∨ ∃ bs, s.input = .done bs ∧ encodeBytes bs = .raise e := by
  unfold modeEncodeEffect
  simp [Effect.andThen_eq_raise_iff]

end Sys2Proof.Machine
end

