-- ==== Sys2Proof/Laws/State.lean ====
section
/-! SUPPORT. What each named update of the state (Machine/Ops.lean, Bus.lean, Engine.lean) leaves in each field: one lemma per
field per update, so that no later proof unfolds a record update. -/

namespace Sys2Proof.Machine

variable (s : State)

@[simp] theorem State.complete_eng : (s.complete).eng = .idle := rfl
@[simp] theorem State.complete_cmd : (s.complete).cmd = s.cmd := rfl
@[simp] theorem State.complete_arg : (s.complete).arg = s.arg := rfl
@[simp] theorem State.complete_inLen : (s.complete).inLen = s.inLen := rfl
@[simp] theorem State.complete_done : (s.complete).done = true := rfl
@[simp] theorem State.complete_err : (s.complete).err = .ok := rfl
@[simp] theorem State.complete_raw : (s.complete).raw = s.raw := rfl
@[simp] theorem State.complete_cw : (s.complete).cw = s.cw := rfl
@[simp] theorem State.complete_cwW : (s.complete).cwW = s.cwW := rfl
@[simp] theorem State.complete_res0 : (s.complete).res0 = s.res0 := rfl
@[simp] theorem State.complete_res1 : (s.complete).res1 = s.res1 := rfl
@[simp] theorem State.complete_mm : (s.complete).mm = s.mm := rfl
@[simp] theorem State.complete_mem : (s.complete).mem = s.mem := rfl
@[simp] theorem State.complete_mat : (s.complete).mat = s.mat := rfl
@[simp] theorem State.complete_matWritten : (s.complete).matWritten = s.matWritten := rfl
@[simp] theorem State.complete_inputs : (s.complete).inputs = s.inputs := rfl
@[simp] theorem State.complete_seen : (s.complete).seen = s.seen := rfl
@[simp] theorem State.complete_wait : (s.complete).wait = s.wait := rfl
@[simp] theorem State.complete_draws : (s.complete).draws = s.draws := rfl

@[simp] theorem State.raiseError_eng (e : ErrCode) : (s.raiseError e).eng = .idle := rfl
@[simp] theorem State.raiseError_cmd (e : ErrCode) : (s.raiseError e).cmd = s.cmd := rfl
@[simp] theorem State.raiseError_arg (e : ErrCode) : (s.raiseError e).arg = s.arg := rfl
@[simp] theorem State.raiseError_inLen (e : ErrCode) : (s.raiseError e).inLen = s.inLen := rfl
@[simp] theorem State.raiseError_done (e : ErrCode) : (s.raiseError e).done = true := rfl
@[simp] theorem State.raiseError_err (e : ErrCode) : (s.raiseError e).err = e := rfl
@[simp] theorem State.raiseError_raw (e : ErrCode) : (s.raiseError e).raw = s.raw := rfl
@[simp] theorem State.raiseError_cw (e : ErrCode) : (s.raiseError e).cw = s.cw := rfl
@[simp] theorem State.raiseError_cwW (e : ErrCode) : (s.raiseError e).cwW = s.cwW := rfl
@[simp] theorem State.raiseError_res0 (e : ErrCode) : (s.raiseError e).res0 = s.res0 := rfl
@[simp] theorem State.raiseError_res1 (e : ErrCode) : (s.raiseError e).res1 = s.res1 := rfl
@[simp] theorem State.raiseError_mm (e : ErrCode) : (s.raiseError e).mm = s.mm := rfl
@[simp] theorem State.raiseError_mem (e : ErrCode) : (s.raiseError e).mem = s.mem := rfl
@[simp] theorem State.raiseError_mat (e : ErrCode) : (s.raiseError e).mat = s.mat := rfl
@[simp] theorem State.raiseError_matWritten (e : ErrCode) : (s.raiseError e).matWritten = s.matWritten := rfl
@[simp] theorem State.raiseError_inputs (e : ErrCode) : (s.raiseError e).inputs = s.inputs := rfl
@[simp] theorem State.raiseError_seen (e : ErrCode) : (s.raiseError e).seen = s.seen := rfl
@[simp] theorem State.raiseError_wait (e : ErrCode) : (s.raiseError e).wait = s.wait := rfl
@[simp] theorem State.raiseError_draws (e : ErrCode) : (s.raiseError e).draws = s.draws := rfl

@[simp] theorem State.start_eng (v : Word) (n : Nat) : (s.start v n).eng = .busy v := rfl
@[simp] theorem State.start_cmd (v : Word) (n : Nat) : (s.start v n).cmd = v := rfl
@[simp] theorem State.start_arg (v : Word) (n : Nat) : (s.start v n).arg = s.arg := rfl
@[simp] theorem State.start_inLen (v : Word) (n : Nat) : (s.start v n).inLen = s.inLen := rfl
@[simp] theorem State.start_done (v : Word) (n : Nat) : (s.start v n).done = false := rfl
@[simp] theorem State.start_err (v : Word) (n : Nat) : (s.start v n).err = .ok := rfl
@[simp] theorem State.start_raw (v : Word) (n : Nat) : (s.start v n).raw = s.raw := rfl
@[simp] theorem State.start_cw (v : Word) (n : Nat) : (s.start v n).cw = s.cw := rfl
@[simp] theorem State.start_cwW (v : Word) (n : Nat) : (s.start v n).cwW = s.cwW := rfl
@[simp] theorem State.start_res0 (v : Word) (n : Nat) : (s.start v n).res0 = s.res0 := rfl
@[simp] theorem State.start_res1 (v : Word) (n : Nat) : (s.start v n).res1 = s.res1 := rfl
@[simp] theorem State.start_mm (v : Word) (n : Nat) : (s.start v n).mm = s.mm := rfl
@[simp] theorem State.start_mem (v : Word) (n : Nat) : (s.start v n).mem = s.mem := rfl
@[simp] theorem State.start_mat (v : Word) (n : Nat) : (s.start v n).mat = s.mat := rfl
@[simp] theorem State.start_matWritten (v : Word) (n : Nat) : (s.start v n).matWritten = s.matWritten := rfl
@[simp] theorem State.start_inputs (v : Word) (n : Nat) : (s.start v n).inputs = s.inputs := rfl
@[simp] theorem State.start_seen (v : Word) (n : Nat) : (s.start v n).seen = s.seen := rfl
@[simp] theorem State.start_wait (v : Word) (n : Nat) : (s.start v n).wait = n := rfl
@[simp] theorem State.start_draws (v : Word) (n : Nat) : (s.start v n).draws = s.draws := rfl

@[simp] theorem State.setRaw_eng (b : Bits) : (s.setRaw b).eng = s.eng := rfl
@[simp] theorem State.setRaw_cmd (b : Bits) : (s.setRaw b).cmd = s.cmd := rfl
@[simp] theorem State.setRaw_arg (b : Bits) : (s.setRaw b).arg = s.arg := rfl
@[simp] theorem State.setRaw_inLen (b : Bits) : (s.setRaw b).inLen = s.inLen := rfl
@[simp] theorem State.setRaw_done (b : Bits) : (s.setRaw b).done = s.done := rfl
@[simp] theorem State.setRaw_err (b : Bits) : (s.setRaw b).err = s.err := rfl
@[simp] theorem State.setRaw_raw (b : Bits) : (s.setRaw b).raw = b := rfl
@[simp] theorem State.setRaw_cw (b : Bits) : (s.setRaw b).cw = s.cw := rfl
@[simp] theorem State.setRaw_cwW (b : Bits) : (s.setRaw b).cwW = s.cwW := rfl
@[simp] theorem State.setRaw_res0 (b : Bits) : (s.setRaw b).res0 = s.res0 := rfl
@[simp] theorem State.setRaw_res1 (b : Bits) : (s.setRaw b).res1 = s.res1 := rfl
@[simp] theorem State.setRaw_mm (b : Bits) : (s.setRaw b).mm = s.mm := rfl
@[simp] theorem State.setRaw_mem (b : Bits) : (s.setRaw b).mem = s.mem := rfl
@[simp] theorem State.setRaw_mat (b : Bits) : (s.setRaw b).mat = s.mat := rfl
@[simp] theorem State.setRaw_matWritten (b : Bits) : (s.setRaw b).matWritten = s.matWritten := rfl
@[simp] theorem State.setRaw_inputs (b : Bits) : (s.setRaw b).inputs = s.inputs := rfl
@[simp] theorem State.setRaw_seen (b : Bits) : (s.setRaw b).seen = s.seen := rfl
@[simp] theorem State.setRaw_wait (b : Bits) : (s.setRaw b).wait = s.wait := rfl
@[simp] theorem State.setRaw_draws (b : Bits) : (s.setRaw b).draws = s.draws := rfl

@[simp] theorem State.setCw_eng (w : Nat) (c : List Nat) : (s.setCw w c).eng = s.eng := rfl
@[simp] theorem State.setCw_cmd (w : Nat) (c : List Nat) : (s.setCw w c).cmd = s.cmd := rfl
@[simp] theorem State.setCw_arg (w : Nat) (c : List Nat) : (s.setCw w c).arg = s.arg := rfl
@[simp] theorem State.setCw_inLen (w : Nat) (c : List Nat) : (s.setCw w c).inLen = s.inLen := rfl
@[simp] theorem State.setCw_done (w : Nat) (c : List Nat) : (s.setCw w c).done = s.done := rfl
@[simp] theorem State.setCw_err (w : Nat) (c : List Nat) : (s.setCw w c).err = s.err := rfl
@[simp] theorem State.setCw_raw (w : Nat) (c : List Nat) : (s.setCw w c).raw = s.raw := rfl
@[simp] theorem State.setCw_cw (w : Nat) (c : List Nat) : (s.setCw w c).cw = c := rfl
@[simp] theorem State.setCw_cwW (w : Nat) (c : List Nat) : (s.setCw w c).cwW = w := rfl
@[simp] theorem State.setCw_res0 (w : Nat) (c : List Nat) : (s.setCw w c).res0 = s.res0 := rfl
@[simp] theorem State.setCw_res1 (w : Nat) (c : List Nat) : (s.setCw w c).res1 = s.res1 := rfl
@[simp] theorem State.setCw_mm (w : Nat) (c : List Nat) : (s.setCw w c).mm = s.mm := rfl
@[simp] theorem State.setCw_mem (w : Nat) (c : List Nat) : (s.setCw w c).mem = s.mem := rfl
@[simp] theorem State.setCw_mat (w : Nat) (c : List Nat) : (s.setCw w c).mat = s.mat := rfl
@[simp] theorem State.setCw_matWritten (w : Nat) (c : List Nat) : (s.setCw w c).matWritten = s.matWritten := rfl
@[simp] theorem State.setCw_inputs (w : Nat) (c : List Nat) : (s.setCw w c).inputs = s.inputs := rfl
@[simp] theorem State.setCw_seen (w : Nat) (c : List Nat) : (s.setCw w c).seen = s.seen := rfl
@[simp] theorem State.setCw_wait (w : Nat) (c : List Nat) : (s.setCw w c).wait = s.wait := rfl
@[simp] theorem State.setCw_draws (w : Nat) (c : List Nat) : (s.setCw w c).draws = s.draws := rfl

@[simp] theorem State.setRes_eng (a : Word) (b : Word) : (s.setRes a b).eng = s.eng := rfl
@[simp] theorem State.setRes_cmd (a : Word) (b : Word) : (s.setRes a b).cmd = s.cmd := rfl
@[simp] theorem State.setRes_arg (a : Word) (b : Word) : (s.setRes a b).arg = s.arg := rfl
@[simp] theorem State.setRes_inLen (a : Word) (b : Word) : (s.setRes a b).inLen = s.inLen := rfl
@[simp] theorem State.setRes_done (a : Word) (b : Word) : (s.setRes a b).done = s.done := rfl
@[simp] theorem State.setRes_err (a : Word) (b : Word) : (s.setRes a b).err = s.err := rfl
@[simp] theorem State.setRes_raw (a : Word) (b : Word) : (s.setRes a b).raw = s.raw := rfl
@[simp] theorem State.setRes_cw (a : Word) (b : Word) : (s.setRes a b).cw = s.cw := rfl
@[simp] theorem State.setRes_cwW (a : Word) (b : Word) : (s.setRes a b).cwW = s.cwW := rfl
@[simp] theorem State.setRes_res0 (a : Word) (b : Word) : (s.setRes a b).res0 = a := rfl
@[simp] theorem State.setRes_res1 (a : Word) (b : Word) : (s.setRes a b).res1 = b := rfl
@[simp] theorem State.setRes_mm (a : Word) (b : Word) : (s.setRes a b).mm = s.mm := rfl
@[simp] theorem State.setRes_mem (a : Word) (b : Word) : (s.setRes a b).mem = s.mem := rfl
@[simp] theorem State.setRes_mat (a : Word) (b : Word) : (s.setRes a b).mat = s.mat := rfl
@[simp] theorem State.setRes_matWritten (a : Word) (b : Word) : (s.setRes a b).matWritten = s.matWritten := rfl
@[simp] theorem State.setRes_inputs (a : Word) (b : Word) : (s.setRes a b).inputs = s.inputs := rfl
@[simp] theorem State.setRes_seen (a : Word) (b : Word) : (s.setRes a b).seen = s.seen := rfl
@[simp] theorem State.setRes_wait (a : Word) (b : Word) : (s.setRes a b).wait = s.wait := rfl
@[simp] theorem State.setRes_draws (a : Word) (b : Word) : (s.setRes a b).draws = s.draws := rfl

@[simp] theorem State.setMm_eng (b : Bits) : (s.setMm b).eng = s.eng := rfl
@[simp] theorem State.setMm_cmd (b : Bits) : (s.setMm b).cmd = s.cmd := rfl
@[simp] theorem State.setMm_arg (b : Bits) : (s.setMm b).arg = s.arg := rfl
@[simp] theorem State.setMm_inLen (b : Bits) : (s.setMm b).inLen = s.inLen := rfl
@[simp] theorem State.setMm_done (b : Bits) : (s.setMm b).done = s.done := rfl
@[simp] theorem State.setMm_err (b : Bits) : (s.setMm b).err = s.err := rfl
@[simp] theorem State.setMm_raw (b : Bits) : (s.setMm b).raw = s.raw := rfl
@[simp] theorem State.setMm_cw (b : Bits) : (s.setMm b).cw = s.cw := rfl
@[simp] theorem State.setMm_cwW (b : Bits) : (s.setMm b).cwW = s.cwW := rfl
@[simp] theorem State.setMm_res0 (b : Bits) : (s.setMm b).res0 = s.res0 := rfl
@[simp] theorem State.setMm_res1 (b : Bits) : (s.setMm b).res1 = s.res1 := rfl
@[simp] theorem State.setMm_mm (b : Bits) : (s.setMm b).mm = b := rfl
@[simp] theorem State.setMm_mem (b : Bits) : (s.setMm b).mem = s.mem := rfl
@[simp] theorem State.setMm_mat (b : Bits) : (s.setMm b).mat = s.mat := rfl
@[simp] theorem State.setMm_matWritten (b : Bits) : (s.setMm b).matWritten = s.matWritten := rfl
@[simp] theorem State.setMm_inputs (b : Bits) : (s.setMm b).inputs = s.inputs := rfl
@[simp] theorem State.setMm_seen (b : Bits) : (s.setMm b).seen = s.seen := rfl
@[simp] theorem State.setMm_wait (b : Bits) : (s.setMm b).wait = s.wait := rfl
@[simp] theorem State.setMm_draws (b : Bits) : (s.setMm b).draws = s.draws := rfl

@[simp] theorem State.setMat_eng (m : List (BitVec 151)) : (s.setMat m).eng = s.eng := rfl
@[simp] theorem State.setMat_cmd (m : List (BitVec 151)) : (s.setMat m).cmd = s.cmd := rfl
@[simp] theorem State.setMat_arg (m : List (BitVec 151)) : (s.setMat m).arg = s.arg := rfl
@[simp] theorem State.setMat_inLen (m : List (BitVec 151)) : (s.setMat m).inLen = s.inLen := rfl
@[simp] theorem State.setMat_done (m : List (BitVec 151)) : (s.setMat m).done = s.done := rfl
@[simp] theorem State.setMat_err (m : List (BitVec 151)) : (s.setMat m).err = s.err := rfl
@[simp] theorem State.setMat_raw (m : List (BitVec 151)) : (s.setMat m).raw = s.raw := rfl
@[simp] theorem State.setMat_cw (m : List (BitVec 151)) : (s.setMat m).cw = s.cw := rfl
@[simp] theorem State.setMat_cwW (m : List (BitVec 151)) : (s.setMat m).cwW = s.cwW := rfl
@[simp] theorem State.setMat_res0 (m : List (BitVec 151)) : (s.setMat m).res0 = s.res0 := rfl
@[simp] theorem State.setMat_res1 (m : List (BitVec 151)) : (s.setMat m).res1 = s.res1 := rfl
@[simp] theorem State.setMat_mm (m : List (BitVec 151)) : (s.setMat m).mm = s.mm := rfl
@[simp] theorem State.setMat_mem (m : List (BitVec 151)) : (s.setMat m).mem = s.mem := rfl
@[simp] theorem State.setMat_mat (m : List (BitVec 151)) : (s.setMat m).mat = m := rfl
@[simp] theorem State.setMat_matWritten (m : List (BitVec 151)) : (s.setMat m).matWritten = true := rfl
@[simp] theorem State.setMat_inputs (m : List (BitVec 151)) : (s.setMat m).inputs = s.inputs := rfl
@[simp] theorem State.setMat_seen (m : List (BitVec 151)) : (s.setMat m).seen = s.seen := rfl
@[simp] theorem State.setMat_wait (m : List (BitVec 151)) : (s.setMat m).wait = s.wait := rfl
@[simp] theorem State.setMat_draws (m : List (BitVec 151)) : (s.setMat m).draws = s.draws := rfl

@[simp] theorem State.setArg_eng (v : Word) : (s.setArg v).eng = s.eng := rfl
@[simp] theorem State.setArg_cmd (v : Word) : (s.setArg v).cmd = s.cmd := rfl
@[simp] theorem State.setArg_arg (v : Word) : (s.setArg v).arg = v := rfl
@[simp] theorem State.setArg_inLen (v : Word) : (s.setArg v).inLen = s.inLen := rfl
@[simp] theorem State.setArg_done (v : Word) : (s.setArg v).done = s.done := rfl
@[simp] theorem State.setArg_err (v : Word) : (s.setArg v).err = s.err := rfl
@[simp] theorem State.setArg_raw (v : Word) : (s.setArg v).raw = s.raw := rfl
@[simp] theorem State.setArg_cw (v : Word) : (s.setArg v).cw = s.cw := rfl
@[simp] theorem State.setArg_cwW (v : Word) : (s.setArg v).cwW = s.cwW := rfl
@[simp] theorem State.setArg_res0 (v : Word) : (s.setArg v).res0 = s.res0 := rfl
@[simp] theorem State.setArg_res1 (v : Word) : (s.setArg v).res1 = s.res1 := rfl
@[simp] theorem State.setArg_mm (v : Word) : (s.setArg v).mm = s.mm := rfl
@[simp] theorem State.setArg_mem (v : Word) : (s.setArg v).mem = s.mem := rfl
@[simp] theorem State.setArg_mat (v : Word) : (s.setArg v).mat = s.mat := rfl
@[simp] theorem State.setArg_matWritten (v : Word) : (s.setArg v).matWritten = s.matWritten := rfl
@[simp] theorem State.setArg_inputs (v : Word) : (s.setArg v).inputs = s.inputs := rfl
@[simp] theorem State.setArg_seen (v : Word) : (s.setArg v).seen = s.seen := rfl
@[simp] theorem State.setArg_wait (v : Word) : (s.setArg v).wait = s.wait := rfl
@[simp] theorem State.setArg_draws (v : Word) : (s.setArg v).draws = s.draws := rfl

@[simp] theorem State.setInLen_eng (v : Word) : (s.setInLen v).eng = s.eng := rfl
@[simp] theorem State.setInLen_cmd (v : Word) : (s.setInLen v).cmd = s.cmd := rfl
@[simp] theorem State.setInLen_arg (v : Word) : (s.setInLen v).arg = s.arg := rfl
@[simp] theorem State.setInLen_inLen (v : Word) : (s.setInLen v).inLen = v.extractLsb' 0 16 := rfl
@[simp] theorem State.setInLen_done (v : Word) : (s.setInLen v).done = s.done := rfl
@[simp] theorem State.setInLen_err (v : Word) : (s.setInLen v).err = s.err := rfl
@[simp] theorem State.setInLen_raw (v : Word) : (s.setInLen v).raw = s.raw := rfl
@[simp] theorem State.setInLen_cw (v : Word) : (s.setInLen v).cw = s.cw := rfl
@[simp] theorem State.setInLen_cwW (v : Word) : (s.setInLen v).cwW = s.cwW := rfl
@[simp] theorem State.setInLen_res0 (v : Word) : (s.setInLen v).res0 = s.res0 := rfl
@[simp] theorem State.setInLen_res1 (v : Word) : (s.setInLen v).res1 = s.res1 := rfl
@[simp] theorem State.setInLen_mm (v : Word) : (s.setInLen v).mm = s.mm := rfl
@[simp] theorem State.setInLen_mem (v : Word) : (s.setInLen v).mem = s.mem := rfl
@[simp] theorem State.setInLen_mat (v : Word) : (s.setInLen v).mat = s.mat := rfl
@[simp] theorem State.setInLen_matWritten (v : Word) : (s.setInLen v).matWritten = s.matWritten := rfl
@[simp] theorem State.setInLen_inputs (v : Word) : (s.setInLen v).inputs = s.inputs := rfl
@[simp] theorem State.setInLen_seen (v : Word) : (s.setInLen v).seen = s.seen := rfl
@[simp] theorem State.setInLen_wait (v : Word) : (s.setInLen v).wait = s.wait := rfl
@[simp] theorem State.setInLen_draws (v : Word) : (s.setInLen v).draws = s.draws := rfl

@[simp] theorem State.setMem_eng (m : Memory) : (s.setMem m).eng = s.eng := rfl
@[simp] theorem State.setMem_cmd (m : Memory) : (s.setMem m).cmd = s.cmd := rfl
@[simp] theorem State.setMem_arg (m : Memory) : (s.setMem m).arg = s.arg := rfl
@[simp] theorem State.setMem_inLen (m : Memory) : (s.setMem m).inLen = s.inLen := rfl
@[simp] theorem State.setMem_done (m : Memory) : (s.setMem m).done = s.done := rfl
@[simp] theorem State.setMem_err (m : Memory) : (s.setMem m).err = s.err := rfl
@[simp] theorem State.setMem_raw (m : Memory) : (s.setMem m).raw = s.raw := rfl
@[simp] theorem State.setMem_cw (m : Memory) : (s.setMem m).cw = s.cw := rfl
@[simp] theorem State.setMem_cwW (m : Memory) : (s.setMem m).cwW = s.cwW := rfl
@[simp] theorem State.setMem_res0 (m : Memory) : (s.setMem m).res0 = s.res0 := rfl
@[simp] theorem State.setMem_res1 (m : Memory) : (s.setMem m).res1 = s.res1 := rfl
@[simp] theorem State.setMem_mm (m : Memory) : (s.setMem m).mm = s.mm := rfl
@[simp] theorem State.setMem_mem (m : Memory) : (s.setMem m).mem = m := rfl
@[simp] theorem State.setMem_mat (m : Memory) : (s.setMem m).mat = s.mat := rfl
@[simp] theorem State.setMem_matWritten (m : Memory) : (s.setMem m).matWritten = s.matWritten := rfl
@[simp] theorem State.setMem_inputs (m : Memory) : (s.setMem m).inputs = s.inputs := rfl
@[simp] theorem State.setMem_seen (m : Memory) : (s.setMem m).seen = s.seen := rfl
@[simp] theorem State.setMem_wait (m : Memory) : (s.setMem m).wait = s.wait := rfl
@[simp] theorem State.setMem_draws (m : Memory) : (s.setMem m).draws = s.draws := rfl

@[simp] theorem State.record_eng (off : Offset) (v : Word) : (s.record off v).eng = s.eng := rfl
@[simp] theorem State.record_cmd (off : Offset) (v : Word) : (s.record off v).cmd = s.cmd := rfl
@[simp] theorem State.record_arg (off : Offset) (v : Word) : (s.record off v).arg = s.arg := rfl
@[simp] theorem State.record_inLen (off : Offset) (v : Word) : (s.record off v).inLen = s.inLen := rfl
@[simp] theorem State.record_done (off : Offset) (v : Word) : (s.record off v).done = s.done := rfl
@[simp] theorem State.record_err (off : Offset) (v : Word) : (s.record off v).err = s.err := rfl
@[simp] theorem State.record_raw (off : Offset) (v : Word) : (s.record off v).raw = s.raw := rfl
@[simp] theorem State.record_cw (off : Offset) (v : Word) : (s.record off v).cw = s.cw := rfl
@[simp] theorem State.record_cwW (off : Offset) (v : Word) : (s.record off v).cwW = s.cwW := rfl
@[simp] theorem State.record_res0 (off : Offset) (v : Word) : (s.record off v).res0 = s.res0 := rfl
@[simp] theorem State.record_res1 (off : Offset) (v : Word) : (s.record off v).res1 = s.res1 := rfl
@[simp] theorem State.record_mm (off : Offset) (v : Word) : (s.record off v).mm = s.mm := rfl
@[simp] theorem State.record_mem (off : Offset) (v : Word) : (s.record off v).mem = s.mem := rfl
@[simp] theorem State.record_mat (off : Offset) (v : Word) : (s.record off v).mat = s.mat := rfl
@[simp] theorem State.record_matWritten (off : Offset) (v : Word) : (s.record off v).matWritten = s.matWritten := rfl
@[simp] theorem State.record_inputs (off : Offset) (v : Word) : (s.record off v).inputs = s.inputs := rfl
@[simp] theorem State.record_seen (off : Offset) (v : Word) : (s.record off v).seen = ⟨off, v⟩ :: s.seen := rfl
@[simp] theorem State.record_wait (off : Offset) (v : Word) : (s.record off v).wait = s.wait := rfl
@[simp] theorem State.record_draws (off : Offset) (v : Word) : (s.record off v).draws = s.draws := rfl

@[simp] theorem State.drawn_eng : (s.drawn).eng = s.eng := rfl
@[simp] theorem State.drawn_cmd : (s.drawn).cmd = s.cmd := rfl
@[simp] theorem State.drawn_arg : (s.drawn).arg = s.arg := rfl
@[simp] theorem State.drawn_inLen : (s.drawn).inLen = s.inLen := rfl
@[simp] theorem State.drawn_done : (s.drawn).done = s.done := rfl
@[simp] theorem State.drawn_err : (s.drawn).err = s.err := rfl
@[simp] theorem State.drawn_raw : (s.drawn).raw = s.raw := rfl
@[simp] theorem State.drawn_cw : (s.drawn).cw = s.cw := rfl
@[simp] theorem State.drawn_cwW : (s.drawn).cwW = s.cwW := rfl
@[simp] theorem State.drawn_res0 : (s.drawn).res0 = s.res0 := rfl
@[simp] theorem State.drawn_res1 : (s.drawn).res1 = s.res1 := rfl
@[simp] theorem State.drawn_mm : (s.drawn).mm = s.mm := rfl
@[simp] theorem State.drawn_mem : (s.drawn).mem = s.mem := rfl
@[simp] theorem State.drawn_mat : (s.drawn).mat = s.mat := rfl
@[simp] theorem State.drawn_matWritten : (s.drawn).matWritten = s.matWritten := rfl
@[simp] theorem State.drawn_inputs : (s.drawn).inputs = s.inputs := rfl
@[simp] theorem State.drawn_seen : (s.drawn).seen = s.seen := rfl
@[simp] theorem State.drawn_wait : (s.drawn).wait = s.wait := rfl
@[simp] theorem State.drawn_draws : (s.drawn).draws = s.draws + 1 := rfl

@[simp] theorem State.setInputs_eng (is : List Input) : (s.setInputs is).eng = s.eng := rfl
@[simp] theorem State.setInputs_cmd (is : List Input) : (s.setInputs is).cmd = s.cmd := rfl
@[simp] theorem State.setInputs_arg (is : List Input) : (s.setInputs is).arg = s.arg := rfl
@[simp] theorem State.setInputs_inLen (is : List Input) : (s.setInputs is).inLen = s.inLen := rfl
@[simp] theorem State.setInputs_done (is : List Input) : (s.setInputs is).done = s.done := rfl
@[simp] theorem State.setInputs_err (is : List Input) : (s.setInputs is).err = s.err := rfl
@[simp] theorem State.setInputs_raw (is : List Input) : (s.setInputs is).raw = s.raw := rfl
@[simp] theorem State.setInputs_cw (is : List Input) : (s.setInputs is).cw = s.cw := rfl
@[simp] theorem State.setInputs_cwW (is : List Input) : (s.setInputs is).cwW = s.cwW := rfl
@[simp] theorem State.setInputs_res0 (is : List Input) : (s.setInputs is).res0 = s.res0 := rfl
@[simp] theorem State.setInputs_res1 (is : List Input) : (s.setInputs is).res1 = s.res1 := rfl
@[simp] theorem State.setInputs_mm (is : List Input) : (s.setInputs is).mm = s.mm := rfl
@[simp] theorem State.setInputs_mem (is : List Input) : (s.setInputs is).mem = s.mem := rfl
@[simp] theorem State.setInputs_mat (is : List Input) : (s.setInputs is).mat = s.mat := rfl
@[simp] theorem State.setInputs_matWritten (is : List Input) : (s.setInputs is).matWritten = s.matWritten := rfl
@[simp] theorem State.setInputs_inputs (is : List Input) : (s.setInputs is).inputs = is := rfl
@[simp] theorem State.setInputs_seen (is : List Input) : (s.setInputs is).seen = s.seen := rfl
@[simp] theorem State.setInputs_wait (is : List Input) : (s.setInputs is).wait = s.wait := rfl
@[simp] theorem State.setInputs_draws (is : List Input) : (s.setInputs is).draws = s.draws := rfl

@[simp] theorem State.tick_eng : (s.tick).eng = s.eng := rfl
@[simp] theorem State.tick_cmd : (s.tick).cmd = s.cmd := rfl
@[simp] theorem State.tick_arg : (s.tick).arg = s.arg := rfl
@[simp] theorem State.tick_inLen : (s.tick).inLen = s.inLen := rfl
@[simp] theorem State.tick_done : (s.tick).done = s.done := rfl
@[simp] theorem State.tick_err : (s.tick).err = s.err := rfl
@[simp] theorem State.tick_raw : (s.tick).raw = s.raw := rfl
@[simp] theorem State.tick_cw : (s.tick).cw = s.cw := rfl
@[simp] theorem State.tick_cwW : (s.tick).cwW = s.cwW := rfl
@[simp] theorem State.tick_res0 : (s.tick).res0 = s.res0 := rfl
@[simp] theorem State.tick_res1 : (s.tick).res1 = s.res1 := rfl
@[simp] theorem State.tick_mm : (s.tick).mm = s.mm := rfl
@[simp] theorem State.tick_mem : (s.tick).mem = s.mem := rfl
@[simp] theorem State.tick_mat : (s.tick).mat = s.mat := rfl
@[simp] theorem State.tick_matWritten : (s.tick).matWritten = s.matWritten := rfl
@[simp] theorem State.tick_inputs : (s.tick).inputs = s.inputs := rfl
@[simp] theorem State.tick_seen : (s.tick).seen = s.seen := rfl
@[simp] theorem State.tick_wait : (s.tick).wait = s.wait - 1 := rfl
@[simp] theorem State.tick_draws : (s.tick).draws = s.draws := rfl

@[simp] theorem State.platformReset_eng : s.platformReset.eng = State.reset.eng := rfl
@[simp] theorem State.platformReset_cmd : s.platformReset.cmd = State.reset.cmd := rfl
@[simp] theorem State.platformReset_arg : s.platformReset.arg = State.reset.arg := rfl
@[simp] theorem State.platformReset_inLen : s.platformReset.inLen = State.reset.inLen := rfl
@[simp] theorem State.platformReset_done : s.platformReset.done = State.reset.done := rfl
@[simp] theorem State.platformReset_err : s.platformReset.err = State.reset.err := rfl
@[simp] theorem State.platformReset_raw : s.platformReset.raw = State.reset.raw := rfl
@[simp] theorem State.platformReset_cw : s.platformReset.cw = State.reset.cw := rfl
@[simp] theorem State.platformReset_cwW : s.platformReset.cwW = State.reset.cwW := rfl
@[simp] theorem State.platformReset_res0 : s.platformReset.res0 = State.reset.res0 := rfl
@[simp] theorem State.platformReset_res1 : s.platformReset.res1 = State.reset.res1 := rfl
@[simp] theorem State.platformReset_mm : s.platformReset.mm = State.reset.mm := rfl
@[simp] theorem State.platformReset_mem : s.platformReset.mem = State.reset.mem := rfl
@[simp] theorem State.platformReset_mat : s.platformReset.mat = State.reset.mat := rfl
@[simp] theorem State.platformReset_matWritten : s.platformReset.matWritten = State.reset.matWritten := rfl
@[simp] theorem State.platformReset_inputs : s.platformReset.inputs = s.inputs := rfl
@[simp] theorem State.platformReset_seen : s.platformReset.seen = s.seen := rfl
@[simp] theorem State.platformReset_wait : s.platformReset.wait = State.reset.wait := rfl
@[simp] theorem State.platformReset_draws : s.platformReset.draws = s.draws := rfl

/-- What is left of the views of `ENG` after completion. -/
@[simp] theorem State.complete_busy : s.complete.busy = false := rfl
@[simp] theorem State.raiseError_busy (e : ErrCode) : (s.raiseError e).busy = false := rfl
@[simp] theorem State.start_busy (v : Word) (n : Nat) : (s.start v n).busy = true := rfl

theorem State.busy_eq_true_iff : s.busy = true ↔ ∃ v, s.eng = .busy v := by
  unfold State.busy; cases s.eng <;> simp

theorem State.busy_eq_false_iff : s.busy = false ↔ s.eng = .idle := by
  unfold State.busy; cases s.eng <;> simp

end Sys2Proof.Machine
end

