-- ==== Sys2Proof/Laws/Machine.lean ====
section
/-! SUPPORT. What a host access, an input and a step of the machine can do (Machine/Bus.lean, Engine.lean): one inversion lemma
each. -/

namespace Sys2Proof.Machine

variable {s t : State}

theorem busLegal_iff {off : Offset} {bytes : Nat} : busLegal off bytes = true ↔ bytes = 4 ∧ off.toNat % 4 = 0 := by
  simp [busLegal]

/-- A host read that answers a next state returned either the value of the place or a free draw; it changed nothing but the
host's record and the draw count (R79, R81). -/
theorem hostRead_eq_next_iff {off : Offset} {bytes : Nat} :
    hostRead off bytes s = .next t ↔
      busLegal off bytes = true ∧
        ((∃ v, readRegion s (region off.toNat) = .value v ∧ t = s.record off v) ∨
          (readRegion s (region off.toNat) = .anyValue ∧ t = (s.record off (Config.busyRead s.draws)).drawn)) := by
  unfold hostRead
  split_ifs with h
  · cases hr : readRegion s (region off.toNat) <;> simp [h, eq_comm]
  · simp [h]

theorem hostRead_eq_fault_iff {off : Offset} {bytes : Nat} {f : Fault} :
    hostRead off bytes s = .fault f ↔
      (busLegal off bytes = false ∧ f = .busError) ∨
        (busLegal off bytes = true ∧ readRegion s (region off.toNat) = .stop f) := by
  unfold hostRead
  split_ifs with h
  · cases hr : readRegion s (region off.toNat) <;> simp [h]
  · simp [h, eq_comm]

theorem hostWrite_eq_next_iff {off : Offset} {bytes : Nat} {v : Word} :
    hostWrite off bytes v s = .next t ↔
      busLegal off bytes = true ∧ s.busy = false ∧ t = writeRegion s (region off.toNat) v := by
  unfold hostWrite
  split_ifs with h h'
  · simp [h, h']
  · simp [h, h', eq_comm (a := t)]
  · simp [h]

theorem hostWrite_eq_fault_iff {off : Offset} {bytes : Nat} {v : Word} {f : Fault} :
    hostWrite off bytes v s = .fault f ↔
      (busLegal off bytes = false ∧ f = .busError) ∨
        (busLegal off bytes = true ∧ s.busy = true ∧ f = .hostWriteWhileBusy) := by
  unfold hostWrite
  split_ifs with h h'
  · simp [h, h', eq_comm (a := f)]
  · simp [h, h']
  · simp [h, eq_comm (a := f)]

/-- Everything one input can do. -/
theorem inputStep_eq_next_iff :
    inputStep s = .next t ↔
      (s.inputs = [] ∧ t = s) ∨
        (∃ off bytes rest, s.inputs = .read off bytes :: rest ∧ hostRead off bytes (s.setInputs rest) = .next t) ∨
          (∃ off bytes v rest,
              s.inputs = .write off bytes v :: rest ∧ hostWrite off bytes v (s.setInputs rest) = .next t) ∨
            (∃ rest, s.inputs = .waitDone :: rest ∧ t = pollStatus rest s) ∨
              ∃ rest, s.inputs = .reset :: rest ∧ t = (s.setInputs rest).platformReset := by
  unfold inputStep
  cases s.inputs with
  | nil => simp [eq_comm (a := t)]
  | cons i is => cases i <;> simp [eq_comm (a := t)]

/-- Everything one step of the machine can do. -/
theorem step_cases :
    (s.eng = .idle ∧ step s = inputStep s) ∨
      (∃ v, s.eng = .busy v ∧ s.wait = 0 ∧ step s = completeCommand v s) ∨
        ∃ v, s.eng = .busy v ∧ s.wait ≠ 0 ∧ step s = inputStep s.tick := by
  unfold step machineStep
  cases s.eng with
  | idle => simp
  | busy v => by_cases h : s.wait = 0 <;> simp [h]

/-- The completion step takes the decoded command's effect, or the ILLEGAL_COMMAND error. -/
theorem completeCommand_cases (v : Word) (s : State) :
    (∃ i, decode v = .ok i ∧ completeCommand v s = exec i s) ∨
      ∃ e, decode v = .error e ∧ completeCommand v s = .next (s.raiseError .illegalCommand) := by
  unfold completeCommand
  cases decode v <;> simp

end Sys2Proof.Machine
end

