-- ==== Sys2Proof/Laws/PerInstr.lean ====
section
/-! SUPPORT. Statements made for every command, one lemma per constructor of Instr. WordShape: the word of a command shows its
row of the match and mask table (30_encoding.md R103). -/

namespace Sys2Proof.Laws.WordShape

/-- The word of a well-formed command agrees with its row's `match` under its row's `mask` (R103). -/
def Statement (i : Instr) : Prop := WellFormed i → encode i &&& i.maskBits = i.matchBits

theorem nop : Statement .nop := fun _ => by decide

theorem bbClear : Statement .bbClear := fun _ => by decide

/-- A value of at most `n` bits, shifted to bit `k`, meets no bit of a mask that is zero there. -/
theorem operand_and_mask (x k : Nat) (p m : Word) (hp : p &&& m = p)
    (h : ∀ j, j < 32 → k ≤ j → x.testBit (j - k) = true → m.getLsbD j = false) :
    (p ||| BitVec.ofNat 32 x <<< k) &&& m = p := by
  apply BitVec.eq_of_getLsbD_eq
  intro j hj
  have hpj : (p.getLsbD j && m.getLsbD j) = p.getLsbD j := by rw [← BitVec.getLsbD_and, hp]
  rw [BitVec.getLsbD_and, BitVec.getLsbD_or, BitVec.getLsbD_shiftLeft, BitVec.getLsbD_ofNat]
  by_cases hk : k ≤ j
  · cases hx : x.testBit (j - k) with
    | false => simp [hpj]
    | true =>
      have hm := h j hj hk hx
      rw [hm] at hpj ⊢
      simpa using hpj
  · have hlt : j < k := by omega
    simp [hlt, hpj]

theorem testBit_high {x n j : Nat} (h : x < 2 ^ n) (hb : x.testBit j = true) : j < n := by
  by_contra hj
  rw [Nat.testBit_lt_two_pow (lt_of_lt_of_le h (Nat.pow_le_pow_right (by omega) (by omega)))] at hb
  cases hb

theorem bbAppendMsb (nb : Nat) : Statement (.bbAppendMsb nb) := by
  intro h
  have hn : nb < 2 ^ 6 := by simpa [WellFormed, Instr.wellFormed] using h
  refine operand_and_mask nb 8 0x00000002#32 0xFFFFC0FF#32 (by decide) fun j hj hk hx => ?_
  have := testBit_high hn hx
  have hr : j = 8 ∨ j = 9 ∨ j = 10 ∨ j = 11 ∨ j = 12 ∨ j = 13 := by omega
  rcases hr with rfl | rfl | rfl | rfl | rfl | rfl <;> decide

theorem bbAppendLsb (nb : Nat) : Statement (.bbAppendLsb nb) := by
  intro h
  have hn : nb < 2 ^ 6 := by simpa [WellFormed, Instr.wellFormed] using h
  refine operand_and_mask nb 8 0x00000003#32 0xFFFFC0FF#32 (by decide) fun j hj hk hx => ?_
  have := testBit_high hn hx
  have hr : j = 8 ∨ j = 9 ∨ j = 10 ∨ j = 11 ∨ j = 12 ∨ j = 13 := by omega
  rcases hr with rfl | rfl | rfl | rfl | rfl | rfl <;> decide

theorem modeEncode : Statement .modeEncode := fun _ => by decide

theorem stuffPad (w : Nat) : Statement (.stuffPad w) := by
  intro h
  have hn : w < 2 ^ 4 := by simpa [WellFormed, Instr.wellFormed] using h
  refine operand_and_mask w 4 0x00000005#32 0xFFFFFF0F#32 (by decide) fun j hj hk hx => ?_
  have := testBit_high hn hx
  have hr : j = 4 ∨ j = 5 ∨ j = 6 ∨ j = 7 := by omega
  rcases hr with rfl | rfl | rfl | rfl <;> decide

theorem rsParity (r : Nat) : Statement (.rsParity r) := by
  intro h
  have hn : r < 2 ^ 12 := by simpa [WellFormed, Instr.wellFormed] using h
  refine operand_and_mask r 16 0x00000006#32 0xF000FFFF#32 (by decide) fun j hj hk hx => ?_
  have := testBit_high hn hx
  have hr : j = 16 ∨ j = 17 ∨ j = 18 ∨ j = 19 ∨ j = 20 ∨ j = 21 ∨ j = 22 ∨ j = 23 ∨ j = 24 ∨ j = 25 ∨ j = 26 ∨
      j = 27 := by omega
  rcases hr with rfl | rfl | rfl | rfl | rfl | rfl | rfl | rfl | rfl | rfl | rfl | rfl <;> decide

theorem sizeSelect : Statement .sizeSelect := fun _ => by decide

theorem modeMessage : Statement .modeMessage := fun _ => by decide

theorem layout : Statement .layout := fun _ => by decide

theorem encode : Statement .encode := fun _ => by decide

end Sys2Proof.Laws.WordShape
end

