-- ==== Sys2Proof/Laws/Safety.lean ====
section
/-! SUPPORT. The costs and the first match of the choice rule are unique where they exist (41_mode_encoder.md R166, R169). What the status of a run says of its states (Safety.lean; 70_reset_and_hazards.md R366): the final state of a run is
one in which the host has just read `STATUS` with `BUSY = 0` and `DONE = 1`. -/

namespace Sys2Proof.Machine

theorem CostIs.unique {x : Mode} {s : List Byte} {m n : Nat} (hm : CostIs x s m) (hn : CostIs x s n) : m = n :=
  Nat.le_antisymm (hm.2 n hn.1) (hn.2 m hm.1)

theorem ThroughIs.unique {x : Mode} {s : List Byte} {a : Action} {m n : Nat} (hm : ThroughIs x s a m)
    (hn : ThroughIs x s a n) : m = n := by
  obtain ⟨i, hi, rfl⟩ := hm
  obtain ⟨j, hj, rfl⟩ := hn
  rw [hi.unique hj]

theorem EnterIs.unique {x : Mode} {s : List Byte} {m n : Nat} (hm : EnterIs x s m) (hn : EnterIs x s n) : m = n := by
  obtain ⟨⟨a, ha, hma⟩, hm⟩ := hm
  obtain ⟨⟨b, hb, hnb⟩, hn⟩ := hn
  exact Nat.le_antisymm (hm b hb n hnb) (hn a ha m hma)

theorem FirstIn.unique {α : Type} {l : List α} {p : α → Prop} {a b : α} (ha : FirstIn l p a) (hb : FirstIn l p b) :
    a = b := by
  obtain ⟨la, ra, rfl, hpa, hla⟩ := ha
  obtain ⟨lb, rb, h, hpb, hlb⟩ := hb
  rcases List.append_eq_append_iff.mp h with ⟨m, rfl, h2⟩ | ⟨m, rfl, h2⟩
  · cases m with
    | nil => simpa using congrArg List.head? h2
    | cons c m =>
      obtain rfl : a = c := by simpa using congrArg List.head? h2
      exact absurd hpa (hlb a (by simp))
  · cases m with
    | nil => simpa using (congrArg List.head? h2).symm
    | cons c m =>
      obtain rfl : b = c := by simpa using congrArg List.head? h2
      exact absurd hpb (hla b (by simp))

/-- The first element a search finds is the first for which the test holds. -/
theorem firstIn_of_find? {α : Type} {l : List α} {p : α → Bool} {a : α} (h : l.find? p = some a) :
    FirstIn l (fun x => p x = true) a := by
  obtain ⟨hp, before, after, rfl, hb⟩ := List.find?_eq_some_iff_append.mp h
  exact ⟨before, after, rfl, hp, fun b hmem => by simpa using hb b hmem⟩

variable {s t u : State}

theorem readsDone_iff :
    readsDone t u = true ↔ ∃ v : Word, u.seen = ⟨0x00C#16, v⟩ :: t.seen ∧ v.extractLsb' 0 2 = 2#2 := by
  unfold readsDone
  cases u.seen with
  | nil => simp
  | cons r older =>
    obtain ⟨off, v⟩ := r
    simp only [Bool.and_eq_true, beq_iff_eq, List.cons.injEq, ReadRecord.mk.injEq]
    constructor
    · rintro ⟨⟨rfl, rfl⟩, h⟩
      exact ⟨v, ⟨⟨rfl, rfl⟩, rfl⟩, h⟩
    · rintro ⟨v', ⟨⟨rfl, rfl⟩, rfl⟩, h⟩
      exact ⟨⟨rfl, rfl⟩, h⟩

/-- A status becomes `waitedFor x` only by the read that `x` is the state at, or has been it already. -/
theorem RunStatus.after_eq_waitedFor {w : RunStatus} {x : State} (h : w.after t u = .waitedFor x) :
    (w = .waiting ∧ x = u ∧ readsDone t u = true) ∨ w = .waitedFor x := by
  unfold RunStatus.after at h
  by_cases hc : t.eng = .idle ∧ u.eng ≠ .idle
  · simp [hc] at h
  · rw [if_neg hc] at h
    cases w with
    | noCommand => simp at h
    | waiting =>
      by_cases hr : readsDone t u = true
      · simp only [hr, if_true] at h
        exact Or.inl ⟨rfl, (RunStatus.waitedFor.inj h).symm, hr⟩
      · simp [hr] at h
    | waitedFor y => exact Or.inr h

/-- The state a run's status holds is one at which `STATUS` was just read with `BUSY = 0` and `DONE = 1`. -/
theorem Ran.waitedFor_read {w : RunStatus} (h : Ran s w t) (hw : w = .waitedFor u) :
    ∃ (v : Word) (older : List ReadRecord), u.seen = ⟨0x00C#16, v⟩ :: older ∧ v.extractLsb' 0 2 = 2#2 := by
  induction h with
  | start =>
    unfold RunStatus.first at hw
    split_ifs at hw
  | step _ _ ih =>
    rcases RunStatus.after_eq_waitedFor hw with ⟨_, rfl, hr⟩ | hw
    · obtain ⟨v, hs, hv⟩ := readsDone_iff.mp hr
      exact ⟨v, _, hs, hv⟩
    · exact ih hw

/-- A final state is the state at a `STATUS` read that showed the completion (R366). -/
theorem FinalState.read (h : FinalState s u) :
    ∃ (v : Word) (older : List ReadRecord), u.seen = ⟨0x00C#16, v⟩ :: older ∧ v.extractLsb' 0 2 = 2#2 := by
  obtain ⟨t, hr, _⟩ := h
  exact hr.waitedFor_read rfl

end Sys2Proof.Machine
end

