-- ==== Sys2Proof/Laws/Units.lean ====
section
/-! SUPPORT. Small lemmas of the functional units: the stuffer's lengths (42_stuffer.md R200 to R205), the lengths of the
Reed-Solomon polynomials (43_reed_solomon.md R224, R226), the symbols that exist (44_size_selector.md R250 to R258), and what a
painted matrix shows (45_layout.md R281). -/

namespace Sys2Proof.Machine

/-! Stuffer -/

/-- A stuffing step emits a codeword of `w` bits. -/
theorem stuffStep_word_length {w : Nat} {b : Bits} (hw : 1 ≤ w) (h : (b.take w).length = w) :
    (stuffStep w b).1.length = w := by
  have hb : w ≤ b.length := by simpa using h
  unfold stuffStep
  split_ifs
  · simp; omega
  · simpa using hb

/-- A stuffing step leaves fewer bits than it had. -/
theorem stuffStep_rest_length {w : Nat} {b : Bits} (hw : 2 ≤ w) (h : (b.take w).length = w) :
    (stuffStep w b).2.length < b.length := by
  have hb : w ≤ b.length := by simpa using h
  unfold stuffStep
  split_ifs <;> simp <;> omega

/-- A final codeword has `w` bits. -/
theorem finalWord_length {w : Nat} {b : Bits} (h : b.length < w) : (finalWord w b).length = w := by
  unfold finalWord
  split_ifs <;> simp <;> omega

/-- Every codeword of the loop has `w` bits, and fewer than `w` bits remain. -/
theorem stuffLoop_lengths {w : Nat} (hw : 2 ≤ w) (n : Nat) (b : Bits) (h : b.length ≤ n) :
    (∀ x ∈ (stuffLoop n w b).1, x.length = w) ∧ (stuffLoop n w b).2.length < w := by
  induction n generalizing b with
  | zero =>
    have hb : b.length = 0 := by omega
    simp only [stuffLoop, List.not_mem_nil, false_imp_iff, implies_true, true_and, hb]
    omega
  | succ n ih =>
    unfold stuffLoop
    split_ifs with ht
    · have hs := stuffStep_rest_length hw ht
      obtain ⟨h1, h2⟩ := ih (stuffStep w b).2 (by omega)
      refine ⟨fun x hx => ?_, h2⟩
      rcases List.mem_cons.mp hx with rfl | hx
      · exact stuffStep_word_length (by omega) ht
      · exact h1 x hx
    · refine ⟨by simp, ?_⟩
      by_contra hlt
      have hlt : w ≤ b.length := Nat.le_of_not_lt hlt
      exact ht (by simpa using hlt)

/-- A stuffing step drops no bit: what it emits and what it leaves are together at least as long as what it had. -/
theorem stuffStep_conserves {w : Nat} {b : Bits} (hw : 1 ≤ w) (h : (b.take w).length = w) :
    b.length ≤ w + (stuffStep w b).2.length := by
  have hb : w ≤ b.length := by simpa using h
  unfold stuffStep
  split_ifs <;> simp <;> omega

/-- The codewords of the loop and the bits it leaves are together at least as long as the source. -/
theorem stuffLoop_conserves {w : Nat} (hw : 1 ≤ w) (n : Nat) (b : Bits) :
    b.length ≤ w * (stuffLoop n w b).1.length + (stuffLoop n w b).2.length := by
  induction n generalizing b with
  | zero => simp [stuffLoop]
  | succ n ih =>
    unfold stuffLoop
    split_ifs with ht
    · have h1 := stuffStep_conserves hw ht
      have h2 := ih (stuffStep w b).2
      simp only [List.length_cons, Nat.mul_add, Nat.mul_one]
      omega
    · simp

/-- The stuffed codewords have at least as many bits as the source. -/
theorem stuffWords_conserves {w : Nat} (hw : 2 ≤ w) (b : Bits) : b.length ≤ w * (stuffWords w b).length := by
  have h1 := stuffLoop_conserves (show 1 ≤ w by omega) b.length b
  have h2 := (stuffLoop_lengths hw b.length b (Nat.le_refl _)).2
  unfold stuffWords
  split
  rename_i ws rest he
  rw [he] at h1 h2
  simp only at h1 h2
  split_ifs with hc
  · rw [List.length_append, List.length_singleton, Nat.mul_add, Nat.mul_one]
    omega
  · have hr : rest = [] := by
      by_contra hne
      exact hc (Or.inr hne)
    simpa [hr] using h1

/-! Reed-Solomon -/

@[simp] theorem mulRoot_length (w c : Nat) (p : List Nat) : (mulRoot w c p).length = p.length + 1 := by
  simp [mulRoot]

@[simp] theorem genPoly_length (w r : Nat) : (genPoly w r).length = r + 1 := by
  induction r with
  | zero => rfl
  | succ r ih => simp [genPoly, ih]

theorem remStep_length {w d : Nat} {g rem : List Nat} (h : g.length = rem.length) :
    (remStep w g rem d).length = rem.length := by
  simp only [remStep, List.length_zipWith, List.length_append, List.length_drop, List.length_cons, List.length_nil]
  omega

/-- The parity of `r` codewords has `r` codewords, whatever the data. -/
@[simp] theorem parity_length (w r : Nat) (d : List Nat) : (parity w r d).length = r := by
  have key : ∀ (d rem : List Nat), rem.length = r →
      (d.foldl (remStep w ((genPoly w r).drop 1)) rem).length = r := by
    intro d
    induction d with
    | nil => intro rem h; simpa using h
    | cons x d ih =>
      intro rem h
      rw [List.foldl_cons]
      apply ih
      rw [remStep_length (by simp [h]), h]
  exact key d _ (by simp)

/-! Symbols -/

/-- A symbol that exists has one of the four data widths (R251). -/
theorem Symbol.width_of_valid {y : Symbol} : y.width = 6 ∨ y.width = 8 ∨ y.width = 10 ∨ y.width = 12 := by
  unfold Symbol.width
  cases y.form <;> simp only <;> split_ifs <;> simp

/-- A candidate is a symbol that exists, and the other way round (R255). -/
theorem mem_candidates_iff {y : Symbol} : y ∈ candidates ↔ y.valid = true := by
  obtain ⟨f, n⟩ := y
  cases f with
  | compact =>
    simp only [candidates, List.mem_append, List.mem_map, List.mem_range, Symbol.mk.injEq, true_and, reduceCtorEq,
      false_and, and_false, exists_false, or_false, Symbol.valid, Bool.and_eq_true, decide_eq_true_eq]
    exact ⟨fun ⟨i, hi, e⟩ => by omega, fun h => ⟨n - 1, by omega, by omega⟩⟩
  | full =>
    simp only [candidates, List.mem_append, List.mem_map, List.mem_range, Symbol.mk.injEq, true_and, reduceCtorEq,
      false_and, and_false, exists_false, false_or, Symbol.valid, Bool.and_eq_true, decide_eq_true_eq]
    exact ⟨fun ⟨i, hi, e⟩ => by omega, fun h => ⟨n - 1, by omega, by omega⟩⟩

/-- The side of a symbol that exists is at most 151 (R259). -/
theorem Symbol.side_le {y : Symbol} (h : y.valid = true) : y.side ≤ 151 := by
  have key : ∀ z ∈ candidates, z.side ≤ 151 := by decide
  exact key y (mem_candidates_iff.mpr h)

/-! Painting -/

theorem rowBits_foldl_getMsbD (cols : List Nat) (acc : BitVec 151) (q : Nat) (hq : q < 151)
    (hc : ∀ c ∈ cols, c < 151) :
    (cols.foldl (fun acc q => acc ||| (1#151 <<< (150 - q))) acc).getMsbD q = (acc.getMsbD q || cols.contains q) := by
  induction cols generalizing acc with
  | nil => simp
  | cons c cols ih =>
    have hc0 : c < 151 := hc c (by simp)
    rw [List.foldl_cons, ih _ (fun x hx => hc x (by simp [hx])), BitVec.getMsbD_or, List.contains_cons]
    have e : (1#151 <<< (150 - c)).getMsbD q = (q == c) := by
      rw [BitVec.getMsbD_eq_getLsbD, BitVec.getLsbD_shiftLeft, BitVec.getLsbD_one]
      by_cases hqc : q = c
      · subst hqc
        have hz : 150 - q < 151 := by omega
        simp [hq, hz]
      · have h1 : ¬(151 - 1 - q - (150 - c) = 0 ∧ ¬151 - 1 - q < 150 - c) := by omega
        by_cases h2 : 151 - 1 - q < 150 - c
        · simp [h2, hqc]
        · have h3 : ¬151 - 1 - q - (150 - c) = 0 := fun hz => h1 ⟨hz, h2⟩
          simp [h3, hqc]
    rw [e, Bool.or_assoc]

/-- Column `q` of a painted row is dark exactly when `q` is one of its columns. -/
theorem rowBits_getMsbD (cols : List Nat) (q : Nat) (hq : q < 151) (hc : ∀ c ∈ cols, c < 151) :
    (rowBits cols).getMsbD q = cols.contains q := by
  rw [rowBits, rowBits_foldl_getMsbD cols 0#151 q hq hc]
  simp

@[simp] theorem paint_length (ds : List (Nat × Nat)) : (paint ds).length = 151 := by simp [paint]

/-- A module of a painted matrix is dark exactly when it is one of the given modules. -/
theorem paint_module (ds : List (Nat × Nat)) (r q : Nat) (hr : r < 151) (hq : q < 151) (hd : ∀ p ∈ ds, p.2 < 151) :
    ((paint ds).getD r 0#151).getMsbD q = ds.contains (r, q) := by
  have hl : r < (paint ds).length := by rw [paint_length]; exact hr
  rw [List.getD_eq_getElem?_getD, List.getElem?_eq_getElem hl, Option.getD_some]
  have hrow : (paint ds)[r] = rowBits ((ds.filter fun p => p.1 == r).map fun p => p.2) := by simp [paint]
  rw [hrow, rowBits_getMsbD _ q hq]
  · rw [Bool.eq_iff_iff]
    simp
  · intro c hc
    obtain ⟨p, hp, rfl⟩ := List.mem_map.mp hc
    exact hd p (List.mem_filter.mp hp).1

end Sys2Proof.Machine
end

