-- ==== Sys2Proof/Tests/Slice0.lean ====
section
/-! SUPPORT. The model's own tests: ill-formed terms the well-formedness check refuses, words written out from 30_encoding.md R103
and R107, the worked examples and vectors of the spec's section files, each one step on a small state, and for every claim of
Certificates/Slice0/Obligations.lean that has hypotheses a state and operands that meet them. -/

open Sys2Proof Sys2Proof.Machine

namespace Sys2Proof.Tests

/-! ## Helpers -/

/-- The next state of an outcome, and the reset state where there is none. -/
def getNext (o : Host.Outcome State Fault Refusal) : State := (nextOf o).getD State.reset

/-- The outcome is a next state. -/
def isNext (o : Host.Outcome State Fault Refusal) : Bool := (nextOf o).isSome

/-- The fault of an outcome, if it is one. -/
def faultOf (o : Host.Outcome State Fault Refusal) : Option Fault :=
  match o with
  | .next _ => none
  | .fault f => some f
  | .refused _ => none

theorem eq_next_of_isNext {o : Host.Outcome State Fault Refusal} (h : isNext o = true) : o = .next (getNext o) := by
  cases o with
  | next s => rfl
  | fault f => simp [isNext, nextOf] at h
  | refused r => simp [isNext, nextOf] at h

theorem eq_next_of_nextOf {o : Host.Outcome State Fault Refusal} {t : State} (h : nextOf o = some t) : o = .next t := by
  cases o <;> simp_all [nextOf]

theorem eq_fault_of_faultOf {o : Host.Outcome State Fault Refusal} {f : Fault} (h : faultOf o = some f) : o = .fault f := by
  cases o <;> simp_all [faultOf]

/-- Input cells from index `a` on. -/
def cells (a : Nat) : List Byte → Memory
  | [] => []
  | b :: bs => (a, b) :: cells (a + 1) bs

theorem read_cells (bs : List Byte) (a i : Nat) : (cells a bs).read (a + i) = bs[i]? := by
  induction bs generalizing a i with
  | nil => rfl
  | cons b bs ih =>
    cases i with
    | zero => simp [cells, Memory.read]
    | succ i =>
      have hne : a ≠ a + (i + 1) := by omega
      simp only [cells, Memory.read, hne, if_false]
      rw [show a + (i + 1) = a + 1 + i by omega, ih]
      simp

theorem readBytes_cells (bs : List Byte) (a : Nat) : (cells a bs).readBytes a bs.length = some bs :=
  (Memory.readBytes_eq_some_iff _ _ _ _).mpr ⟨rfl, fun i _ => read_cells bs a i⟩

/-- The reset state with an input written. -/
def withInput (bs : List Byte) : State := { State.reset with inLen := BitVec.ofNat 16 bs.length, mem := cells 0 bs }

/-- The reset state with a raw bit buffer. -/
def withRaw (b : Bits) : State := { State.reset with raw := b }

/-- The reset state with a codeword buffer. -/
def withCw (w : Nat) (c : List Nat) : State := { State.reset with cw := c, cwW := w }

/-- The reset state with ARG written. -/
def withArg (v : Word) : State := { State.reset with arg := v }

/-- The reset state with a command running that takes two more steps before its completion step. -/
def running (v : Word) : State := State.reset.start v 2

/-- The bytes of `UNIT TEST` (95_test_vectors.md). -/
def unitTest : List Byte := [0x55#8, 0x4E#8, 0x49#8, 0x54#8, 0x20#8, 0x54#8, 0x45#8, 0x53#8, 0x54#8]

/-- Bits written as 0 and 1. -/
def bits01 (b : List Nat) : Bits := b.map fun x => x == 1

/-! ## Well-formedness -/

theorem test_wellFormed_refuses_nb_msb : (Instr.bbAppendMsb 64).wellFormed = false := by decide
theorem test_wellFormed_refuses_nb_lsb : (Instr.bbAppendLsb 64).wellFormed = false := by decide
theorem test_wellFormed_refuses_w : (Instr.stuffPad 16).wellFormed = false := by decide
theorem test_wellFormed_refuses_r : (Instr.rsParity 4096).wellFormed = false := by decide
theorem test_wellFormed_admits_edges :
    (Instr.bbAppendMsb 63).wellFormed && (Instr.bbAppendLsb 63).wellFormed && (Instr.stuffPad 15).wellFormed &&
      (Instr.rsParity 4095).wellFormed = true := by decide

/-! ## Decoding. The words are written out from the field places of R100 and the rows of R103 and R107: OP in bits 3:0, W in
bits 7:4, NB in bits 13:8, R in bits 27:16. -/

theorem test_decode_nop : decode 0b00000000000000000000000000000000#32 = .ok .nop := by rfl
theorem test_decode_bbClear : decode 0b00000000000000000000000000000001#32 = .ok .bbClear := by rfl
theorem test_decode_bbAppendMsb : decode 0b00000000000000000010000000000010#32 = .ok (.bbAppendMsb 32) := by rfl
theorem test_decode_bbAppendLsb : decode 0b00000000000000000000010100000011#32 = .ok (.bbAppendLsb 5) := by rfl
theorem test_decode_modeEncode : decode 0b00000000000000000000000000000100#32 = .ok .modeEncode := by rfl
theorem test_decode_stuffPad : decode 0b00000000000000000000000011000101#32 = .ok (.stuffPad 12) := by rfl
theorem test_decode_rsParity : decode 0b00000000000010010000000000000110#32 = .ok (.rsParity 9) := by rfl
theorem test_decode_sizeSelect : decode 0b00000000000000000000000000000111#32 = .ok .sizeSelect := by rfl
theorem test_decode_modeMessage : decode 0b00000000000000000000000000001000#32 = .ok .modeMessage := by rfl
theorem test_decode_layout : decode 0b00000000000000000000000000001001#32 = .ok .layout := by rfl
theorem test_decode_encode : decode 0b00000000000000000000000000001010#32 = .ok .encode := by rfl
/-- R105: opcodes 0xB to 0xF, bits 15:14 and 31:28, and unused fields. -/
theorem test_decode_refuses :
    decode 0x0000000B#32 = .error .reservedOpcode ∧ decode 0x0000000F#32 = .error .reservedOpcode ∧
    decode 0x00004000#32 = .error .reservedBits ∧ decode 0x80000006#32 = .error .reservedBits ∧
    decode 0x00000010#32 = .error .unusedField ∧ decode 0x00000105#32 = .error .unusedField ∧
    decode 0x00010002#32 = .error .unusedField := by refine ⟨rfl, rfl, rfl, rfl, rfl, rfl, rfl⟩
/-- The host's numbering of a table word: one 32-bit word, bit 0 least significant. -/
theorem test_decodeTableWord : decodeTableWord 32 0x00090006 = some (.rsParity 9) := by rfl

/-! ## One step of each command, against the spec's vectors -/

/-- R311: `STATUS = 0x00000002`. -/
theorem test_nop_step : (nextOf (step (State.reset.withFetchWord 32 0x00000000))).map State.status = some 2#32 := by decide

/-- R133: `RAW = []`. -/
theorem test_bbClear_step : (nextOf (exec .bbClear (withRaw [true, false]))).map State.raw = some [] := by decide

/-- R131 and R134: the 5 bits of 0x13 most significant first are 1 0 0 1 1. -/
theorem test_bbAppendMsb_order :
    (nextOf (exec (.bbAppendMsb 5) (withArg 0x13#32))).map State.raw = some (bits01 [1, 0, 0, 1, 1]) := by decide

/-- R132: NB = 33 is ILLEGAL_OPERAND, code 3, so `STATUS` is 0x32. -/
theorem test_bbAppendMsb_operand :
    (nextOf (exec (.bbAppendMsb 33) State.reset)).map State.status = some 0x32#32 := by decide

/-- R131 and R135: the 5 bits of 0x13 least significant first are 1 1 0 0 1. -/
theorem test_bbAppendLsb_order :
    (nextOf (exec (.bbAppendLsb 5) (withArg 0x13#32))).map State.raw = some (bits01 [1, 1, 0, 0, 1]) := by decide

/-- R175, row `A..B`: tokens 2,5 30,5 13,4 13,4 15,4 3,5. -/
theorem test_modeTokens_digit_excursion :
    modeTokens [0x41#8, 0x2E#8, 0x2E#8, 0x42#8] =
      some [⟨2, 5⟩, ⟨30, 5⟩, ⟨13, 4⟩, ⟨13, 4⟩, ⟨15, 4⟩, ⟨3, 5⟩] := by decide +kernel

/-- R175, row `1` then byte 0x80: tokens 30,5 3,4 14,4 31,5 1,5 128,8, 31 bits. -/
theorem test_modeEncode_binary_after_digit :
    (nextOf (exec .modeEncode (withInput [0x31#8, 0x80#8]))).map State.raw =
      some (bits01 [1, 1, 1, 1, 0, 0, 0, 1, 1, 1, 1, 1, 0, 1, 1, 1, 1, 1, 0, 0, 0, 0, 1, 1, 0, 0, 0, 0, 0, 0, 0]) := by
  decide +kernel

/-- R207, row `11100000` at w = 4: words 14, 1, 3. -/
theorem test_stuffPad_vector :
    (nextOf (exec (.stuffPad 4) (withRaw (bits01 [1, 1, 1, 0, 0, 0, 0, 0])))).map State.cw = some [14, 1, 3] := by decide

/-- R208, row `111110` at w = 6: words 62, 31. -/
theorem test_stuffPad_all_ones_prefix :
    (nextOf (exec (.stuffPad 6) (withRaw (bits01 [1, 1, 1, 1, 1, 0])))).map State.cw = some [62, 31] := by decide

/-- R230, w = 8, data 1, 2, 3, 4, r = 4: parity 74, 99, 113, 105. -/
theorem test_rsParity_vector :
    (nextOf (exec (.rsParity 4) (withCw 8 [1, 2, 3, 4]))).map State.cw = some [1, 2, 3, 4, 74, 99, 113, 105] := by
  decide +kernel

/-- R224, w = 6, r = 9. -/
theorem test_genPoly_vector : genPoly 6 9 = [1, 47, 40, 5, 31, 49, 14, 47, 5, 25] := by decide +kernel

/-- R257's example, from the 45-bit stream of `UNIT TEST`: CW, CW_STAT, RES0, RES1. -/
theorem test_sizeSelect_unit_test :
    (nextOf (exec .sizeSelect (getNext (exec .modeEncode (withInput unitTest))))).map
        (fun s => (s.cw, s.cwStat, s.res0, s.res1)) =
      some ([44, 61, 21, 16, 53, 13, 18, 47], 0x00060008#32, 0x0F060100#32, 0x00080011#32) := by decide +kernel

/-- R259, rows Compact 1, Full 12 and Full 32: w, T, N, rmin, side. -/
theorem test_symbol_rows :
    [(⟨.compact, 1⟩ : Symbol), ⟨.full, 12⟩, ⟨.full, 32⟩].map
        (fun y => [y.width, y.dataBits, y.total, minParity y.total, y.side]) =
      [[6, 104, 17, 7, 15], [10, 3648, 364, 87, 67], [12, 19968, 1664, 386, 151]] := by decide

/-- R274, row Compact, 1 layer, 8 data codewords (descriptor 0 | 1 << 1 | 8 << 8). -/
theorem test_modeMessage_compact :
    (nextOf (exec .modeMessage (withArg 0x00000802#32))).map State.mm =
      some (bits01 [0, 0, 0, 0, 0, 1, 1, 1, 0, 1, 0, 0, 1, 1, 1, 1, 0, 0, 0, 1, 1, 1, 1, 0, 0, 1, 1, 1]) := by
  decide +kernel

/-- R274, row Full, 32 layers, 1278 data codewords (descriptor 1 | 32 << 1 | 1278 << 8). -/
theorem test_modeMessage_full :
    (nextOf (exec .modeMessage (withArg 0x0004FE41#32))).map State.mm =
      some ([15, 12, 15, 13, 2, 15, 12, 6, 15, 7].flatMap (msbBits 4)) := by decide +kernel

/-- The state before R292's LAYOUT. -/
def beforeLayout : State :=
  { State.reset with
    arg := 0x00000802#32
    cw := [44, 61, 21, 16, 53, 13, 18, 47, 7, 49, 41, 0, 27, 15, 42, 27, 54]
    cwW := 6
    mm := [0, 7, 4, 15, 1, 14, 7].flatMap (msbBits 4) }

/-- R292: rows 0, 7 and 14 of the UNIT TEST matrix, written as binary digits, and the first light row below it. -/
theorem test_layout_unit_test :
    (nextOf (exec .layout beforeLayout)).map
        (fun s => ([0, 7, 14, 15].map fun r => s.matWord r 0, s.matWritten)) =
      some ([0b00101110111110100000000000000000#32, 0b01010101010101000000000000000000#32,
        0b10001000111101000000000000000000#32, 0#32], true) := by decide +kernel

/-- R290: a mode message of the other form's length is STATE, code 4. -/
theorem test_layout_state_error :
    (nextOf (exec .layout State.reset)).map State.status = some 0x32#32 ∧
    (nextOf (exec .layout { beforeLayout with mm := [] })).map State.status = some 0x42#32 := by decide

/-- 95_test_vectors.md, the UNIT TEST symbol through the step: registers after ENCODE. -/
theorem test_encode_unit_test :
    (nextOf (step ((withInput unitTest).withFetchWord 32 0x0000000A))).map
        (fun s => (s.status, s.rawLen, s.cwStat, s.res0, s.res1, s.mm.length)) =
      some (2#32, 45#32, 0x00060011#32, 0x0F060100#32, 0x00080011#32, 28) := by decide +kernel

/-- R173 and R310: LEN = 8193 is CAPACITY, code 1. -/
theorem test_encode_capacity :
    (nextOf (exec .encode { State.reset with inLen := 8193#16 })).map State.status = some 0x12#32 := by decide

/-! ## Host accesses -/

/-- R74: the first byte of a written word is its least significant. -/
theorem test_input_byte_order :
    (nextOf (hostWrite 0x2004#16 4 0x44332211#32 State.reset)).map State.mem =
      some [(4, 0x11#8), (5, 0x22#8), (6, 0x33#8), (7, 0x44#8)] := by decide

/-- R75: raw bit 0 is bit 31 of word 0. -/
theorem test_raw_window : (nextOf (hostRead 0x4000#16 4 (withRaw [true]))).map (fun s => s.seen.map fun r => r.value) =
    some [0x80000000#32] := by decide

/-! ## The end of a run (R366) -/

/-- A NOP whose completion is due, a WAIT, and then a write of 7 to ARG. -/
def programEnd : State := (State.reset.withFetchWord 32 0).setInputs [.waitDone, .write 0x004#16 4 7#32]

/-- R366: the final state is the state at the STATUS read, so the later write of ARG is not in it. -/
theorem test_finalState : ∃ u, FinalState programEnd u ∧ u.arg = 0#32 ∧ u.status = 2#32 :=
  ⟨_, ⟨_, (((Ran.start (s := programEnd)).step rfl).step rfl).step rfl, rfl⟩, rfl, rfl⟩

/-- R366: a command that was started and never waited for: no final state before the STATUS read. -/
theorem test_running_is_waiting : RunStatus.first programEnd = .waiting ∧ RunStatus.first State.reset = .noCommand := by
  decide

/-! ## Witnesses: each theorem meets all hypotheses of the claim (or of the clause) it is named after -/

theorem witness_encodeThenDecode : WellFormed (.bbAppendMsb 63) ∧ WellFormed (.stuffPad 15) ∧ WellFormed (.rsParity 4095) := by
  decide

theorem witness_commandWordMatchesItsRow_unique :
    0x00003F02#32 &&& (Instr.bbAppendMsb 1).maskBits = (Instr.bbAppendMsb 1).matchBits ∧
    0x00003F02#32 &&& (Instr.bbAppendMsb 2).maskBits = (Instr.bbAppendMsb 2).matchBits := by decide

theorem witness_commandWordMatchesItsRow_none : ∀ i : Instr, 0x0000000B#32 &&& i.maskBits ≠ i.matchBits := by
  intro i
  cases i <;> simp only [Instr.maskBits, Instr.matchBits] <;> decide

theorem witness_commandWordMatchesItsRow_decodes : decode 0x00003F02#32 = .ok (.bbAppendMsb 63) := by rfl

/-- DecodeIsTotal: an illegal word by each of its tests at the first value past the legal ones, and legal words. -/
theorem witness_decodeIsTotal :
    11 = (0x0000000B#32).toNat % 16 ∧ (0x00004000#32).toNat / 16384 % 4 = 1 ∧ (0x10000000#32).toNat / 268435456 = 1 ∧
    ((0x00000014#32).toNat % 16 = 4 ∧ (0x00000014#32).toNat / 16 % 16 = 1) ∧
    ((0x00000101#32).toNat % 16 = 1 ∧ (0x00000101#32).toNat / 256 % 64 = 1) ∧
    ((0x00010005#32).toNat % 16 = 5 ∧ (0x00010005#32).toNat / 65536 % 4096 = 1) ∧
    ((0x0FFF0006#32).toNat % 16 = 6 ∧ (0x0FFF0006#32).toNat / 65536 % 4096 = 4095) := by decide

theorem witness_stepRunsDecodedCommand :
    (State.reset.withFetchWord 32 10).eng = .busy 10#32 ∧ (State.reset.withFetchWord 32 10).wait = 0 ∧
    decode 10#32 = .ok .encode ∧ WellFormed .encode := ⟨rfl, rfl, rfl, rfl⟩

theorem witness_undecodableWord :
    (State.reset.withFetchWord 32 0xB).eng = .busy 0xB#32 ∧ (State.reset.withFetchWord 32 0xB).wait = 0 ∧
    decode 0xB#32 = .error .reservedOpcode := ⟨rfl, rfl, rfl⟩

theorem witness_outsideMoves_idle : State.reset.eng = .idle ∧ State.reset.inputs = [] := ⟨rfl, rfl⟩

theorem witness_outsideMoves_busy : (running 0#32).eng = .busy 0#32 ∧ (running 0#32).wait ≠ 0 := by decide

theorem witness_outsideMoves_read :
    (State.reset.setInputs [.read 0x00C#16 4]).inputs = .read 0x00C#16 4 :: [] := rfl

theorem witness_outsideMoves_write :
    (State.reset.setInputs [.write 0x000#16 4 1#32]).inputs = .write 0x000#16 4 1#32 :: [] := rfl

theorem witness_outsideMoves_wait : (State.reset.setInputs [.waitDone]).inputs = .waitDone :: [] := rfl

/-- NopOnlyCompletes and BbClearEmptiesRaw: a word with the opcode and one more bit. -/
theorem witness_nop_bbClear_illegal :
    (0x00000010#32).toNat % 16 = 0 ∧ (0x00000010#32) ≠ 0#32 ∧ (0x80000001#32).toNat % 16 = 1 ∧ (0x80000001#32) ≠ 1#32 := by
  decide

/-- BinaryBytesAreTheUntabled, last clause: the comma, in Punct and in Digit. -/
theorem witness_twoTables :
    Mode.punct ≠ Mode.digit ∧ (Mode.punct.code 0x2C#8).isSome = true ∧ (Mode.digit.code 0x2C#8).isSome = true := by decide

/-- Both appends: the longest append that fits exactly. -/
theorem witness_bbAppend : (32 : Nat) ≤ 32 ∧ (withRaw (List.replicate 19936 true)).raw.length + 32 ≤ 19968 := by
  refine ⟨Nat.le_refl _, ?_⟩
  show (List.replicate 19936 true).length + 32 ≤ 19968
  rw [List.length_replicate]

/-- AppendChecksInOrder: each branch at its first value. -/
theorem witness_appendChecks :
    32 < 33 ∧ (¬ 32 < 32 ∧ 19968 < (withRaw (List.replicate 19937 true)).raw.length + 32) ∧
    (¬ 32 < 1 ∧ ¬ 19968 < (withRaw (List.replicate 19967 true)).raw.length + 1) := by
  have h (n : Nat) : (withRaw (List.replicate n true)).raw.length = n := List.length_replicate
  rw [h, h]
  omega

theorem witness_modeEncodeWrites :
    (withInput unitTest).inLen.toNat ≤ 8192 ∧
    (withInput unitTest).mem.readBytes 0 (withInput unitTest).inLen.toNat = some unitTest ∧
    inputCost unitTest = some 45 ∧ 45 ≤ 19968 := by decide +kernel

theorem witness_modeEncodeCapacity_length : 8192 < { State.reset with inLen := 8193#16 }.inLen.toNat := by decide

theorem costTable_as (n : Nat) :
    ∃ r rows, costTable (List.replicate n 0x41#8) = r :: rows ∧ r.upper = some (5 * n) := by
  induction n with
  | zero => exact ⟨CostRow.zero, [], rfl, rfl⟩
  | succ n ih =>
    obtain ⟨r, rows, h, hr⟩ := ih
    refine ⟨_, costTable (List.replicate n 0x41#8), rfl, ?_⟩
    have hf : ∀ t : List Byte, forcedAction .upper (0x41#8 :: t) = some (.direct 2) := fun t => rfl
    have hs : stateCost .upper (0x41#8 :: List.replicate n 0x41#8) (costTable (List.replicate n 0x41#8)) =
        some (5 * (n + 1)) := by
      rw [stateCost, hf, h]
      simp only [actionCost, Action.span, Nat.sub_self, List.getElem?_cons_zero, CostRow.get, hr, Cost.plus, Action.bits]
      rw [show Mode.upper.width = 5 from rfl]
      congr 1
      omega
    exact hs

theorem inputCost_as (n : Nat) : inputCost (List.replicate n 0x41#8) = some (5 * n) := by
  obtain ⟨r, rows, h, hr⟩ := costTable_as n
  rw [inputCost, h]
  exact hr

theorem encodeLoop_as (n : Nat) (rows : List CostRow) :
    encodeLoop n .upper (List.replicate n 0x41#8) rows = some (List.replicate n ⟨2, 5⟩) := by
  induction n generalizing rows with
  | zero => rfl
  | succ n ih =>
    have hc : ∀ rs, chooseStep .upper (0x41#8 :: List.replicate n 0x41#8) rs = some (.direct 2, none) := fun _ => rfl
    rw [List.replicate_succ, encodeLoop, hc]
    simp only [modeAfter, Action.span, List.drop_succ_cons, List.drop_zero, ih]
    rfl

/-- Many letters A: the bytes, their tokens, and the bit count. -/
theorem modeTokens_as (n : Nat) : modeTokens (List.replicate n 0x41#8) = some (List.replicate n ⟨2, 5⟩) := by
  rw [modeTokens, List.length_replicate]
  exact encodeLoop_as n _

theorem tokensRaw_as (n : Nat) : (tokensRaw (List.replicate n ⟨2, 5⟩)).length = 5 * n := by
  simp [tokensRaw, Nat.mul_comm]

theorem withInput_as (n : Nat) (h : n ≤ 8192) :
    (withInput (List.replicate n 0x41#8)).inLen.toNat ≤ 8192 ∧
    (withInput (List.replicate n 0x41#8)).mem.readBytes 0 (withInput (List.replicate n 0x41#8)).inLen.toNat =
      some (List.replicate n 0x41#8) := by
  have hl : (withInput (List.replicate n 0x41#8)).inLen.toNat = n := by
    show (BitVec.ofNat 16 (List.replicate n 0x41#8).length).toNat = n
    rw [List.length_replicate, BitVec.toNat_ofNat]
    omega
  refine ⟨by omega, ?_⟩
  rw [hl]
  have hr := readBytes_cells (List.replicate n 0x41#8) 0
  rw [List.length_replicate] at hr
  exact hr

/-- ModeEncodeReportsCapacity, second clause: 3994 letters A need 19970 bits. -/
theorem witness_modeEncodeCapacity_stream :
    ∃ (s : State) (bs : List Byte) (c : Nat), s.inLen.toNat ≤ 8192 ∧
      s.mem.readBytes 0 s.inLen.toNat = some bs ∧ inputCost bs = some c ∧ 19968 < c :=
  ⟨_, _, _, (withInput_as 3994 (by omega)).1, (withInput_as 3994 (by omega)).2, inputCost_as 3994, by omega⟩

/-- UnwrittenInputByteFaults, first clause at the largest length, and second clause. -/
theorem witness_unwrittenInput_faults :
    { State.reset with inLen := 8192#16 }.inLen.toNat ≤ 8192 ∧
    ∃ a, a < { State.reset with inLen := 8192#16 }.inLen.toNat ∧
      { State.reset with inLen := 8192#16 }.mem.read a = none := ⟨by decide, 8191, by decide, rfl⟩

theorem witness_unwrittenInput_written : ∀ a, a < (withInput unitTest).inLen.toNat → (withInput unitTest).mem.read a ≠ none := by
  decide

/-- TokensFitTheirWidths, the binary run clause at both ends of each length form. -/
theorem witness_binaryRun : (1 ≤ 1 ∧ 31 ≤ 31) ∧ (32 ≤ 2078 ∧ ¬ 32 ≤ 31) ∧ 1 ≤ 2078 ∧ Mode.upper ≠ .punct := by decide

theorem witness_tokensFit : modeTokens [0x41#8] = some [⟨2, 5⟩] ∧ (⟨2, 5⟩ : Token) ∈ [(⟨2, 5⟩ : Token)] :=
  ⟨modeTokens_as 1, List.mem_singleton.mpr rfl⟩

/-- StreamIsShortest: a stream the actions can produce for `A`. -/
theorem witness_streamBits : StreamBits .upper [0x41#8] 5 :=
  StreamBits.stay (a := .direct 2) (n := 0) (by decide) (by decide) (StreamBits.stop .upper)

/-- StreamIsShortest, last clause: what the choice rule picks for `A`. -/
theorem witness_emits : Emits .upper [0x41#8] [⟨2, 5⟩] := by
  have h0 : CostIs .upper [] 0 := ⟨StreamBits.stop .upper, fun m _ => Nat.zero_le m⟩
  have h5 : CostIs .upper [0x41#8] 5 := by
    refine ⟨witness_streamBits, fun m hm => ?_⟩
    cases hm with
    | stay _ ha _ =>
      rw [show applicable .upper [0x41#8] = [.direct 2] from rfl, List.mem_singleton] at ha
      subst ha
      exact Nat.le_add_right 5 _
    | latch _ hf _ _ _ => exact absurd hf (by decide)
  exact Emits.stay (a := .direct 2) (by decide) h5 ⟨[], [], rfl, ⟨0, h0, rfl⟩, by simp⟩ (Emits.stop .upper)

/-- TokensFitTheirWidths, the action clauses: a forced pair, a forced code, and neither; and a binary run. -/
theorem witness_actions :
    pairCode [0x2E#8, 0x20#8] = some 3 ∧ (Mode.upper ≠ .punct ∧ Mode.upper.code 0x41#8 = some 2) ∧
    (Mode.upper ≠ .punct ∧ Mode.upper.code 0x2E#8 = none) ∧ 2 ≤ 2078 ∧ 2 ≤ [0x80#8, 0x81#8].length ∧
    (∀ b ∈ [0x80#8, 0x81#8].take 2, isBinary b = true) := by decide

/-- StuffingKeepsEverySourceBit: the clauses on an input that is empty and on one that is not. -/
theorem witness_stuffing_ends : ([] : Bits) = [] ∧ [true] ≠ [] := by decide

theorem witness_stuffPad : (4 = 4 ∨ 4 = 6 ∨ 4 = 8 ∨ 4 = 10 ∨ 4 = 12) ∧ ¬(5 = 4 ∨ 5 = 6 ∨ 5 = 8 ∨ 5 = 10 ∨ 5 = 12) := by
  decide

/-- StuffingKeepsEverySourceBit, with the longest raw buffer. -/
theorem witness_stuffing : (12 = 4 ∨ 12 = 6 ∨ 12 = 8 ∨ 12 = 10 ∨ 12 = 12) ∧ (List.replicate 19968 true).length ≤ 19968 :=
  ⟨by decide, by rw [List.length_replicate]⟩

/-- RsParityAppendsParity at the field's limit: 4 + 11 = 2^4 - 1. -/
theorem witness_rsParity :
    (withCw 4 [1, 2, 3, 4]).cwW ≠ 0 ∧ (withCw 4 [1, 2, 3, 4]).cw.length + 11 ≤ 2 ^ (withCw 4 [1, 2, 3, 4]).cwW - 1 := by
  decide

theorem witness_rsParityErrors :
    State.reset.cwW = 0 ∧ (withCw 4 [1, 2, 3, 4]).cwW ≠ 0 ∧
    2 ^ (withCw 4 [1, 2, 3, 4]).cwW - 1 < (withCw 4 [1, 2, 3, 4]).cw.length + 12 := by decide

theorem witness_gfMul : (12 = 4 ∨ 12 = 6 ∨ 12 = 8 ∨ 12 = 10 ∨ 12 = 12) ∧ 4095 < 2 ^ 12 := by decide

theorem witness_syndromes :
    (4 = 4 ∨ 4 = 6 ∨ 4 = 8 ∨ 4 = 10 ∨ 4 = 12) ∧ (∀ c ∈ [0, 7], c < 2 ^ 4) ∧ 1 ≤ 5 ∧ 5 ≤ 5 := by decide

/-- SizeSelectTakesTheFirstFit, second clause: the empty buffer takes the first candidate; 11 codewords of 6 bits do not fit it,
and 65 bits of `A` take Compact 2 (R260). -/
theorem witness_sizeSelect_first :
    candidates = [] ++ ⟨.compact, 1⟩ :: candidates.drop 1 ∧
    (stuffPad (Symbol.mk .compact 1).width State.reset.raw).length + minParity (Symbol.mk .compact 1).total ≤
      (Symbol.mk .compact 1).total := by decide

theorem witness_sizeSelect_second :
    candidates = [⟨.compact, 1⟩] ++ ⟨.compact, 2⟩ :: candidates.drop 2 ∧
    (∀ z ∈ [(⟨.compact, 1⟩ : Symbol)], ¬(stuffPad z.width (tokensRaw (List.replicate 13 ⟨2, 5⟩))).length +
      minParity z.total ≤ z.total) ∧
    (stuffPad (Symbol.mk .compact 2).width (tokensRaw (List.replicate 13 ⟨2, 5⟩))).length +
      minParity (Symbol.mk .compact 2).total ≤ (Symbol.mk .compact 2).total := by decide +kernel

theorem noCandidate_of_long (b : Bits) (h : 15336 < b.length) :
    ∀ z ∈ candidates, ¬(stuffPad z.width b).length + minParity z.total ≤ z.total := by
  intro z hz hle
  have hc : ∀ y ∈ candidates, y.width * (y.total - minParity y.total) ≤ 15336 ∧ 2 ≤ y.width := by decide
  obtain ⟨h1, h2⟩ := hc z hz
  have h3 := stuffWords_conserves h2 b
  have h4 : (stuffWords z.width b).length ≤ z.total - minParity z.total := by
    simp only [stuffPad, List.length_map] at hle
    omega
  have h5 := Nat.mul_le_mul_left z.width h4
  omega

/-- SizeSelectTakesTheFirstFit, third clause: the first length past the data bits of Full 32. -/
theorem witness_sizeSelect_none : ∀ z ∈ candidates,
    ¬(stuffPad z.width (withRaw (List.replicate 15337 true)).raw).length + minParity z.total ≤ z.total :=
  noCandidate_of_long _ (by show 15336 < (List.replicate 15337 true).length; rw [List.length_replicate]; omega)

/-- ResultRegisters and DescriptorOfArg's third clause, at the largest symbol and its largest `k`. -/
theorem witness_resultRegisters :
    (Symbol.mk .full 32).valid = true ∧ 1 ≤ 1278 ∧ 1278 + minParity (Symbol.mk .full 32).total ≤ (Symbol.mk .full 32).total := by
  decide

theorem witness_descriptor_some :
    descriptorOf 0x00004008#32 = some ⟨.compact, 4, 64⟩ ∧ descriptorOf 0x00080041#32 = some ⟨.full, 32, 2048⟩ := by decide

theorem witness_descriptor_none : descriptorOf State.reset.arg = none ∧ descriptorOf 0x00004108#32 = none := by decide

theorem witness_modeMessage : descriptorOf (withArg 0x00000802#32).arg = some ⟨.compact, 1, 8⟩ := by decide

theorem witness_modeMessageFields :
    (Descriptor.mk .compact 4 64).inRange = true ∧ (Descriptor.mk .full 32 2048).inRange = true := by decide

theorem witness_layout_compact :
    descriptorOf beforeLayout.arg = some ⟨.compact, 1, 8⟩ ∧ beforeLayout.cwW = (Descriptor.mk .compact 1 8).symbol.width ∧
    beforeLayout.cw.length = (Descriptor.mk .compact 1 8).symbol.total ∧ beforeLayout.mm.length = 28 := by decide

theorem witness_layout_full :
    ∃ s : State, descriptorOf s.arg = some ⟨.full, 1, 3⟩ ∧ s.cwW = (Descriptor.mk .full 1 3).symbol.width ∧
      s.cw.length = (Descriptor.mk .full 1 3).symbol.total ∧ s.mm.length = 40 :=
  ⟨{ State.reset with arg := 0x00000303#32, cwW := 6, cw := List.replicate 21 1, mm := List.replicate 40 true }, by decide⟩

/-- LayoutStateErrors: a wrong width, a wrong count by one, and a message of the other form. -/
theorem witness_layoutStateErrors :
    descriptorOf beforeLayout.arg = some ⟨.compact, 1, 8⟩ ∧ (8 : Nat) ≠ (Descriptor.mk .compact 1 8).symbol.width ∧
    (beforeLayout.cw.drop 1).length ≠ (Descriptor.mk .compact 1 8).symbol.total ∧ (40 : Nat) ≠ 28 := by decide

theorem witness_placement : (Symbol.mk .compact 1).valid = true ∧ (Symbol.mk .full 32).valid = true ∧
    (List.replicate 17 0).length = (Symbol.mk .compact 1).total := by decide

/-- PlacementVisitsEveryBitOnce, the data clauses at the last layer, step and bit of Full 32, and a pad and a codeword bit of
Compact 1. -/
theorem witness_dataPlaces :
    ((Symbol.mk .full 32).valid = true ∧ 31 < (Symbol.mk .full 32).layers ∧ 16 = 4 * (32 - 31) + 12 ∧ 15 < 16 ∧ 1 < 2 ∧
      141 = 4 * 32 + 13) ∧
    ((List.replicate 17 1).length = (Symbol.mk .compact 1).total ∧
      1 < (Symbol.mk .compact 1).dataBits % (Symbol.mk .compact 1).width ∧ 16 < (Symbol.mk .compact 1).total ∧
      5 < (Symbol.mk .compact 1).width) := by decide

/-- PlacementVisitsEveryBitOnce, the mode message clauses: the centre and the ring of a symbol of each form, a bit index at each
end of a side. -/
theorem witness_modePlaces :
    ((Symbol.mk .compact 1).valid = true ∧ 7 = (Symbol.mk .compact 1).side / 2 ∧ 6 < 7) ∧
    ((Symbol.mk .full 32).valid = true ∧ 75 = (Symbol.mk .full 32).side / 2 ∧ 9 < 10 ∧
      80 = 75 - 5 + 9 + (if 9 < 5 then 0 else 1) ∧ 70 = 75 + 5 - 9 - (if 9 < 5 then 0 else 1)) := by decide

theorem witness_encodeCompletes :
    (withInput []).inLen.toNat ≤ 8192 ∧ (withInput []).mem.readBytes 0 (withInput []).inLen.toNat = some [] ∧
    modeTokens [] = some [] ∧ sizeSelect (tokensRaw []) = some ⟨.compact, 1⟩ ∧
    [62] = stuffPad (Symbol.mk .compact 1).width (tokensRaw []) ∧ 1 = [62].length := by decide +kernel

/-- EncodeFailsWhole, second clause: 3068 letters A are 15340 bits, which no candidate fits. -/
theorem witness_encodeFailsWhole :
    ∃ (s : State) (bs : List Byte) (ts : List Token), s.inLen.toNat ≤ 8192 ∧
      s.mem.readBytes 0 s.inLen.toNat = some bs ∧ modeTokens bs = some ts ∧ sizeSelect (tokensRaw ts) = none := by
  refine ⟨_, _, _, (withInput_as 3068 (by omega)).1, (withInput_as 3068 (by omega)).2, modeTokens_as 3068, ?_⟩
  have hl := noCandidate_of_long (tokensRaw (List.replicate 3068 ⟨2, 5⟩)) (by rw [tokensRaw_as]; omega)
  rw [sizeSelect, List.find?_eq_none]
  intro z hz
  rw [Symbol.fits, decide_eq_true_eq]
  exact hl z hz

/-- The five stage commands on the empty input, one after the other (R313). -/
def stage1 : State := getNext (exec .modeEncode State.reset)
def stage2 : State := getNext (exec .sizeSelect stage1)
def stage3 : State := getNext (exec (.rsParity (resN stage2.res1 - resK stage2.res1)) stage2)
def stageArg : Word :=
  BitVec.ofNat 32 (resForm stage3.res0) ||| BitVec.ofNat 32 (resLayers stage3.res0) <<< 1 |||
    BitVec.ofNat 32 (resK stage3.res1) <<< 8
def stage4 : State := getNext (exec .modeMessage { stage3 with arg := stageArg })
def stage5 : State := getNext (exec .layout stage4)

theorem witness_encodeIsTheFiveCommands :
    exec .modeEncode State.reset = .next stage1 ∧ stage1.err = .ok ∧ exec .sizeSelect stage1 = .next stage2 ∧
    stage2.err = .ok ∧ exec (.rsParity (resN stage2.res1 - resK stage2.res1)) stage2 = .next stage3 ∧ stage3.err = .ok ∧
    exec .modeMessage { stage3 with arg := stageArg } = .next stage4 ∧ stage4.err = .ok ∧
    exec .layout stage4 = .next stage5 ∧ stage5.err = .ok := by
  refine ⟨eq_next_of_isNext ?_, ?_, eq_next_of_isNext ?_, ?_, eq_next_of_isNext ?_, ?_, eq_next_of_isNext ?_, ?_,
    eq_next_of_isNext ?_, ?_⟩ <;> decide +kernel

/-- EncodedSymbolChecks, CommandsLeaveOperandsAlone and EachBufferHasItsWriters: an ENCODE that succeeds, the one parity index
at the low end, and the buffers it changes. -/
theorem witness_encodedSymbolChecks :
    ∃ t, exec .encode State.reset = .next t ∧ t.err = .ok ∧ 1 ≤ resN t.res1 - resK t.res1 ∧
      t.cw ≠ State.reset.cw ∧ t.res0 ≠ State.reset.res0 ∧ t.matWritten ≠ State.reset.matWritten :=
  ⟨_, eq_next_of_isNext (o := exec .encode State.reset) (by decide +kernel), by decide +kernel⟩

theorem witness_eachBuffer_raw_mm :
    (∃ t, exec .bbClear (withRaw [true]) = .next t ∧ t.raw ≠ (withRaw [true]).raw) ∧
    ∃ t, exec .modeMessage (withArg 0x00000802#32) = .next t ∧ t.mm ≠ (withArg 0x00000802#32).mm :=
  ⟨⟨_, rfl, by decide⟩, ⟨_, eq_next_of_isNext (o := exec .modeMessage (withArg 0x00000802#32)) (by decide +kernel),
    by decide +kernel⟩⟩

/-- ErrorChangesOnlyStatus and ErrorCodesByCommand: each code a decoded command can report. -/
theorem witness_errors :
    (∃ t, exec .encode { State.reset with inLen := 8193#16 } = .next t ∧ t.err = .capacity) ∧
    (∃ t, exec (.stuffPad 5) State.reset = .next t ∧ t.err = .illegalOperand) ∧
    (∃ t, exec (.rsParity 1) State.reset = .next t ∧ t.err = .stateError) ∧
    (∃ t, exec (.bbAppendMsb 32) (withRaw (List.replicate 19937 true)) = .next t ∧ t.err = .overflow) ∧
    ∃ t, completeCommand 0xB#32 State.reset = .next t ∧ t.err = .illegalCommand := by
  refine ⟨⟨_, rfl, rfl⟩, ⟨_, rfl, rfl⟩, ⟨_, rfl, rfl⟩, ⟨_, eq_next_of_isNext ?_, ?_⟩, ⟨_, rfl, rfl⟩⟩ <;> decide +kernel

theorem witness_execFaults : exec .modeEncode { State.reset with inLen := 1#16 } = .fault .commandReadsUnwrittenInput := by rfl

/-- InputWindow at both ends: writes while idle; a read of a written word; a read of a word with its last byte unwritten. -/
theorem witness_inputWindow :
    0 < 2048 ∧ 2047 < 2048 ∧ State.reset.eng = .idle ∧
    (cells 8188 [1#8, 2#8, 3#8, 4#8]).read (4 * 2047) = some 1#8 ∧
    (cells 8188 [1#8, 2#8, 3#8, 4#8]).read (4 * 2047 + 1) = some 2#8 ∧
    (cells 8188 [1#8, 2#8, 3#8, 4#8]).read (4 * 2047 + 2) = some 3#8 ∧
    (cells 8188 [1#8, 2#8, 3#8, 4#8]).read (4 * 2047 + 3) = some 4#8 ∧
    (cells 8188 [1#8, 2#8, 3#8]).read (4 * 2047 + 3) = none := by decide

theorem witness_rawWindow : 623 < 624 ∧ State.reset.eng = .idle := by decide

theorem witness_codewordWindow :
    8191 < 8192 ∧ (withCw 12 [4095]).eng = .idle ∧ (withCw 12 [4095]).cwW ≤ 12 ∧
    ∀ c ∈ (withCw 12 [4095]).cw, c < 2 ^ (withCw 12 [4095]).cwW := by decide

theorem witness_matrixWindow :
    150 < 151 ∧ 4 < 5 ∧ { State.reset with matWritten := true }.eng = .idle ∧
    { State.reset with matWritten := true }.matWritten = true ∧ State.reset.matWritten = false := by decide

/-- BusErrors: a wrong size, an offset off by one, and the last word of the space. -/
theorem witness_busErrors :
    ¬(2 = 4 ∧ (0x000#16).toNat % 4 = 0) ∧ ¬(4 = 4 ∧ (0x001#16).toNat % 4 = 0) ∧ (4 = 4 ∧ (0xFFFC#16).toNat % 4 = 0) := by
  decide

theorem witness_writeWhileBusy :
    (running 0#32).eng = .busy 0#32 ∧ (0xFFFC#16).toNat % 4 = 0 ∧ State.reset.eng = .idle := by decide

/-- BusyReads: a running command, and an offset at the end of each clause's range; the input word and the matrix written. -/
theorem witness_busyReads :
    ({ running 10#32 with mem := cells 8188 [1#8, 2#8, 3#8, 4#8], matWritten := true }).eng = .busy 10#32 ∧
    ({ running 10#32 with mem := cells 8188 [1#8, 2#8, 3#8, 4#8], matWritten := true }).mem.readWord
      (((0x3FFC#16).toNat - 0x2000) / 4) = some 0x04030201#32 ∧
    (running 10#32).mem.readWord (((0x2000#16).toNat - 0x2000) / 4) = none ∧ (0x3FFC#16).toNat % 4 = 0 ∧ 0x2000 ≤ (0x3FFC#16).toNat ∧ (0x3FFC#16).toNat ≤ 0x3FFF ∧
    (0x010 ≤ (0x024#16).toNat ∧ (0x024#16).toNat ≤ 0x024) ∧ (0x4000 ≤ (0x49BC#16).toNat ∧ (0x49BC#16).toNat ≤ 0x49BF) ∧
    0x8000 ≤ (0x8000#16).toNat ∧ (0x5000 ≤ (0x5BC8#16).toNat ∧ (0x5BC8#16).toNat ≤ 0x5BCB ∧
      ({ running 10#32 with matWritten := true }).matWritten = true) := by decide

theorem witness_cmdWrite : State.reset.eng = .idle ∧ (running 1#32).eng = .busy 1#32 := ⟨rfl, rfl⟩

/-- OtherWritesAreIgnored: both ends of the write clause, and of each range that reads 0. -/
theorem witness_otherWrites :
    (0x00C ≤ (0x00C#16).toNat ∧ ¬(0x2000 ≤ (0x00C#16).toNat ∧ (0x00C#16).toNat ≤ 0x3FFF)) ∧
    (0x00C ≤ (0x4000#16).toNat ∧ ¬(0x2000 ≤ (0x4000#16).toNat ∧ (0x4000#16).toNat ≤ 0x3FFF)) ∧
    (0x02C ≤ (0x1FFC#16).toNat ∧ (0x1FFC#16).toNat < 0x2000) ∧ (0x49C0 ≤ (0x49C0#16).toNat ∧ (0x49C0#16).toNat < 0x5000) ∧
    (0x5BCC ≤ (0x5BCC#16).toNat ∧ (0x5BCC#16).toNat < 0x8000) ∧ (0x5BCC#16).toNat % 4 = 0 := by decide

theorem witness_hostReads :
    ∃ t u, State.reset.eng = .idle ∧ hostRead 0x028#16 4 State.reset = .next t ∧ hostRead 0x028#16 4 t = .next u :=
  ⟨_, _, rfl, rfl, rfl⟩

theorem witness_hostWrites : (0x004#16 : Offset) ≠ 0#16 ∧ ∃ t, hostWrite 0x004#16 4 7#32 State.reset = .next t :=
  ⟨by decide, _, rfl⟩

/-- ResetState, second clause: a reset while idle, and one while a command runs. -/
theorem witness_resetState :
    (State.reset.setInputs [.reset]).eng = .idle ∧ (State.reset.setInputs [.reset]).inputs = .reset :: [] ∧
    ((running 10#32).setInputs [.reset]).eng = .busy 10#32 ∧ ((running 10#32).setInputs [.reset]).wait ≠ 0 ∧
    ((running 10#32).setInputs [.reset]).inputs = .reset :: [] := by decide

/-- OnlyCompletionOrResetIdles: a running command that becomes idle, and a step with the flags set. -/
theorem witness_onlyCompletion_idles :
    ∃ t, (State.reset.withFetchWord 32 0).eng = .busy 0#32 ∧ step (State.reset.withFetchWord 32 0) = .next t ∧
      t.eng = .idle := ⟨_, rfl, rfl, rfl⟩

theorem witness_onlyCompletion_keeps :
    ∃ t, step { running 10#32 with mem := [(0, 1#8)], matWritten := true } = .next t ∧
      (∀ rest, { running 10#32 with mem := [(0, 1#8)], matWritten := true }.inputs ≠ .reset :: rest) ∧
      { running 10#32 with mem := [(0, 1#8)], matWritten := true }.matWritten = true ∧
      { running 10#32 with mem := [(0, 1#8)], matWritten := true }.mem.read 0 ≠ none ∧
      { running 10#32 with mem := [(0, 1#8)], matWritten := true }.wait ≠ 0 :=
  ⟨_, rfl, by simp [running, State.start, State.reset], rfl, by decide, by decide⟩

/-- OnlyCompletionOrResetIdles, second clause: a completion step taken while a reset waits. -/
theorem witness_onlyCompletion_reset_waits :
    ∃ s t : State, step s = .next t ∧ (∃ v, s.eng = .busy v) ∧ s.wait = 0 ∧ s.inputs = .reset :: [] ∧ s.matWritten = true :=
  ⟨{ (State.reset.withFetchWord 32 0).setInputs [.reset] with matWritten := true }, _, rfl, ⟨_, rfl⟩, rfl, rfl, rfl⟩

theorem witness_everyCommandCompletes :
    ∃ t, (running 10#32).eng = .busy 10#32 ∧ (running 10#32).wait ≠ 0 ∧ (running 10#32).inputs = [] ∧
      step (running 10#32) = .next t := ⟨_, rfl, by decide, rfl, rfl⟩

/-- A busy state with every buffer filled. -/
def filled : State :=
  { State.reset with
    eng := .busy 10#32, cmd := 10#32, raw := [true], cw := [62], cwW := 6, res0 := res0Word ⟨.compact, 1⟩,
    res1 := res1Word ⟨.compact, 1⟩ 1, mm := List.replicate 28 true, mem := [(8191, 1#8)], matWritten := true, wait := 1 }

/-- ViewRegisters and StepKeepsInvariant: the invariant holds in a state with every buffer filled, which has a next state. -/
theorem witness_invariant : filled.Inv ∧ ∃ t, step filled = .next t := by
  refine ⟨?_, _, rfl⟩
  constructor
  · decide
  · decide
  · decide
  · decide
  · decide
  · decide
  · decide
  · exact List.length_replicate
  · exact Or.inr ⟨⟨.compact, 1⟩, 1, by decide⟩
  · intro v hv
    cases hv
    exact ⟨rfl, rfl, rfl⟩
  · intro _
    rfl
  · decide

end Sys2Proof.Tests
end

