-- ==== Sys2Proof/Proofs/Scope.lean ====
section
/-! PROOFS. Who moves next (00_scope.md R8): the equations of `step` where no completion is due, and of `inputStep` for an access
or a poll of the host. -/

namespace Sys2Proof.Machine

variable {s : State} {rest : List Input}

theorem step_of_idle (h : s.eng = .idle) : step s = inputStep s := by
  simp only [step, machineStep, h]

theorem step_of_busy_of_wait_ne_zero {v : Word} (h : s.eng = .busy v) (hw : s.wait ≠ 0) :
    step s = inputStep s.tick := by
  simp only [step, machineStep, h, if_neg hw]

theorem inputStep_of_inputs_nil (h : s.inputs = []) : inputStep s = .next s := by
  simp only [inputStep, h]

theorem inputStep_of_inputs_read {off : Offset} {n : Nat} (h : s.inputs = .read off n :: rest) :
    inputStep s = hostRead off n (s.setInputs rest) := by
  simp only [inputStep, h]

theorem inputStep_of_inputs_write {off : Offset} {n : Nat} {v : Word} (h : s.inputs = .write off n v :: rest) :
    inputStep s = hostWrite off n v (s.setInputs rest) := by
  simp only [inputStep, h]

theorem inputStep_of_inputs_waitDone (h : s.inputs = .waitDone :: rest) :
    inputStep s = .next (pollStatus rest s) := by
  simp only [inputStep, h]

/-- A poll records `STATUS` whatever it shows; only the inputs that remain depend on it (R108). -/
theorem pollStatus_eq_setInputs (rest : List Input) (s : State) :
    pollStatus rest s = (s.record 0x00C#16 s.status).setInputs
      (if s.eng = .idle ∧ s.done = true then rest else s.inputs) := by
  unfold pollStatus
  simp only [State.busy_eq_false_iff]
  split_ifs
  · rfl
  · rfl

/-- Settles O7: one clause per equation above; `tick`, `setInputs` and `record` are the updates the statement writes out. -/
theorem outsideMovesWhileNoCompletionIsDue : Obligations.OutsideMovesWhileNoCompletionIsDue := by
  unfold Obligations.OutsideMovesWhileNoCompletionIsDue
  refine ⟨fun _ => step_of_idle, fun _ _ => step_of_busy_of_wait_ne_zero, fun _ => inputStep_of_inputs_nil,
    fun _ _ _ _ => inputStep_of_inputs_read, fun _ _ _ _ _ => inputStep_of_inputs_write, ?_⟩
  intro s rest h
  rw [inputStep_of_inputs_waitDone h, pollStatus_eq_setInputs, h]
  rfl

end Sys2Proof.Machine
end

