-- ==== Sys2Proof/Proofs/State.lean ====
section
/-! PROOFS. The state of AZC (10_state.md): what the commands write, the invariant of the machine under every update, command and
step, and the registers as the host writes and reads them. -/

namespace Sys2Proof.Machine

/-! ### The commands -/

/-- The body of each command: what `finish` takes to its completion step. -/
def commandBody (i : Instr) (s : State) : Effect State :=
  match i with
  | .nop => .done s
  | .bbClear => .done (s.setRaw [])
  | .bbAppendMsb nb => appendEffect appendMsb nb s
  | .bbAppendLsb nb => appendEffect appendLsb nb s
  | .modeEncode => modeEncodeEffect s
  | .stuffPad w => stuffPadEffect w s
  | .rsParity r => rsParityEffect r s
  | .sizeSelect => sizeSelectEffect s
  | .modeMessage => modeMessageEffect s.arg s
  | .layout => layoutEffect s.arg s
  | .encode => encodeEffect s

/-- Every command is the completion step of its body (R32). -/
theorem exec_eq_finish (i : Instr) (s : State) : exec i s = finish s (commandBody i s) := by
  cases i <;> rfl

/-- A command answers a next state in two ways: the completion of its body's effect, or the error effect (R323). -/
theorem exec_eq_next_iff {i : Instr} {s t : State} :
    exec i s = .next t ↔
      (∃ u, commandBody i s = .done u ∧ t = u.complete) ∨ ∃ e, commandBody i s = .raise e ∧ t = s.raiseError e := by
  rw [exec_eq_finish, finish_eq_next_iff]

/-- What a body that ends with a value has written: the updates each command makes, in their order. -/
inductive Written (s : State) : Instr → State → Prop
  | nop : Written s .nop s
  | bbClear : Written s .bbClear (s.setRaw [])
  | bbAppendMsb (nb : Nat) (b : Bits) : Written s (.bbAppendMsb nb) (s.setRaw b)
  | bbAppendLsb (nb : Nat) (b : Bits) : Written s (.bbAppendLsb nb) (s.setRaw b)
  | modeEncode (b : Bits) : Written s .modeEncode (s.setRaw b)
  | stuffPad (w : Nat) (c : List Nat) : Written s (.stuffPad w) (s.setCw w c)
  | rsParity (r : Nat) (c : List Nat) : Written s (.rsParity r) (s.setCw s.cwW c)
  | sizeSelect (w : Nat) (c : List Nat) (a b : Word) : Written s .sizeSelect ((s.setCw w c).setRes a b)
  | modeMessage (b : Bits) : Written s .modeMessage (s.setMm b)
  | layout (m : List (BitVec 151)) : Written s .layout (s.setMat m)
  | encode (b : Bits) (w : Nat) (c : List Nat) (x y : Word) (c' : List Nat) (mm : Bits) (m : List (BitVec 151)) :
    Written s .encode ((((((s.setRaw b).setCw w c).setRes x y).setCw w c').setMm mm).setMat m)

theorem written_of_encodeEffect {s t : State} (h : encodeEffect s = .done t) : Written s .encode t := by
  simp only [encodeEffect, Effect.andThen_eq_done_iff] at h
  obtain ⟨_, h1, _, h2, _, h3, _, h4, h5⟩ := h
  obtain ⟨_, b, -, -, rfl⟩ := modeEncodeEffect_eq_done_iff.mp h1
  obtain ⟨y, c, -, -, rfl⟩ := sizeSelectEffect_eq_done_iff.mp h2
  obtain ⟨-, -, p, -, rfl⟩ := rsParityEffect_eq_done_iff.mp h3
  obtain ⟨_, mm, -, -, rfl⟩ := modeMessageEffect_eq_done_iff.mp h4
  obtain ⟨_, m, -, -, -, -, -, rfl⟩ := layoutEffect_eq_done_iff.mp h5
  exact .encode b _ c _ _ _ mm m

/-- The inversion lemma of the commands: a body ends with a value only by the updates listed for its command. -/
theorem written_of_commandBody {i : Instr} {s t : State} (h : commandBody i s = .done t) : Written s i t := by
  cases i with
  | nop =>
    obtain rfl := Effect.done.inj h
    exact .nop
  | bbClear =>
    obtain rfl := Effect.done.inj h
    exact .bbClear
  | bbAppendMsb nb =>
    obtain ⟨-, rfl⟩ := appendEffect_eq_done_iff.mp h
    exact .bbAppendMsb nb _
  | bbAppendLsb nb =>
    obtain ⟨-, rfl⟩ := appendEffect_eq_done_iff.mp h
    exact .bbAppendLsb nb _
  | modeEncode =>
    obtain ⟨_, b, -, -, rfl⟩ := modeEncodeEffect_eq_done_iff.mp h
    exact .modeEncode b
  | stuffPad w =>
    obtain ⟨-, c, -, rfl⟩ := stuffPadEffect_eq_done_iff.mp h
    exact .stuffPad w c
  | rsParity r =>
    obtain ⟨-, -, p, -, rfl⟩ := rsParityEffect_eq_done_iff.mp h
    exact .rsParity r _
  | sizeSelect =>
    obtain ⟨y, c, -, -, rfl⟩ := sizeSelectEffect_eq_done_iff.mp h
    exact .sizeSelect y.width c _ _
  | modeMessage =>
    obtain ⟨_, b, -, -, rfl⟩ := modeMessageEffect_eq_done_iff.mp h
    exact .modeMessage b
  | layout =>
    obtain ⟨_, m, -, -, -, -, -, rfl⟩ := layoutEffect_eq_done_iff.mp h
    exact .layout m
  | encode => exact written_of_encodeEffect h

/-- Everything a command that answers a next state can have done: the updates of its body and the completion, or the error
effect alone. -/
theorem exec_next_cases {i : Instr} {s t : State} (h : exec i s = .next t) :
    (∃ u, Written s i u ∧ t = u.complete) ∨ ∃ e, t = s.raiseError e := by
  rcases exec_eq_next_iff.mp h with ⟨u, hu, ht⟩ | ⟨e, -, ht⟩
  · exact Or.inl ⟨u, written_of_commandBody hu, ht⟩
  · exact Or.inr ⟨e, ht⟩

/-- Settles O41: no update a command makes touches an operand or the model's own fields, and both ends of a command leave the
engine idle with `DONE` set. -/
theorem commandsLeaveOperandsAlone : Obligations.CommandsLeaveOperandsAlone := by
  unfold Obligations.CommandsLeaveOperandsAlone
  intro i s t h
  rcases exec_next_cases h with ⟨u, hu, rfl⟩ | ⟨e, rfl⟩
  · cases hu <;> simp
  · simp

/-- Settles O42: each update a command makes is one its rule names; the error effect makes none. -/
theorem eachBufferHasItsWriters : Obligations.EachBufferHasItsWriters := by
  unfold Obligations.EachBufferHasItsWriters
  intro i s t h
  rcases exec_next_cases h with ⟨u, hu, rfl⟩ | ⟨e, rfl⟩
  · cases hu <;> simp
  · simp

/-! ### The stuffer -/

section Stuffer
variable {w : Nat} {b : Bits}

/-- A stuffing step consumes at least `w - 1` bits. -/
theorem stuffStep_consumes (h : (b.take w).length = w) :
    (w - 1) + (stuffStep w b).2.length ≤ b.length := by
  have hb : w ≤ b.length := by simpa using h
  unfold stuffStep
  split_ifs <;> simp <;> omega

theorem stuffLoop_count (n : Nat) (b : Bits) :
    (w - 1) * (stuffLoop n w b).1.length + (stuffLoop n w b).2.length ≤ b.length := by
  induction n generalizing b with
  | zero => simp [stuffLoop]
  | succ n ih =>
    unfold stuffLoop
    split_ifs with ht
    · have hstep := stuffStep_consumes ht
      have hrest := ih (stuffStep w b).2
      simp only [List.length_cons, Nat.mul_add, Nat.mul_one]
      omega
    · simp

/-- The codewords are those of the loop, or those and one final codeword (R202, R203). -/
theorem stuffWords_cases (w : Nat) (b : Bits) :
    (stuffWords w b = (stuffLoop b.length w b).1 ∧ (stuffLoop b.length w b).1 ≠ []) ∨
      stuffWords w b = (stuffLoop b.length w b).1 ++ [finalWord w (stuffLoop b.length w b).2] := by
  simp only [stuffWords]
  split_ifs with h
  · exact Or.inr rfl
  · exact Or.inl ⟨rfl, fun h' => h (Or.inl h')⟩

/-- Every codeword has `w` bits (R205). -/
theorem stuffWords_word_length (hw : 2 ≤ w) : ∀ x ∈ stuffWords w b, x.length = w := by
  obtain ⟨hloop, hrest⟩ := stuffLoop_lengths hw b.length b le_rfl
  rcases stuffWords_cases w b with ⟨h, -⟩ | h <;> rw [h]
  · exact hloop
  · intro x hx
    rcases List.mem_append.mp hx with hx | hx
    · exact hloop x hx
    · rw [List.mem_singleton.mp hx]
      exact finalWord_length hrest

/-- There is at least one codeword (R205). -/
theorem stuffWords_ne_nil : stuffWords w b ≠ [] := by
  rcases stuffWords_cases w b with ⟨h, hne⟩ | h <;> rw [h]
  · exact hne
  · simp

/-- Every codeword but the last consumes at least `w - 1` bits (R205). -/
theorem stuffWords_count : (w - 1) * (stuffWords w b).length ≤ b.length + (w - 1) := by
  have hloop := stuffLoop_count (w := w) b.length b
  rcases stuffWords_cases w b with ⟨h, -⟩ | h <;> rw [h]
  · omega
  · rw [List.length_append, List.length_singleton, Nat.mul_add, Nat.mul_one]
    omega

theorem stuffPad_length : (stuffPad w b).length = (stuffWords w b).length := by simp [stuffPad]

/-- A codeword of width `w` is below `2^w` (R204). -/
theorem stuffPad_lt (hw : 2 ≤ w) : ∀ c ∈ stuffPad w b, c < 2 ^ w := by
  intro c hc
  obtain ⟨x, hx, rfl⟩ := List.mem_map.mp hc
  rw [← stuffWords_word_length hw x hx]
  exact bitsVal_lt x

/-- A full raw buffer gives at most 6657 codewords (R205). -/
theorem stuffPad_length_le (hw : legalWidth w = true) (hb : b.length ≤ 19968) : (stuffPad w b).length ≤ 6657 := by
  have hc := stuffWords_count (w := w) (b := b)
  rw [stuffPad_length]
  rcases legalWidth_iff.mp hw with rfl | rfl | rfl | rfl | rfl <;> omega

end Stuffer

/-! ### The field -/

section Field
variable {w : Nat}

/-- The field polynomial has degree `w` (R222). -/
theorem fieldPoly_bounds (hw : legalWidth w = true) : 2 ^ w ≤ fieldPoly w ∧ fieldPoly w < 2 ^ (w + 1) := by
  rcases legalWidth_iff.mp hw with rfl | rfl | rfl | rfl | rfl <;> decide

/-- Two polynomials of degree `n` differ in one of a lower degree. -/
theorem xor_lt_of_same_degree {n x y : Nat} (hx : 2 ^ n ≤ x) (hx' : x < 2 ^ (n + 1)) (hy : 2 ^ n ≤ y)
    (hy' : y < 2 ^ (n + 1)) : x ^^^ y < 2 ^ n := by
  refine Nat.lt_pow_two_of_testBit _ fun i hi => ?_
  rw [Nat.testBit_xor]
  rcases Nat.eq_or_lt_of_le hi with rfl | hlt
  · rw [Nat.testBit_of_two_pow_le_and_two_pow_add_one_gt hx hx',
      Nat.testBit_of_two_pow_le_and_two_pow_add_one_gt hy hy']
    rfl
  · have hpow : 2 ^ (n + 1) ≤ 2 ^ i := Nat.pow_le_pow_right (by decide) hlt
    rw [Nat.testBit_lt_two_pow (hx'.trans_le hpow), Nat.testBit_lt_two_pow (hy'.trans_le hpow)]
    rfl

theorem gfDouble_lt (hw : legalWidth w = true) {a : Nat} (ha : a < 2 ^ w) : gfDouble w a < 2 ^ w := by
  obtain ⟨hp, hp'⟩ := fieldPoly_bounds hw
  unfold gfDouble
  split_ifs with h
  · exact h
  · exact xor_lt_of_same_degree (Nat.le_of_not_lt h) (by rw [pow_succ]; omega) hp hp'

theorem gfMulBits_lt (hw : legalWidth w = true) {a : Nat} (ha : a < 2 ^ w) (n b : Nat) : gfMulBits w a b n < 2 ^ w := by
  induction n generalizing b with
  | zero => exact Nat.two_pow_pos w
  | succ n ih =>
    refine Nat.xor_lt_two_pow ?_ (gfDouble_lt hw (ih (b / 2)))
    split_ifs
    · exact ha
    · exact Nat.two_pow_pos w

/-- A product stays in the field, whatever the second factor (R221). -/
theorem gfMul_lt (hw : legalWidth w = true) {a : Nat} (ha : a < 2 ^ w) (b : Nat) : gfMul w a b < 2 ^ w :=
  gfMulBits_lt hw ha w b

theorem alphaPow_lt (hw : legalWidth w = true) (e : Nat) : alphaPow w e < 2 ^ w := by
  induction e with
  | zero => rcases legalWidth_iff.mp hw with rfl | rfl | rfl | rfl | rfl <;> decide
  | succ e ih => exact gfDouble_lt hw ih

theorem forall_mem_zipWith {α β γ : Type} {f : α → β → γ} {p : α → Prop} {q : β → Prop} {r : γ → Prop} {l : List α}
    {m : List β} (hf : ∀ a b, p a → q b → r (f a b)) (hl : ∀ a ∈ l, p a) (hm : ∀ b ∈ m, q b) :
    ∀ c ∈ List.zipWith f l m, r c := by
  intro c hc
  rw [← List.map_uncurry_zip_eq_zipWith] at hc
  obtain ⟨⟨a, b⟩, hab, rfl⟩ := List.mem_map.mp hc
  obtain ⟨ha, hb⟩ := List.of_mem_zip hab
  exact hf a b (hl a ha) (hm b hb)

/-- The coefficients of the generator polynomial are field elements (R224). -/
theorem genPoly_lt (hw : legalWidth w = true) (r : Nat) : ∀ c ∈ genPoly w r, c < 2 ^ w := by
  induction r with
  | zero =>
    intro c hc
    rw [List.mem_singleton.mp hc]
    exact alphaPow_lt hw 0
  | succ r ih =>
    refine forall_mem_zipWith (fun _ _ => Nat.xor_lt_two_pow) ?_ ?_
    · simpa [or_imp, forall_and, Nat.two_pow_pos] using ih
    · simpa [Nat.two_pow_pos] using fun a _ => gfMul_lt hw (alphaPow_lt hw (r + 1)) a

theorem remStep_lt (hw : legalWidth w = true) {g rem : List Nat} (hg : ∀ c ∈ g, c < 2 ^ w)
    (hrem : ∀ c ∈ rem, c < 2 ^ w) (d : Nat) : ∀ c ∈ remStep w g rem d, c < 2 ^ w := by
  refine forall_mem_zipWith (fun a t ha ht => Nat.xor_lt_two_pow ht (gfMul_lt hw ha _)) hg ?_
  intro c hc
  rcases List.mem_append.mp hc with hc | hc
  · exact hrem c (List.mem_of_mem_drop hc)
  · rw [List.mem_singleton.mp hc]
    exact Nat.two_pow_pos w

/-- The parity codewords are field elements, whatever the data (R226). -/
theorem parity_lt (hw : legalWidth w = true) (r : Nat) (d : List Nat) : ∀ c ∈ parity w r d, c < 2 ^ w := by
  have hg : ∀ c ∈ (genPoly w r).drop 1, c < 2 ^ w := fun c hc => genPoly_lt hw r c (List.mem_of_mem_drop hc)
  refine List.foldlRecOn d _ (motive := fun rem => ∀ c ∈ rem, c < 2 ^ w) ?_ fun rem hrem x _ => remStep_lt hw hg hrem x
  intro c hc
  rw [List.eq_of_mem_replicate hc]
  exact Nat.two_pow_pos w

end Field

/-! ### The encoder, the selector and the mode message -/

/-- The only error of the encoding proper is CAPACITY (R173). -/
theorem encodeBytes_eq_raise {bs : List Byte} {e : ErrCode} (he : encodeBytes bs = .raise e) : e = .capacity := by
  unfold encodeBytes at he
  split at he
  · cases he
  · split_ifs at he
    cases he
    rfl

theorem Symbol.legalWidth_width (y : Symbol) : legalWidth y.width = true :=
  legalWidth_iff.mpr (Or.inr y.width_of_valid)

/-- The selected symbol exists and holds the codewords with its least parity (R254, R255). -/
theorem sizeSelect_eq_some {raw : Bits} {y : Symbol} (hy : sizeSelect raw = some y) :
    y.valid = true ∧ (stuffPad y.width raw).length + minParity y.total ≤ y.total := by
  have hfits : y.fits raw = true := List.find?_some hy
  exact ⟨mem_candidates_iff.mp (List.mem_of_find?_eq_some hy), of_decide_eq_true hfits⟩

theorem flatMap_msbBits_length (n : Nat) (l : List Nat) : (l.flatMap (msbBits n)).length = l.length * n := by
  simp [List.length_flatMap]

/-- The mode message has the bits of its form (R271). -/
theorem modeMessage_length {d : Descriptor} {b : Bits} (hb : modeMessage d = .done b) : b.length = d.form.modeBits := by
  obtain ⟨p, hp, hb⟩ := Effect.andThen_eq_done_iff.mp hb
  obtain ⟨-, rfl⟩ := parityEffect_eq_done_iff.mp hp
  rw [← Effect.done.inj hb, flatMap_msbBits_length, List.length_append, parity_length, modeNibbles, List.length_map,
    List.length_range]
  cases d.form <;> rfl

/-! ### The invariant under the updates of the state -/

section Updates
variable {s : State}

theorem State.Inv.setRaw (h : s.Inv) {b : Bits} (hb : b.length ≤ 19968) : (s.setRaw b).Inv := { h with raw_le := hb }

theorem State.Inv.setCw (h : s.Inv) {w : Nat} {c : List Nat} (hw : legalWidth w = true) (hlen : c.length ≤ 8192)
    (hc : ∀ x ∈ c, x < 2 ^ w) : (s.setCw w c).Inv :=
  { h with
    cw_le := hlen
    cw_width := Or.inr (legalWidth_iff.mp hw)
    cw_unfilled := fun (h0 : w = 0) => absurd hw (by subst h0; decide)
    cw_range := hc }

theorem State.Inv.setRes (h : s.Inv) {a b : Word} (hab : resLegal a b) : (s.setRes a b).Inv :=
  { h with res_legal := hab }

theorem State.Inv.setMm (h : s.Inv) {b : Bits} (hb : b.length = 28 ∨ b.length = 40) : (s.setMm b).Inv :=
  { h with mm_len := Or.inr hb }

theorem State.Inv.setMat (h : s.Inv) {m : List (BitVec 151)} (hm : m.length = 151) : (s.setMat m).Inv :=
  { h with mat_rows := hm }

theorem State.Inv.setMem (h : s.Inv) {m : Memory} (hm : m.wf = true) : (s.setMem m).Inv := { h with mem_wf := hm }

theorem State.Inv.setArg (h : s.Inv) (v : Word) : (s.setArg v).Inv := { h with }

theorem State.Inv.setInLen (h : s.Inv) (v : Word) : (s.setInLen v).Inv := { h with }

theorem State.Inv.record (h : s.Inv) (off : Offset) (v : Word) : (s.record off v).Inv := { h with }

theorem State.Inv.drawn (h : s.Inv) : s.drawn.Inv := { h with }

theorem State.Inv.setInputs (h : s.Inv) (is : List Input) : (s.setInputs is).Inv := { h with }

theorem State.Inv.tick (h : s.Inv) : s.tick.Inv := { h with }

/-- A command starts with `CMD` holding its word, and `DONE` and `ERR` clear (R34). -/
theorem State.Inv.start (h : s.Inv) (v : Word) (n : Nat) : (s.start v n).Inv :=
  { h with
    busy_cmd := fun _ hv => ⟨Engine.busy.inj hv, rfl, rfl⟩
    err_done := fun _ => rfl
    err_external := ErrCode.noConfusion }

/-- The error effect shows a code that a command may report (R323, R326). -/
theorem State.Inv.raiseError (h : s.Inv) {e : ErrCode} (he : e ≠ .internal) : (s.raiseError e).Inv :=
  { h with
    busy_cmd := fun _ => Engine.noConfusion
    err_done := Bool.noConfusion
    err_external := he }

theorem State.Inv.complete (h : s.Inv) : s.complete.Inv := h.raiseError ErrCode.noConfusion

/-- The reset state meets the invariant (R350). -/
theorem State.reset_inv : State.reset.Inv where
  raw_le := Nat.zero_le _
  cw_le := Nat.zero_le _
  cw_width := Or.inl rfl
  cw_unfilled := fun _ => rfl
  cw_range := fun _ hc => absurd hc List.not_mem_nil
  mm_len := Or.inl rfl
  mem_wf := reset_mem_wf
  mat_rows := List.length_replicate
  res_legal := Or.inl ⟨rfl, rfl⟩
  busy_cmd := fun _ => Engine.noConfusion
  err_done := fun _ => rfl
  err_external := ErrCode.noConfusion

theorem State.platformReset_inv (s : State) : s.platformReset.Inv := { State.reset_inv with }

end Updates

/-! ### The invariant under the bodies of the commands -/

/-- What is asked of the end of a command's body: a value for which `P` holds, an error that is not INTERNAL (R326), or a fault. -/
structure Effect.EndsIn {α : Type} (x : Effect α) (P : α → Prop) : Prop where
  done : ∀ a, x = .done a → P a
  raise : ∀ e, x = .raise e → e ≠ .internal

theorem Effect.EndsIn.andThen {α β : Type} {x : Effect α} {k : α → Effect β} {P : α → Prop} {Q : β → Prop}
    (hx : x.EndsIn P) (hk : ∀ a, P a → (k a).EndsIn Q) : (x.andThen k).EndsIn Q where
  done b hb := by
    obtain ⟨a, ha, hb⟩ := Effect.andThen_eq_done_iff.mp hb
    exact (hk a (hx.done a ha)).done b hb
  raise e he := by
    rcases Effect.andThen_eq_raise_iff.mp he with he | ⟨a, ha, he⟩
    · exact hx.raise e he
    · exact (hk a (hx.done a ha)).raise e he

theorem Effect.endsIn_done {α : Type} {a : α} {P : α → Prop} (ha : P a) : (Effect.done a).EndsIn P where
  done _ h := Effect.done.inj h ▸ ha
  raise _ := nofun

section Bodies
variable {s : State} (h : s.Inv)
include h

theorem appendEffect_endsIn_inv {append : Bits → Nat → Nat → Bits} {nb : Nat}
    (hlen : ∀ b v, (append b v nb).length = b.length + nb) : (appendEffect append nb s).EndsIn State.Inv where
  done t ht := by
    obtain ⟨⟨-, hfits⟩, rfl⟩ := appendEffect_eq_done_iff.mp ht
    exact h.setRaw ((hlen _ _).trans_le hfits)
  raise e he := by
    rcases appendCheck_eq_some_iff.mp (appendEffect_eq_raise_iff.mp he) with ⟨-, rfl⟩ | ⟨-, -, rfl⟩ <;> decide

theorem modeEncodeEffect_endsIn_inv : (modeEncodeEffect s).EndsIn State.Inv where
  done t ht := by
    obtain ⟨bs, b, -, hb, rfl⟩ := modeEncodeEffect_eq_done_iff.mp ht
    obtain ⟨ts, -, hlen, rfl⟩ := encodeBytes_eq_done_iff.mp hb
    exact h.setRaw hlen
  raise e he := by
    rcases modeEncodeEffect_eq_raise_iff.mp he with he | ⟨bs, -, he⟩
    · rw [(State.input_eq_raise_iff.mp he).2]; decide
    · rw [encodeBytes_eq_raise he]; decide

/-- The codewords of `RAW` at a legal width fit `CW` (R45, R205). -/
theorem State.Inv.setCw_stuffPad {w : Nat} (hw : legalWidth w = true) : (s.setCw w (stuffPad w s.raw)).Inv := by
  have h2 : 2 ≤ w := by rcases legalWidth_iff.mp hw with rfl | rfl | rfl | rfl | rfl <;> decide
  exact h.setCw hw ((stuffPad_length_le hw h.raw_le).trans (by decide)) (stuffPad_lt h2)

theorem stuffPadEffect_endsIn_inv (w : Nat) : (stuffPadEffect w s).EndsIn State.Inv where
  done t ht := by
    obtain ⟨hw, c, hc, rfl⟩ := stuffPadEffect_eq_done_iff.mp ht
    obtain ⟨-, rfl⟩ := stuffed_eq_done_iff.mp hc
    exact h.setCw_stuffPad hw
  raise e he := by
    rw [(stuffPadEffect_eq_raise_iff.mp he).2]; decide

/-- A filled `CW` has one of the five widths (R39). -/
theorem State.Inv.legalWidth_of_ne_zero (hw : s.cwW ≠ 0) : legalWidth s.cwW = true :=
  legalWidth_iff.mpr (h.cw_width.resolve_left hw)

/-- The field's limit on a codeword sequence is below `CW_MAX` (R229, R45). -/
theorem State.Inv.two_pow_cwW_le (hw : s.cwW ≠ 0) : 2 ^ s.cwW ≤ 8192 := by
  rcases h.cw_width.resolve_left hw with h | h | h | h | h <;> rw [h] <;> decide

theorem rsParityEffect_endsIn_inv (r : Nat) : (rsParityEffect r s).EndsIn State.Inv where
  done t ht := by
    obtain ⟨hw, hlimit, p, hp, rfl⟩ := rsParityEffect_eq_done_iff.mp ht
    obtain ⟨hlen, rfl⟩ := parityEffect_eq_done_iff.mp hp
    have hmax := h.two_pow_cwW_le hw
    have hlegal := h.legalWidth_of_ne_zero hw
    refine h.setCw hlegal (by rw [List.length_append, hlen]; omega) fun c hc => ?_
    rcases List.mem_append.mp hc with hc | hc
    · exact h.cw_range c hc
    · exact parity_lt hlegal r _ c hc
  raise e he := by
    rcases rsParityEffect_eq_raise_iff.mp he with ⟨-, rfl⟩ | ⟨-, -, rfl⟩ <;> decide

theorem sizeSelectEffect_endsIn_inv : (sizeSelectEffect s).EndsIn State.Inv where
  done t ht := by
    obtain ⟨y, c, hy, hc, rfl⟩ := sizeSelectEffect_eq_done_iff.mp ht
    obtain ⟨-, rfl⟩ := stuffed_eq_done_iff.mp hc
    obtain ⟨hvalid, hfits⟩ := sizeSelect_eq_some hy
    have hpos : 1 ≤ (stuffPad y.width s.raw).length := by
      rw [stuffPad_length]
      exact List.length_pos_of_ne_nil stuffWords_ne_nil
    exact (h.setCw_stuffPad y.legalWidth_width).setRes (Or.inr ⟨y, _, hvalid, hpos, hfits, rfl, rfl⟩)
  raise e he := by
    rw [(sizeSelectEffect_eq_raise_iff.mp he).2]; decide

theorem modeMessageEffect_endsIn_inv (v : Word) : (modeMessageEffect v s).EndsIn State.Inv where
  done t ht := by
    obtain ⟨d, b, -, hb, rfl⟩ := modeMessageEffect_eq_done_iff.mp ht
    refine h.setMm ?_
    rw [modeMessage_length hb]
    cases d.form
    · exact Or.inl rfl
    · exact Or.inr rfl
  raise e he := by
    rw [(modeMessageEffect_eq_raise_iff.mp he).2]; decide

theorem layoutEffect_endsIn_inv (v : Word) : (layoutEffect v s).EndsIn State.Inv where
  done t ht := by
    obtain ⟨d, m, -, -, -, -, hm, rfl⟩ := layoutEffect_eq_done_iff.mp ht
    obtain ⟨-, rfl⟩ := layoutMatrix_eq_done_iff.mp hm
    exact h.setMat (paint_length _)
  raise e he := by
    rcases layoutEffect_eq_raise_iff.mp he with ⟨-, rfl⟩ | ⟨d, -, -, rfl⟩ <;> decide

/-- `ENCODE` keeps what each of its five stages keeps (R310). -/
theorem encodeEffect_endsIn_inv : (encodeEffect s).EndsIn State.Inv :=
  (modeEncodeEffect_endsIn_inv h).andThen fun _ h1 =>
    (sizeSelectEffect_endsIn_inv h1).andThen fun _ h2 =>
      (rsParityEffect_endsIn_inv h2 _).andThen fun _ h3 =>
        (modeMessageEffect_endsIn_inv h3 _).andThen fun _ h4 => layoutEffect_endsIn_inv h4 _

end Bodies

/-! ### The invariant under a step -/

section Steps
variable {s t : State}

theorem commandBody_endsIn_inv (h : s.Inv) (i : Instr) : (commandBody i s).EndsIn State.Inv := by
  cases i with
  | nop => exact Effect.endsIn_done h
  | bbClear => exact Effect.endsIn_done (h.setRaw (Nat.zero_le _))
  | bbAppendMsb nb => exact appendEffect_endsIn_inv h fun b v => by simp [appendMsb]
  | bbAppendLsb nb => exact appendEffect_endsIn_inv h fun b v => by simp [appendLsb]
  | modeEncode => exact modeEncodeEffect_endsIn_inv h
  | stuffPad w => exact stuffPadEffect_endsIn_inv h w
  | rsParity r => exact rsParityEffect_endsIn_inv h r
  | sizeSelect => exact sizeSelectEffect_endsIn_inv h
  | modeMessage => exact modeMessageEffect_endsIn_inv h s.arg
  | layout => exact layoutEffect_endsIn_inv h s.arg
  | encode => exact encodeEffect_endsIn_inv h

theorem exec_keeps_inv (h : s.Inv) {i : Instr} (ht : exec i s = .next t) : t.Inv := by
  rcases exec_eq_next_iff.mp ht with ⟨u, hu, rfl⟩ | ⟨e, he, rfl⟩
  · exact ((commandBody_endsIn_inv h i).done u hu).complete
  · exact h.raiseError ((commandBody_endsIn_inv h i).raise e he)

theorem completeCommand_keeps_inv (h : s.Inv) {v : Word} (ht : completeCommand v s = .next t) : t.Inv := by
  rcases completeCommand_cases v s with ⟨i, -, hi⟩ | ⟨e, -, he⟩
  · exact exec_keeps_inv h (hi ▸ ht)
  · cases he.symm.trans ht
    exact h.raiseError (by decide)

theorem hostRead_keeps_inv (h : s.Inv) {off : Offset} {n : Nat} (ht : hostRead off n s = .next t) : t.Inv := by
  obtain ⟨-, ⟨v, -, rfl⟩ | ⟨-, rfl⟩⟩ := hostRead_eq_next_iff.mp ht
  · exact h.record off v
  · exact (h.record off _).drawn

/-- The input window of the address map (R72). -/
theorem region_eq_input {a q : Nat} (h : region a = .input q) : 0x2000 ≤ a ∧ a ≤ 0x3FFF ∧ q = (a - 0x2000) / 4 := by
  unfold region at h
  split_ifs at h with hreg hwin
  · split at h <;> cases h
  · exact ⟨hwin.1, hwin.2, (Region.input.inj h).symm⟩

/-- A host write changes the state in four places only (R72). -/
theorem writeRegion_cases (s : State) (g : Region) (v : Word) :
    writeRegion s g v = s ∨ (g = .cmd ∧ writeRegion s g v = (s.start v (Config.latency v s.draws)).drawn) ∨
      (g = .arg ∧ writeRegion s g v = s.setArg v) ∨ (g = .inLen ∧ writeRegion s g v = s.setInLen v) ∨
        ∃ q, g = .input q ∧ writeRegion s g v = s.setMem (s.mem.writeWord q v) := by
  cases g <;> simp [writeRegion]

theorem writeRegion_keeps_inv (h : s.Inv) (a : Nat) (v : Word) : (writeRegion s (region a) v).Inv := by
  rcases writeRegion_cases s (region a) v with e | ⟨-, e⟩ | ⟨-, e⟩ | ⟨-, e⟩ | ⟨q, hq, e⟩ <;> rw [e]
  · exact h
  · exact (h.start v _).drawn
  · exact h.setArg v
  · exact h.setInLen v
  · obtain ⟨-, hle, hword⟩ := region_eq_input hq
    exact h.setMem (Memory.wf_writeWord _ q v h.mem_wf (by omega))

theorem hostWrite_keeps_inv (h : s.Inv) {off : Offset} {n : Nat} {v : Word} (ht : hostWrite off n v s = .next t) :
    t.Inv := by
  obtain ⟨-, -, rfl⟩ := hostWrite_eq_next_iff.mp ht
  exact writeRegion_keeps_inv h off.toNat v

theorem pollStatus_keeps_inv (h : s.Inv) (rest : List Input) : (pollStatus rest s).Inv := by
  rw [pollStatus_eq_setInputs]
  exact (h.record _ _).setInputs _

theorem inputStep_keeps_inv (h : s.Inv) (ht : inputStep s = .next t) : t.Inv := by
  rcases inputStep_eq_next_iff.mp ht with ⟨-, rfl⟩ | ⟨off, n, rest, -, ht⟩ | ⟨off, n, v, rest, -, ht⟩ |
    ⟨rest, -, rfl⟩ | ⟨rest, -, rfl⟩
  · exact h
  · exact hostRead_keeps_inv (h.setInputs rest) ht
  · exact hostWrite_keeps_inv (h.setInputs rest) ht
  · exact pollStatus_keeps_inv h rest
  · exact State.platformReset_inv _

end Steps

/-- Settles O60: the completion step keeps the invariant because every command's body does, and the outside's move because every
host access, poll and reset does. -/
theorem stepKeepsInvariant : Obligations.StepKeepsInvariant := by
  unfold Obligations.StepKeepsInvariant
  intro s t h ht
  rcases step_cases (s := s) with ⟨-, hs⟩ | ⟨v, -, -, hs⟩ | ⟨v, -, -, hs⟩
  · exact inputStep_keeps_inv h (hs ▸ ht)
  · exact completeCommand_keeps_inv h (hs ▸ ht)
  · exact inputStep_keeps_inv h.tick (hs ▸ ht)

/-- Settles O59. -/
theorem resetMeetsInvariant : Obligations.ResetMeetsInvariant := State.reset_inv

/-! ### The step at the completion -/

section Completion
variable {s : State} {v : Word}

theorem step_of_busy_of_wait_eq_zero (h : s.eng = .busy v) (hw : s.wait = 0) : step s = completeCommand v s := by
  simp only [step, machineStep, h, if_pos hw]

theorem completeCommand_of_decode_ok {i : Instr} (h : decode v = .ok i) : completeCommand v s = exec i s := by
  simp only [completeCommand, h]

theorem completeCommand_of_decode_error {e : DecodeReject} (h : decode v = .error e) :
    completeCommand v s = .next (s.raiseError .illegalCommand) := by
  simp only [completeCommand, h]

end Completion

/-- Settles O5. -/
theorem stepRunsDecodedCommand : Obligations.StepRunsDecodedCommand := by
  unfold Obligations.StepRunsDecodedCommand
  intro s v i h hw hd _
  rw [step_of_busy_of_wait_eq_zero h hw, completeCommand_of_decode_ok hd]

/-- Settles O6: the error effect is the update the statement writes out. -/
theorem undecodableWordEndsInIllegalCommand : Obligations.UndecodableWordEndsInIllegalCommand := by
  unfold Obligations.UndecodableWordEndsInIllegalCommand
  intro s v e h hw hd
  rw [step_of_busy_of_wait_eq_zero h hw, completeCommand_of_decode_error hd]
  rfl

/-! ### Host accesses -/

section Access
variable {s : State} {off : Offset} {v : Word}

theorem hostWrite_of_idle (h : s.eng = .idle) (ha : off.toNat % 4 = 0) (v : Word) :
    hostWrite off 4 v s = .next (writeRegion s (region off.toNat) v) :=
  hostWrite_eq_next_iff.mpr ⟨busLegal_iff.mpr ⟨rfl, ha⟩, (State.busy_eq_false_iff s).mpr h, rfl⟩

theorem hostWrite_of_busy {u : Word} (h : s.eng = .busy u) (ha : off.toNat % 4 = 0) (v : Word) :
    hostWrite off 4 v s = .fault .hostWriteWhileBusy :=
  hostWrite_eq_fault_iff.mpr (Or.inr ⟨busLegal_iff.mpr ⟨rfl, ha⟩, (State.busy_eq_true_iff s).mpr ⟨u, h⟩, rfl⟩)

theorem hostRead_of_value (ha : off.toNat % 4 = 0) (hr : readRegion s (region off.toNat) = .value v) :
    hostRead off 4 s = .next (s.record off v) :=
  hostRead_eq_next_iff.mpr ⟨busLegal_iff.mpr ⟨rfl, ha⟩, Or.inl ⟨v, hr, rfl⟩⟩

theorem resultRead_of_idle (h : s.eng = .idle) (v : Word) : resultRead s v = .value v := by
  simp [resultRead, (State.busy_eq_false_iff s).mpr h]

/-- The three registers a host may write stand below 0x00C (R33). -/
theorem lt_of_region_writable {a : Nat} {g : Region} (hg : g = .cmd ∨ g = .arg ∨ g = .inLen) (h : region a = g) :
    a < 0x00C := by
  subst h
  unfold region at hg
  split_ifs at hg
  · split at hg <;> simp at hg <;> omega
  all_goals simp at hg

/-- A write to a place that is neither a writable register nor the input window is ignored (R33, R72). -/
theorem writeRegion_eq_self {a : Nat} (ha : 0x00C ≤ a) (hw : ¬(0x2000 ≤ a ∧ a ≤ 0x3FFF)) :
    writeRegion s (region a) v = s := by
  rcases writeRegion_cases s (region a) v with e | ⟨hg, -⟩ | ⟨hg, -⟩ | ⟨hg, -⟩ | ⟨q, hq, -⟩
  · exact e
  · exact absurd ha (Nat.not_le.mpr (lt_of_region_writable (Or.inl rfl) hg))
  · exact absurd ha (Nat.not_le.mpr (lt_of_region_writable (Or.inr (Or.inl rfl)) hg))
  · exact absurd ha (Nat.not_le.mpr (lt_of_region_writable (Or.inr (Or.inr rfl)) hg))
  · obtain ⟨hge, hle, -⟩ := region_eq_input hq
    exact absurd ⟨hge, hle⟩ hw

/-- The gaps of the address map (R72). -/
theorem region_eq_unmapped {a : Nat} (h : (0x02C ≤ a ∧ a < 0x2000) ∨ (0x49C0 ≤ a ∧ a < 0x5000) ∨
    (0x5BCC ≤ a ∧ a < 0x8000)) : region a = .unmapped := by
  unfold region
  rw [if_neg, if_neg, if_neg, if_neg, if_neg] <;> omega

end Access

/-- Settles O50. -/
theorem cmdWriteStartsCommand : Obligations.CmdWriteStartsCommand := by
  unfold Obligations.CmdWriteStartsCommand
  exact ⟨fun s v h => ⟨Config.latency v s.draws, hostWrite_of_idle h rfl v⟩, fun s => hostRead_of_value rfl rfl, rfl,
    fun s u v h => hostWrite_of_busy h rfl v⟩

/-- Settles O51. -/
theorem argAndInLenAreStored : Obligations.ArgAndInLenAreStored := by
  unfold Obligations.ArgAndInLenAreStored
  intro s v h
  have hlow : (v.extractLsb' 0 16).toNat = v.toNat % 65536 := by simp [BitVec.extractLsb'_toNat]
  refine ⟨hostWrite_of_idle h rfl v, hostRead_of_value rfl rfl, s.setInLen v, hostWrite_of_idle h rfl v, rfl, hlow,
    (v.extractLsb' 0 16).setWidth 32, ?_, hostRead_of_value rfl rfl⟩
  rw [BitVec.toNat_setWidth, hlow]
  omega

/-- Settles O52. -/
theorem otherWritesAreIgnored : Obligations.OtherWritesAreIgnored := by
  unfold Obligations.OtherWritesAreIgnored
  refine ⟨fun s off v h ha hlow hw => ?_, fun s off ha hgap => ?_⟩
  · rw [hostWrite_of_idle h ha, writeRegion_eq_self hlow hw]
  · exact hostRead_of_value ha (by rw [region_eq_unmapped hgap]; rfl)

/-! ### Words made of fields -/

/-- A word made of a field above `n` lower bits. -/
theorem shiftLeft_or_toNat {x y : Word} {n : Nat} (hx : x.toNat * 2 ^ n < 2 ^ 32) (hy : y.toNat < 2 ^ n) :
    (x <<< n ||| y).toNat = x.toNat * 2 ^ n + y.toNat := by
  rw [BitVec.toNat_or, BitVec.toNat_shiftLeft, Nat.shiftLeft_eq, Nat.mod_eq_of_lt hx, ← Nat.shiftLeft_eq,
    ← Nat.shiftLeft_add_eq_or_of_lt hy]

theorem halves_toNat {a b : Nat} (ha : a < 2 ^ 16) (hb : b < 2 ^ 16) :
    (BitVec.ofNat 32 a <<< 16 ||| BitVec.ofNat 32 b).toNat = a * 2 ^ 16 + b := by
  have ha' : (BitVec.ofNat 32 a).toNat = a := Nat.mod_eq_of_lt (by omega)
  have hb' : (BitVec.ofNat 32 b).toNat = b := Nat.mod_eq_of_lt (by omega)
  rw [shiftLeft_or_toNat (by omega) (by omega), ha', hb']

/-- A field of `n` bits at bit `k` has no bit in a mask that is clear there. -/
theorem field_and_mask {x n k : Nat} {m : Word} (hx : x < 2 ^ n) (hm : ∀ j < n, m.getLsbD (k + j) = false) :
    BitVec.ofNat 32 x <<< k &&& m = 0#32 := by
  have key := Laws.WordShape.operand_and_mask x k 0#32 m (by simp) fun j _ hk hbit => by
    have := hm (j - k) (Laws.WordShape.testBit_high hx hbit)
    rwa [Nat.add_sub_cancel' hk] at this
  simpa using key

theorem halves_and_mask {a b p q : Nat} {m : Word} (ha : a < 2 ^ p) (hb : b < 2 ^ q)
    (hma : ∀ j < p, m.getLsbD (16 + j) = false) (hmb : ∀ j < q, m.getLsbD (0 + j) = false) :
    (BitVec.ofNat 32 a <<< 16 ||| BitVec.ofNat 32 b) &&& m = 0#32 := by
  have hb' := field_and_mask hb hmb
  rw [BitVec.shiftLeft_zero] at hb'
  rw [BitVec.and_or_distrib_right, field_and_mask ha hma, hb', BitVec.or_self]

/-! ### The registers that show a buffer, and STATUS -/

section Views
variable {s : State}

/-- The five fields of a word laid out as `STATUS` is (R37), for each of their 64 values. -/
theorem statusLayout_fields {v : Word} {c : BitVec 4} {d b : Bool}
    (hv : v = 0#24 ++ c ++ 0#2 ++ BitVec.ofBool d ++ BitVec.ofBool b) :
    v.getLsbD 0 = b ∧ v.getLsbD 1 = d ∧ v.extractLsb' 2 2 = 0#2 ∧ v.extractLsb' 4 4 = c ∧ v.extractLsb' 8 24 = 0#24 := by
  subst hv
  decide +revert

theorem State.busy_eq_decide (s : State) : s.busy = decide (s.eng ≠ .idle) := by
  unfold State.busy
  cases s.eng <;> rfl

theorem mm1_getLsbD (h : s.mm.length < 2 ^ 6) {j : Nat} (hj : j < 32) :
    s.mm1.getLsbD j = if 24 ≤ j then s.mm.getD (63 - j) false else s.mm.length.testBit j := by
  have hpack := packWord_getLsbD ((s.mm.drop 32).take 8) (31 - j) (by omega)
  rw [show 31 - (31 - j) = j by omega] at hpack
  rw [State.mm1, BitVec.getLsbD_or, hpack, BitVec.getLsbD_ofNat, decide_eq_true hj, Bool.true_and,
    List.getD_eq_getElem?_getD, List.getElem?_take]
  split_ifs with hshown hhigh hhigh
  · have hbit : s.mm.length.testBit j = false :=
      Nat.testBit_lt_two_pow (h.trans_le (Nat.pow_le_pow_right (by decide) (by omega)))
    rw [hbit, Bool.or_false, List.getElem?_drop, List.getD_eq_getElem?_getD, show 32 + (31 - j) = 63 - j by omega]
  · omega
  · omega
  · rfl

/-- Bits 23:0 of `MM1` are `MM_LEN`, which fits in the lowest 6 of them (R41). -/
theorem mm1_fields (h : s.mm.length < 2 ^ 6) :
    (s.mm1.extractLsb' 0 6).toNat = s.mm.length ∧ s.mm1.extractLsb' 6 18 = 0#18 := by
  constructor
  · refine Nat.eq_of_testBit_eq fun j => ?_
    rw [BitVec.testBit_toNat, BitVec.getLsbD_extractLsb', Nat.zero_add]
    by_cases hj : j < 6
    · rw [mm1_getLsbD h (by omega), if_neg (by omega), decide_eq_true hj, Bool.true_and]
    · rw [decide_eq_false hj, Bool.false_and, Nat.testBit_lt_two_pow]
      exact h.trans_le (Nat.pow_le_pow_right (by decide) (Nat.le_of_not_lt hj))
  · refine BitVec.eq_of_getLsbD_eq fun j hj => ?_
    rw [BitVec.getLsbD_extractLsb', mm1_getLsbD h (by omega), if_neg (by omega), BitVec.getLsbD_zero,
      Nat.testBit_lt_two_pow, Bool.and_false]
    exact h.trans_le (Nat.pow_le_pow_right (by decide) (by omega))

/-- `CW_STAT` holds its two fields and nothing else (R39). -/
theorem cwStat_fields (hw : s.cwW < 2 ^ 4) (hc : s.cw.length < 2 ^ 14) :
    (s.cwStat.extractLsb' 0 14).toNat = s.cw.length ∧ (s.cwStat.extractLsb' 16 4).toNat = s.cwW ∧
      s.cwStat &&& 0xFFF0C000#32 = 0#32 := by
  have hword : s.cwStat.toNat = s.cwW * 2 ^ 16 + s.cw.length := halves_toNat (by omega) (by omega)
  refine ⟨?_, ?_, halves_and_mask hw hc (by decide) (by decide)⟩
  · rw [BitVec.extractLsb'_toNat, hword, Nat.shiftRight_eq_div_pow]
    omega
  · rw [BitVec.extractLsb'_toNat, hword, Nat.shiftRight_eq_div_pow]
    omega

theorem rawLen_toNat (h : s.raw.length < 2 ^ 32) : s.rawLen.toNat = s.raw.length := Nat.mod_eq_of_lt h

end Views

/-- Settles O54. -/
theorem statusWordFields : Obligations.StatusWordFields := by
  unfold Obligations.StatusWordFields
  intro s
  rw [← State.busy_eq_decide]
  exact statusLayout_fields rfl

/-- Settles O55. -/
theorem viewRegisters : Obligations.ViewRegisters := by
  unfold Obligations.ViewRegisters
  refine ⟨fun s h => ?_, fun s h => ?_⟩
  · have hraw : s.raw.length < 2 ^ 32 := h.raw_le.trans_lt (by decide)
    have hcw : s.cw.length < 2 ^ 14 := h.cw_le.trans_lt (by decide)
    have hwidth : s.cwW < 2 ^ 4 := by have := h.cw_width; omega
    have hmm : s.mm.length < 2 ^ 6 := by have := h.mm_len; omega
    obtain ⟨hcount, hw, hzero⟩ := cwStat_fields hwidth hcw
    obtain ⟨hlen, hrest⟩ := mm1_fields hmm
    refine ⟨rawLen_toNat hraw, hcount, hw, hzero, fun i hi => packWord_getLsbD s.mm i hi, fun i h1 h2 => ?_, hlen, hrest⟩
    rw [mm1_getLsbD hmm (by omega), if_pos (by omega), show 63 - (31 - (i - 32)) = i by omega]
  · exact ⟨hostRead_of_value rfl rfl, hostRead_of_value rfl rfl, hostRead_of_value rfl rfl, hostRead_of_value rfl rfl,
      hostRead_of_value rfl (resultRead_of_idle h _), hostRead_of_value rfl (resultRead_of_idle h _),
      hostRead_of_value rfl (resultRead_of_idle h _), hostRead_of_value rfl (resultRead_of_idle h _),
      hostRead_of_value rfl (resultRead_of_idle h _), hostRead_of_value rfl (resultRead_of_idle h _),
      hostRead_of_value rfl rfl⟩

/-! ### The result registers -/

theorem res0Word_fields {y : Symbol} (hy : y.valid = true) :
    (res0Word y).toNat = (if y.form = .full then 1 else 0) + 256 * y.layers + 65536 * y.width + 16777216 * y.side ∧
      resForm (res0Word y) = (if y.form = .full then 1 else 0) ∧ resLayers (res0Word y) = y.layers ∧
      resW (res0Word y) = y.width ∧ resSide (res0Word y) = y.side ∧ res0Word y &&& 0x00F0C0FE#32 = 0#32 := by
  rw [← mem_candidates_iff] at hy
  revert y
  decide

theorem Symbol.total_lt {y : Symbol} (hy : y.valid = true) : y.total < 2 ^ 12 := by
  rw [← mem_candidates_iff] at hy
  revert y
  decide

theorem res1Word_fields {y : Symbol} {k : Nat} (hn : y.total < 2 ^ 12) (hk : k < 2 ^ 12) :
    (res1Word y k).toNat = y.total + 65536 * k ∧ resN (res1Word y k) = y.total ∧ resK (res1Word y k) = k ∧
      res1Word y k &&& 0xF000F000#32 = 0#32 := by
  have hword : (res1Word y k).toNat = k * 2 ^ 16 + y.total := halves_toNat (by omega) (by omega)
  refine ⟨by omega, ?_, ?_, halves_and_mask hk hn (by decide) (by decide)⟩
  · rw [resN, BitVec.extractLsb'_toNat, hword, Nat.shiftRight_eq_div_pow]
    omega
  · rw [resK, BitVec.extractLsb'_toNat, hword, Nat.shiftRight_eq_div_pow]
    omega

/-- Settles O26: the rows are computed from R251 to R258; the fields of each word do not overlap. -/
theorem resultRegistersShowTheSymbol : Obligations.ResultRegistersShowTheSymbol := by
  unfold Obligations.ResultRegistersShowTheSymbol
  refine ⟨rfl, fun y k hy hk => ?_⟩
  have hn := Symbol.total_lt hy
  obtain ⟨h0, hform, hlayers, hwidth, hside, hzero0⟩ := res0Word_fields hy
  obtain ⟨h1, hN, hK, hzero1⟩ := res1Word_fields (k := k) hn (by omega)
  exact ⟨h0, h1, hform, hlayers, hwidth, hside, hN, hK, hzero0, hzero1⟩

end Sys2Proof.Machine
end

