-- ==== Sys2Proof/Proofs/Memory.lean ====
section
/-! PROOFS. The address space of AZC (20_memory.md): the windows of the address map, what a read of each gets while idle and while
a command runs, and the bits of a window's words. -/

namespace Sys2Proof.Machine

/-! ### The address map -/

section Map
variable {a : Nat}

theorem region_of_inputWindow (hlo : 0x2000 ≤ a) (hhi : a ≤ 0x3FFF) : region a = .input ((a - 0x2000) / 4) := by
  unfold region
  rw [if_neg (by omega), if_pos ⟨hlo, hhi⟩]

theorem region_of_rawWindow (hlo : 0x4000 ≤ a) (hhi : a ≤ 0x49BF) : region a = .rawWindow ((a - 0x4000) / 4) := by
  unfold region
  rw [if_neg (by omega), if_neg (by omega), if_pos ⟨hlo, hhi⟩]

theorem region_of_matWindow (hlo : 0x5000 ≤ a) (hhi : a ≤ 0x5BCB) :
    region a = .matWindow ((a - 0x5000) / 20) ((a - 0x5000) % 20 / 4) := by
  unfold region
  rw [if_neg (by omega), if_neg (by omega), if_neg (by omega), if_pos ⟨hlo, hhi⟩]

theorem region_of_cwWindow (hlo : 0x8000 ≤ a) : region a = .cwWindow ((a - 0x8000) / 4) := by
  unfold region
  rw [if_neg (by omega), if_neg (by omega), if_neg (by omega), if_neg (by omega), if_pos hlo]

theorem region_inputWord {q : Nat} (hq : q < 2048) : region (0x2000 + 4 * q) = .input q := by
  rw [region_of_inputWindow (by omega) (by omega)]
  congr 1
  omega

theorem region_rawWord {q : Nat} (hq : q < 624) : region (0x4000 + 4 * q) = .rawWindow q := by
  rw [region_of_rawWindow (by omega) (by omega)]
  congr 1
  omega

theorem region_matWord {r q : Nat} (hr : r < 151) (hq : q < 5) : region (0x5000 + 20 * r + 4 * q) = .matWindow r q := by
  rw [region_of_matWindow (by omega) (by omega)]
  congr 1 <;> omega

theorem region_cwWord (i : Nat) : region (0x8000 + 4 * i) = .cwWindow i := by
  rw [region_of_cwWindow (by omega)]
  congr 1
  omega

/-- `CMD` stands at offset 0 alone (R33). -/
theorem lt_four_of_region_eq_cmd (h : region a = .cmd) : a < 4 := by
  have hlow : a < 0x00C := lt_of_region_writable (Or.inl rfl) h
  by_contra hge
  interval_cases a <;> cases h

end Map

/-! ### Reads and writes of the host -/

section Access
variable {s : State} {off : Offset} {v : Word} {f : Fault} {a : Nat}

theorem offset_toNat (ha : a < 2 ^ 16) : (BitVec.ofNat 16 a).toNat = a := Nat.mod_eq_of_lt ha

theorem hostRead_of_stop (ha : off.toNat % 4 = 0) (hr : readRegion s (region off.toNat) = .stop f) :
    hostRead off 4 s = .fault f :=
  hostRead_eq_fault_iff.mpr (Or.inr ⟨busLegal_iff.mpr ⟨rfl, ha⟩, hr⟩)

theorem hostRead_of_anyValue (ha : off.toNat % 4 = 0) (hr : readRegion s (region off.toNat) = .anyValue) :
    hostRead off 4 s = .next (s.record off (Config.busyRead s.draws)).drawn :=
  hostRead_eq_next_iff.mpr ⟨busLegal_iff.mpr ⟨rfl, ha⟩, Or.inr ⟨hr, rfl⟩⟩

theorem hostRead_ofNat_of_value (hlt : a < 2 ^ 16) (ha : a % 4 = 0) (hr : readRegion s (region a) = .value v) :
    hostRead (BitVec.ofNat 16 a) 4 s = .next (s.record (BitVec.ofNat 16 a) v) :=
  hostRead_of_value (by rwa [offset_toNat hlt]) (by rwa [offset_toNat hlt])

theorem hostRead_ofNat_of_stop (hlt : a < 2 ^ 16) (ha : a % 4 = 0) (hr : readRegion s (region a) = .stop f) :
    hostRead (BitVec.ofNat 16 a) 4 s = .fault f :=
  hostRead_of_stop (by rwa [offset_toNat hlt]) (by rwa [offset_toNat hlt])

theorem resultRead_of_busy {u : Word} (h : s.eng = .busy u) (v : Word) : resultRead s v = .anyValue := by
  simp [resultRead, (State.busy_eq_true_iff s).mpr ⟨u, h⟩]

/-! What a read of each window gets (R74 to R77). -/

theorem readRegion_input_of_some {q : Nat} (h : s.mem.readWord q = some v) : readRegion s (.input q) = .value v := by
  simp only [readRegion, h]

theorem readRegion_input_of_none {q : Nat} (h : s.mem.readWord q = none) :
    readRegion s (.input q) = .stop .hostReadsUnwrittenInput := by
  simp only [readRegion, h]

theorem readRegion_matWindow_of_written (h : s.matWritten = true) (r q : Nat) :
    readRegion s (.matWindow r q) = resultRead s (s.matWord r q) := if_pos h

theorem readRegion_matWindow_of_unwritten (h : s.matWritten = false) (r q : Nat) :
    readRegion s (.matWindow r q) = .stop .hostReadsUnwrittenMatrix := if_neg (by simp [h])

/-- A read sees neither the host's record nor the draw count (R79). -/
theorem readRegion_record (g : Region) : readRegion (s.record off v) g = readRegion s g := by
  cases g <;> rfl

/-- Everything a read of a place can get: its value, a result read, or the fault of one of two windows (R74, R77, R81). -/
theorem readRegion_cases (s : State) (g : Region) :
    (∃ v, readRegion s g = .value v) ∨ (∃ v, readRegion s g = resultRead s v) ∨
      readRegion s g = .stop .hostReadsUnwrittenInput ∨ readRegion s g = .stop .hostReadsUnwrittenMatrix := by
  cases g with
  | input q =>
    cases hw : s.mem.readWord q with
    | some v => exact Or.inl ⟨v, readRegion_input_of_some hw⟩
    | none => exact Or.inr (Or.inr (Or.inl (readRegion_input_of_none hw)))
  | matWindow r q =>
    cases hw : s.matWritten with
    | true => exact Or.inr (Or.inl ⟨_, readRegion_matWindow_of_written hw r q⟩)
    | false => exact Or.inr (Or.inr (Or.inr (readRegion_matWindow_of_unwritten hw r q)))
  | cmd | arg | inLen | status | ident | unmapped => exact Or.inl ⟨_, rfl⟩
  | rawLen | cwStat | res0 | res1 | mm0 | mm1 | rawWindow | cwWindow => exact Or.inr (Or.inl ⟨_, rfl⟩)

theorem readRegion_eq_stop {g : Region} (h : readRegion s g = .stop f) :
    f = .hostReadsUnwrittenInput ∨ f = .hostReadsUnwrittenMatrix := by
  rcases readRegion_cases s g with ⟨v, e⟩ | ⟨v, e⟩ | e | e <;> rw [e] at h
  · cases h
  · unfold resultRead at h
    split_ifs at h
  · exact Or.inl (ReadResult.stop.inj h).symm
  · exact Or.inr (ReadResult.stop.inj h).symm

/-- Only a running command makes a read a free draw (R79, R81). -/
theorem readRegion_ne_anyValue_of_idle (h : s.eng = .idle) (g : Region) : readRegion s g ≠ .anyValue := by
  rcases readRegion_cases s g with ⟨v, e⟩ | ⟨v, e⟩ | e | e <;> rw [e]
  · nofun
  · rw [resultRead_of_idle h]
    nofun
  · nofun
  · nofun

/-- The places a running command may update: a read of one is a result read (R81). -/
theorem exists_readRegion_eq_resultRead
    (h : (0x010 ≤ a ∧ a ≤ 0x024) ∨ (0x4000 ≤ a ∧ a ≤ 0x49BF) ∨ 0x8000 ≤ a ∨
      (0x5000 ≤ a ∧ a ≤ 0x5BCB ∧ s.matWritten = true)) :
    ∃ v, readRegion s (region a) = resultRead s v := by
  rcases h with ⟨hlo, hhi⟩ | ⟨hlo, hhi⟩ | hlo | ⟨hlo, hhi, hw⟩
  · interval_cases a <;> exact ⟨_, rfl⟩
  · rw [region_of_rawWindow hlo hhi]
    exact ⟨_, rfl⟩
  · rw [region_of_cwWindow hlo]
    exact ⟨_, rfl⟩
  · rw [region_of_matWindow hlo hhi]
    exact ⟨_, readRegion_matWindow_of_written hw _ _⟩

end Access

/-! ### The words of the windows -/

section Words
variable {s : State} {m : Memory} {q : Nat}

theorem Memory.readWord_of_reads {b0 b1 b2 b3 : Byte} (h0 : m.read (4 * q) = some b0)
    (h1 : m.read (4 * q + 1) = some b1) (h2 : m.read (4 * q + 2) = some b2) (h3 : m.read (4 * q + 3) = some b3) :
    m.readWord q = some (b3 ++ b2 ++ b1 ++ b0) := by
  simp only [Memory.readWord, h0, h1, h2, h3]

theorem Memory.readWord_eq_none_of_read {j : Nat} (hj : j < 4) (h : m.read (4 * q + j) = none) : m.readWord q = none := by
  unfold Memory.readWord
  split
  next h0 h1 h2 h3 => interval_cases j <;> simp [h0, h1, h2, h3] at h
  next => rfl

theorem append_toNat {n k : Nat} (x : BitVec n) (y : BitVec k) : (x ++ y).toNat = x.toNat * 2 ^ k + y.toNat := by
  rw [BitVec.toNat_append, ← Nat.shiftLeft_add_eq_or_of_lt y.isLt, Nat.shiftLeft_eq]

/-- The first byte of an input word is the least significant one (R74). -/
theorem bytes_toNat (b0 b1 b2 b3 : Byte) :
    (b3 ++ b2 ++ b1 ++ b0).toNat = b0.toNat + b1.toNat * 256 + b2.toNat * 65536 + b3.toNat * 16777216 := by
  simp only [append_toNat]
  omega

/-- `Memory.read_writeWord` by the word and the place in it. -/
theorem Memory.read_writeWord_div (m : Memory) (q x : Nat) (v : Word) :
    (m.writeWord q v).read x = if x / 4 = q then some (v.extractLsb' (8 * (x % 4)) 8) else m.read x := by
  rw [Memory.read_writeWord]
  by_cases hq : x / 4 = q
  · have hx : x = 4 * q + x % 4 := by omega
    have hlt : x % 4 < 4 := Nat.mod_lt _ (by decide)
    rw [if_pos hq]
    generalize x % 4 = j at hx hlt
    subst hx
    interval_cases j <;> simp
  · rw [if_neg hq, if_neg, if_neg, if_neg, if_neg] <;> omega

theorem rawWord_getLsbD {j : Nat} (hj : j < 32) :
    (s.rawWord q).getLsbD (31 - j) = s.raw.getD (32 * q + j) false := by
  rw [State.rawWord, packWord_getLsbD _ j hj, List.getD_eq_getElem?_getD, List.getElem?_take_of_lt hj,
    List.getElem?_drop, List.getD_eq_getElem?_getD]

/-- The bits of a MAT word: a row is 151 modules and then 9 zeros (R77). -/
theorem matWord_getLsbD (r : Nat) {j : Nat} (hq : q < 5) (hj : j < 32) :
    (s.matWord r q).getLsbD (31 - j) = if 32 * q + j ≤ 150 then s.module r (32 * q + j) else false := by
  have hpos : 128 - 32 * q + (31 - j) = 159 - (32 * q + j) := by omega
  rw [State.matWord, BitVec.getLsbD_extractLsb', decide_eq_true (by omega), Bool.true_and, BitVec.getLsbD_append, hpos]
  split_ifs with hpad hcol hcol
  · omega
  · exact BitVec.getLsbD_zero
  · rw [State.module, BitVec.getMsbD_eq_getLsbD, decide_eq_true (by omega), Bool.true_and]
    congr 1
    omega
  · omega

variable {i : Nat}

theorem cw_getD_lt (h : ∀ c ∈ s.cw, c < 2 ^ s.cwW) : s.cw.getD i 0 < 2 ^ s.cwW := by
  rw [List.getD_eq_getElem?_getD]
  cases hi : s.cw[i]? with
  | none => exact Nat.two_pow_pos _
  | some c => exact h c (List.mem_of_getElem? hi)

theorem cwWord_toNat (hw : s.cwW ≤ 12) (h : ∀ c ∈ s.cw, c < 2 ^ s.cwW) : (s.cwWord i).toNat = s.cw.getD i 0 :=
  Nat.mod_eq_of_lt ((cw_getD_lt h).trans_le (Nat.pow_le_pow_right (by decide) (by omega)))

/-- A codeword has no bit at or above its width (R76). -/
theorem cwWord_getLsbD_of_width_le (hw : s.cwW ≤ 12) (h : ∀ c ∈ s.cw, c < 2 ^ s.cwW) {j : Nat} (hj : s.cwW ≤ j) :
    (s.cwWord i).getLsbD j = false := by
  rw [← BitVec.testBit_toNat, cwWord_toNat hw h]
  exact Nat.testBit_lt_two_pow ((cw_getD_lt h).trans_le (Nat.pow_le_pow_right (by decide) hj))

end Words

/-! ### The statements -/

/-- Settles O43: the word of the window is `writeWord` and `readWord` of the input buffer. -/
theorem inputWindow : Obligations.InputWindow := by
  unfold Obligations.InputWindow
  refine ⟨fun s q v hq h => ?_, fun s q b0 b1 b2 b3 hq h0 h1 h2 h3 => ?_, fun s q j hq hj hnone => ?_⟩
  · refine ⟨s.mem.writeWord q v, ?_, fun x => Memory.read_writeWord_div s.mem q x v⟩
    have hoff : (BitVec.ofNat 16 (0x2000 + 4 * q)).toNat = 0x2000 + 4 * q := offset_toNat (by omega)
    rw [hostWrite_of_idle h (by omega), hoff, region_inputWord hq]
    rfl
  · refine ⟨b3 ++ b2 ++ b1 ++ b0, bytes_toNat b0 b1 b2 b3, hostRead_ofNat_of_value (by omega) (by omega) ?_⟩
    rw [region_inputWord hq]
    exact readRegion_input_of_some (Memory.readWord_of_reads h0 h1 h2 h3)
  · refine hostRead_ofNat_of_stop (by omega) (by omega) ?_
    rw [region_inputWord hq]
    exact readRegion_input_of_none (Memory.readWord_eq_none_of_read hj hnone)

/-- Settles O44: an idle read of the window gets `rawWord`. -/
theorem rawWindow : Obligations.RawWindow := by
  unfold Obligations.RawWindow
  intro s q hq h
  refine ⟨s.rawWord q, hostRead_ofNat_of_value (by omega) (by omega) ?_, fun j hj => rawWord_getLsbD hj⟩
  rw [region_rawWord hq]
  exact resultRead_of_idle h _

/-- Settles O45: an idle read of the window gets `cwWord`, and a codeword in range survives the word's 32 bits. -/
theorem codewordWindow : Obligations.CodewordWindow := by
  unfold Obligations.CodewordWindow
  intro s i hi h hw hcw
  refine ⟨s.cwWord i, hostRead_ofNat_of_value (by omega) (by omega) ?_, ?_,
    fun j hj => cwWord_getLsbD_of_width_le hw hcw hj⟩
  · rw [region_cwWord]
    exact resultRead_of_idle h _
  · rw [cwWord_toNat hw hcw]
    split_ifs with hlen
    · exact List.getD_eq_getElem s.cw 0 hlen
    · exact List.getD_eq_default s.cw 0 (Nat.le_of_not_lt hlen)

/-- Settles O46: the matrix-written flag decides the read before the engine's state does. -/
theorem matrixWindow : Obligations.MatrixWindow := by
  unfold Obligations.MatrixWindow
  refine ⟨fun s r q hr hq h hw => ?_, fun s r q => rfl, fun s r q hr hq hw => ?_⟩
  · refine ⟨s.matWord r q, hostRead_ofNat_of_value (by omega) (by omega) ?_, fun j hj => matWord_getLsbD r hq hj⟩
    rw [region_matWord hr hq, readRegion_matWindow_of_written hw]
    exact resultRead_of_idle h _
  · refine hostRead_ofNat_of_stop (by omega) (by omega) ?_
    rw [region_matWord hr hq]
    exact readRegion_matWindow_of_unwritten hw r q

/-- Settles O47: a legal read is stopped by another fault or none, and a legal write by the busy violation or nothing. -/
theorem busErrors : Obligations.BusErrors := by
  unfold Obligations.BusErrors
  intro s off n v
  rw [← busLegal_iff]
  refine ⟨fun hbad => ?_, fun hlegal => ⟨fun hr => ?_, fun hw => ?_⟩⟩
  · have hbad' := Bool.eq_false_of_not_eq_true hbad
    exact ⟨hostRead_eq_fault_iff.mpr (Or.inl ⟨hbad', rfl⟩), hostWrite_eq_fault_iff.mpr (Or.inl ⟨hbad', rfl⟩)⟩
  · rcases hostRead_eq_fault_iff.mp hr with ⟨hbad, -⟩ | ⟨-, hstop⟩
    · exact absurd (hlegal.symm.trans hbad) (by decide)
    · rcases readRegion_eq_stop hstop with hf | hf <;> cases hf
  · rcases hostWrite_eq_fault_iff.mp hw with ⟨hbad, -⟩ | ⟨-, -, hf⟩
    · exact absurd (hlegal.symm.trans hbad) (by decide)
    · cases hf

/-- Settles O49: the places of the last clause are those whose read is a result read, a free draw while busy. -/
theorem busyReads : Obligations.BusyReads := by
  unfold Obligations.BusyReads
  intro s u off h ha
  refine ⟨fun e => hostRead_of_value ha (by rw [e]; rfl), fun e => hostRead_of_value ha (by rw [e]; rfl),
    fun e => hostRead_of_value ha (by rw [e]; rfl), fun e => hostRead_of_value ha (by rw [e]; rfl),
    fun e => hostRead_of_value ha (by rw [e]; rfl), fun v hlo hhi hv => hostRead_of_value ha ?_,
    fun hlo hhi hnone => hostRead_of_stop ha ?_, fun hplace => hostRead_of_anyValue ha ?_⟩
  · rw [region_of_inputWindow hlo hhi]
    exact readRegion_input_of_some hv
  · rw [region_of_inputWindow hlo hhi]
    exact readRegion_input_of_none hnone
  · obtain ⟨v, hv⟩ := exists_readRegion_eq_resultRead hplace
    rw [hv]
    exact resultRead_of_busy h v

/-- Settles O53: the second read sees the same value because the first changed only the record, and while idle no read is a free
draw. -/
theorem hostReadsHaveNoSideEffect : Obligations.HostReadsHaveNoSideEffect := by
  unfold Obligations.HostReadsHaveNoSideEffect
  refine ⟨fun s t off n ht => ?_, fun s t u off n h ht hu => ?_, fun s t off n v hoff ht => ?_⟩
  · obtain ⟨-, ⟨v, -, rfl⟩ | ⟨-, rfl⟩⟩ := hostRead_eq_next_iff.mp ht
    · exact ⟨v, s.draws, rfl⟩
    · exact ⟨Config.busyRead s.draws, s.draws + 1, rfl⟩
  · obtain ⟨-, ⟨v, hv, rfl⟩ | ⟨hany, -⟩⟩ := hostRead_eq_next_iff.mp ht
    · obtain ⟨-, ⟨w, hw, rfl⟩ | ⟨hany, -⟩⟩ := hostRead_eq_next_iff.mp hu
      · rw [readRegion_record, hv] at hw
        cases hw
        exact ⟨v, rfl, rfl⟩
      · exact absurd hany (readRegion_ne_anyValue_of_idle (s := s.record off v) h _)
    · exact absurd hany (readRegion_ne_anyValue_of_idle h _)
  · obtain ⟨hlegal, -, rfl⟩ := hostWrite_eq_next_iff.mp ht
    obtain ⟨-, halign⟩ := busLegal_iff.mp hlegal
    rcases writeRegion_cases s (region off.toNat) v with e | ⟨hcmd, -⟩ | ⟨-, e⟩ | ⟨-, e⟩ | ⟨q, -, e⟩
    · rw [e]
    · have hlt := lt_four_of_region_eq_cmd hcmd
      exact absurd (BitVec.eq_of_toNat_eq (by rw [BitVec.toNat_ofNat]; omega)) hoff
    · rw [e]; rfl
    · rw [e]; rfl
    · rw [e]; rfl

end Sys2Proof.Machine
end

