-- ==== Sys2Proof/Proofs/Encoding.lean ====
section
/-! PROOFS. Command words (30_encoding.md): the fields of a word as digits of its value, `decode` as the inverse of `encode` on
well-formed commands, and the rows of the match and mask table. -/

namespace Sys2Proof.Machine

/-! ### The fields of a word -/

section Fields
variable {v : Word} {i : Instr} {op w nb r : Nat}

theorem fieldOp_eq (v : Word) : fieldOp v = v.toNat % 16 := by
  rw [fieldOp, BitVec.extractLsb'_toNat, Nat.shiftRight_zero]

theorem fieldW_eq (v : Word) : fieldW v = v.toNat / 16 % 16 := by
  rw [fieldW, BitVec.extractLsb'_toNat, Nat.shiftRight_eq_div_pow]

theorem fieldNb_eq (v : Word) : fieldNb v = v.toNat / 256 % 64 := by
  rw [fieldNb, BitVec.extractLsb'_toNat, Nat.shiftRight_eq_div_pow]

theorem fieldR_eq (v : Word) : fieldR v = v.toNat / 65536 % 4096 := by
  rw [fieldR, BitVec.extractLsb'_toNat, Nat.shiftRight_eq_div_pow]

theorem reservedZero_iff : reservedZero v = true ↔ v.toNat / 16384 % 4 = 0 ∧ v.toNat / 268435456 = 0 := by
  have htop : v.toNat / 268435456 < 16 := by omega
  simp only [reservedZero, Bool.and_eq_true, beq_iff_eq, ← BitVec.toNat_inj, BitVec.extractLsb'_toNat,
    Nat.shiftRight_eq_div_pow]
  simp [Nat.mod_eq_of_lt htop]

/-- Fields a command word can hold: each in its range (R100), and zero where the opcode does not use it (R101). -/
structure LegalFields (op w nb r : Nat) : Prop where
  w_lt : w < 16
  nb_lt : nb < 64
  r_lt : r < 4096
  w_used : op = 5 ∨ w = 0
  nb_used : op = 2 ∨ op = 3 ∨ nb = 0
  r_used : op = 6 ∨ r = 0

/-- The value of the word with these fields and reserved bits zero (R100). -/
def wordValue (op w nb r : Nat) : Nat := op + 16 * w + 256 * nb + 65536 * r

theorem opcodeInstr_lt (h : opcodeInstr op w nb r = some i) : op < 11 := by
  by_contra hop
  unfold opcodeInstr at h
  split at h
  case h_12 => cases h
  all_goals omega

theorem exists_opcodeInstr (h : op < 11) (w nb r : Nat) : ∃ i, opcodeInstr op w nb r = some i := by
  interval_cases op <;> exact ⟨_, rfl⟩

/-- The tests of R101 pass exactly when the reserved bits are zero and the fields legal. -/
theorem decode_eq_ok_iff_fieldsOf : decode v = .ok i ↔
    reservedZero v = true ∧ LegalFields (fieldOp v) (fieldW v) (fieldNb v) (fieldR v) ∧
      opcodeInstr (fieldOp v) (fieldW v) (fieldNb v) (fieldR v) = some i := by
  unfold decode
  split_ifs with hop hres hw hnb hr
  · exact ⟨nofun, fun ⟨_, _, h⟩ => absurd (opcodeInstr_lt h) (by omega)⟩
  · exact ⟨nofun, fun ⟨h, _, _⟩ => absurd (h.symm.trans hres) (by decide)⟩
  · exact ⟨nofun, fun ⟨_, h, _⟩ => by have := h.w_used; omega⟩
  · exact ⟨nofun, fun ⟨_, h, _⟩ => by have := h.nb_used; omega⟩
  · exact ⟨nofun, fun ⟨_, h, _⟩ => by have := h.r_used; omega⟩
  · have hlegal : LegalFields (fieldOp v) (fieldW v) (fieldNb v) (fieldR v) :=
      ⟨BitVec.isLt _, BitVec.isLt _, BitVec.isLt _, by omega, by omega, by omega⟩
    cases opcodeInstr (fieldOp v) (fieldW v) (fieldNb v) (fieldR v) <;> simp [hlegal, hres]

/-- The tests of R101 on the value of the word. -/
theorem decode_eq_ok_iff_digits : decode v = .ok i ↔
    (v.toNat / 16384 % 4 = 0 ∧ v.toNat / 268435456 = 0) ∧
      LegalFields (v.toNat % 16) (v.toNat / 16 % 16) (v.toNat / 256 % 64) (v.toNat / 65536 % 4096) ∧
      opcodeInstr (v.toNat % 16) (v.toNat / 16 % 16) (v.toNat / 256 % 64) (v.toNat / 65536 % 4096) = some i := by
  rw [decode_eq_ok_iff_fieldsOf, reservedZero_iff, fieldOp_eq, fieldW_eq, fieldNb_eq, fieldR_eq]

/-- A word decodes exactly when its value is made of legal fields, and then to the command of its opcode (R101). -/
theorem decode_eq_ok_iff_exists_fields : decode v = .ok i ↔
    ∃ op w nb r, LegalFields op w nb r ∧ opcodeInstr op w nb r = some i ∧ v.toNat = wordValue op w nb r := by
  rw [decode_eq_ok_iff_digits]
  constructor
  · rintro ⟨⟨hlow, hhigh⟩, hlegal, hi⟩
    refine ⟨_, _, _, _, hlegal, hi, ?_⟩
    rw [wordValue]
    omega
  · rintro ⟨op, w, nb, r, hlegal, hi, hv⟩
    obtain ⟨hw, hnb, hr, -, -, -⟩ := id hlegal
    have hop := opcodeInstr_lt hi
    rw [wordValue] at hv
    have eop : v.toNat % 16 = op := by omega
    have ew : v.toNat / 16 % 16 = w := by omega
    have enb : v.toNat / 256 % 64 = nb := by omega
    have er : v.toNat / 65536 % 4096 = r := by omega
    rw [eop, ew, enb, er]
    exact ⟨by omega, hlegal, hi⟩

end Fields

/-! ### The word of a command -/

section Words
variable {v : Word} {i : Instr} {op w nb r : Nat}

/-- A command's fixed bits below its operand (R107). -/
theorem match_or_operand_toNat {p : Word} {x k : Nat} (hp : p.toNat < 2 ^ k) (hx : x * 2 ^ k < 2 ^ 32) :
    (p ||| BitVec.ofNat 32 x <<< k).toNat = p.toNat + 2 ^ k * x := by
  have hx' : (BitVec.ofNat 32 x).toNat = x :=
    Nat.mod_eq_of_lt (lt_of_le_of_lt (Nat.le_mul_of_pos_right x (Nat.two_pow_pos k)) hx)
  rw [BitVec.or_comm, shiftLeft_or_toNat (by rwa [hx']) hp, hx', Nat.add_comm, Nat.mul_comm]

/-- The command that an opcode names with legal fields has the word made of those fields. The cases are the field
the opcode uses, if any. -/
theorem encode_toNat_of_opcodeInstr (h : LegalFields op w nb r) (hi : opcodeInstr op w nb r = some i) :
    WellFormed i ∧ (encode i).toNat = wordValue op w nb r := by
  obtain ⟨hw, hnb, hr, rfl | rfl, hnb0, hr0⟩ := h
  · obtain ⟨rfl, rfl⟩ : nb = 0 ∧ r = 0 := by simpa using And.intro hnb0 hr0
    cases hi
    exact ⟨decide_eq_true hw, match_or_operand_toNat (p := 5#32) (k := 4) (by decide) (by omega)⟩
  rcases hnb0 with rfl | rfl | rfl
  · obtain rfl : r = 0 := by simpa using hr0
    cases hi
    exact ⟨decide_eq_true hnb, match_or_operand_toNat (p := 2#32) (k := 8) (by decide) (by omega)⟩
  · obtain rfl : r = 0 := by simpa using hr0
    cases hi
    exact ⟨decide_eq_true hnb, match_or_operand_toNat (p := 3#32) (k := 8) (by decide) (by omega)⟩
  rcases hr0 with rfl | rfl
  · cases hi
    exact ⟨decide_eq_true hr, match_or_operand_toNat (p := 6#32) (k := 16) (by decide) (by omega)⟩
  · have hop := opcodeInstr_lt hi
    interval_cases op <;> cases hi <;> exact ⟨rfl, rfl⟩

theorem legalFields_of_zero (op : Nat) : LegalFields op 0 0 0 :=
  ⟨by decide, by decide, by decide, Or.inr rfl, Or.inr (Or.inr rfl), Or.inr rfl⟩

/-- A well-formed command has its opcode, its operand as one field, and zero as every other. -/
theorem exists_fields_of_wellFormed (h : WellFormed i) :
    ∃ op w nb r, LegalFields op w nb r ∧ opcodeInstr op w nb r = some i := by
  cases i with
  | nop => exact ⟨0, 0, 0, 0, legalFields_of_zero 0, rfl⟩
  | bbClear => exact ⟨1, 0, 0, 0, legalFields_of_zero 1, rfl⟩
  | bbAppendMsb nb =>
    have hnb : nb < 64 := of_decide_eq_true h
    exact ⟨2, 0, nb, 0, { legalFields_of_zero 2 with nb_lt := hnb, nb_used := Or.inl rfl }, rfl⟩
  | bbAppendLsb nb =>
    have hnb : nb < 64 := of_decide_eq_true h
    exact ⟨3, 0, nb, 0, { legalFields_of_zero 3 with nb_lt := hnb, nb_used := Or.inr (Or.inl rfl) }, rfl⟩
  | modeEncode => exact ⟨4, 0, 0, 0, legalFields_of_zero 4, rfl⟩
  | stuffPad w =>
    have hw : w < 16 := of_decide_eq_true h
    exact ⟨5, w, 0, 0, { legalFields_of_zero 5 with w_lt := hw, w_used := Or.inl rfl }, rfl⟩
  | rsParity r =>
    have hr : r < 4096 := of_decide_eq_true h
    exact ⟨6, 0, 0, r, { legalFields_of_zero 6 with r_lt := hr, r_used := Or.inl rfl }, rfl⟩
  | sizeSelect => exact ⟨7, 0, 0, 0, legalFields_of_zero 7, rfl⟩
  | modeMessage => exact ⟨8, 0, 0, 0, legalFields_of_zero 8, rfl⟩
  | layout => exact ⟨9, 0, 0, 0, legalFields_of_zero 9, rfl⟩
  | encode => exact ⟨10, 0, 0, 0, legalFields_of_zero 10, rfl⟩

/-- The decoder inverts the encoder on well-formed commands, and decodes no other word (R101, R107). -/
theorem decode_eq_ok_iff_encode : decode v = .ok i ↔ WellFormed i ∧ encode i = v := by
  rw [decode_eq_ok_iff_exists_fields]
  constructor
  · rintro ⟨op, w, nb, r, hlegal, hi, hv⟩
    obtain ⟨hwf, hword⟩ := encode_toNat_of_opcodeInstr hlegal hi
    exact ⟨hwf, BitVec.eq_of_toNat_eq (hword.trans hv.symm)⟩
  · rintro ⟨hwf, rfl⟩
    obtain ⟨op, w, nb, r, hlegal, hi⟩ := exists_fields_of_wellFormed hwf
    exact ⟨op, w, nb, r, hlegal, hi, (encode_toNat_of_opcodeInstr hlegal hi).2⟩

end Words

/-- Settles O2: one direction of `decode_eq_ok_iff_encode`. -/
theorem encodeThenDecode : Obligations.EncodeThenDecode := by
  unfold Obligations.EncodeThenDecode
  exact fun i h => decode_eq_ok_iff_encode.mpr ⟨h, rfl⟩

/-! ### The rows of the match and mask table -/

section Rows
variable {v : Word} {i j : Instr}

/-- The `mask` column of R103 is a function of the `match` column. -/
def maskOfMatch (m : Word) : Word :=
  if m = 0x00000002#32 ∨ m = 0x00000003#32 then 0xFFFFC0FF#32
  else if m = 0x00000005#32 then 0xFFFFFF0F#32
  else if m = 0x00000006#32 then 0xF000FFFF#32
  else 0xFFFFFFFF#32

theorem maskBits_eq_maskOfMatch (i : Instr) : i.maskBits = maskOfMatch i.matchBits := by
  cases i <;> rfl

theorem encode_and_maskBits (h : WellFormed i) : encode i &&& i.maskBits = i.matchBits := by
  cases i with
  | nop => exact Laws.WordShape.nop h
  | bbClear => exact Laws.WordShape.bbClear h
  | bbAppendMsb nb => exact Laws.WordShape.bbAppendMsb nb h
  | bbAppendLsb nb => exact Laws.WordShape.bbAppendLsb nb h
  | modeEncode => exact Laws.WordShape.modeEncode h
  | stuffPad w => exact Laws.WordShape.stuffPad w h
  | rsParity r => exact Laws.WordShape.rsParity r h
  | sizeSelect => exact Laws.WordShape.sizeSelect h
  | modeMessage => exact Laws.WordShape.modeMessage h
  | layout => exact Laws.WordShape.layout h
  | encode => exact Laws.WordShape.encode h

/-- A field of `n` bits put back at bit `k` is the word under the mask of that field. -/
theorem field_shiftLeft_eq_and {k n : Nat} {m : Word} (hm : ∀ b < 32, m.getLsbD b = decide (k ≤ b ∧ b < k + n))
    (v : Word) : BitVec.ofNat 32 (v.extractLsb' k n).toNat <<< k = v &&& m := by
  apply BitVec.eq_of_getLsbD_eq
  intro b hb
  rw [BitVec.ofNat_toNat, BitVec.getLsbD_shiftLeft, BitVec.getLsbD_setWidth, BitVec.getLsbD_extractLsb',
    BitVec.getLsbD_and, hm b hb]
  by_cases hk : k ≤ b
  · have hbit : k + (b - k) = b := by omega
    have hrange : b - k < n ↔ b < k + n := by omega
    have hlt : b - k < 32 := by omega
    simp [hk, hb, hbit, hrange, hlt, Bool.and_comm]
  · simp [hk, Nat.lt_of_not_le hk]

/-- The command of `i`'s row whose operand is the one `v` holds. -/
def withOperandOf (v : Word) : Instr → Instr
  | .bbAppendMsb _ => .bbAppendMsb (fieldNb v)
  | .bbAppendLsb _ => .bbAppendLsb (fieldNb v)
  | .stuffPad _ => .stuffPad (fieldW v)
  | .rsParity _ => .rsParity (fieldR v)
  | i => i

theorem withOperandOf_matchBits (v : Word) (i : Instr) : (withOperandOf v i).matchBits = i.matchBits := by
  cases i <;> rfl

theorem withOperandOf_wellFormed (v : Word) (i : Instr) : WellFormed (withOperandOf v i) := by
  cases i with
  | bbAppendMsb | bbAppendLsb | stuffPad | rsParity => exact decide_eq_true (BitVec.isLt _)
  | _ => rfl

theorem withOperandOf_operandBits (v : Word) (i : Instr) :
    (withOperandOf v i).operandBits = v &&& ~~~i.maskBits := by
  cases i with
  | bbAppendMsb | bbAppendLsb => exact field_shiftLeft_eq_and (k := 8) (n := 6) (m := ~~~0xFFFFC0FF#32) (by decide) v
  | stuffPad => exact field_shiftLeft_eq_and (k := 4) (n := 4) (m := ~~~0xFFFFFF0F#32) (by decide) v
  | rsParity => exact field_shiftLeft_eq_and (k := 16) (n := 12) (m := ~~~0xF000FFFF#32) (by decide) v
  | _ => exact BitVec.and_zero.symm

/-- A word that matches a row is the word of that row's command (R103). -/
theorem decode_of_and_maskBits (h : v &&& i.maskBits = i.matchBits) : decode v = .ok (withOperandOf v i) := by
  refine decode_eq_ok_iff_encode.mpr ⟨withOperandOf_wellFormed v i, ?_⟩
  rw [encode, withOperandOf_matchBits, withOperandOf_operandBits, ← h, ← BitVec.and_or_distrib_left, BitVec.or_not_self,
    BitVec.and_allOnes]

/-- A word decodes to the command of a row exactly when it matches the row (R103). -/
theorem exists_decode_iff_and_maskBits :
    (∃ j, decode v = .ok j ∧ j.matchBits = i.matchBits) ↔ v &&& i.maskBits = i.matchBits := by
  constructor
  · rintro ⟨j, hd, hm⟩
    obtain ⟨hwf, rfl⟩ := decode_eq_ok_iff_encode.mp hd
    rw [maskBits_eq_maskOfMatch, ← hm, ← maskBits_eq_maskOfMatch, encode_and_maskBits hwf]
  · exact fun h => ⟨_, decode_of_and_maskBits h, withOperandOf_matchBits v i⟩

theorem matchBits_unique (hi : v &&& i.maskBits = i.matchBits) (hj : v &&& j.maskBits = j.matchBits) :
    i.matchBits = j.matchBits := by
  have h : withOperandOf v i = withOperandOf v j :=
    Except.ok.inj ((decode_of_and_maskBits hi).symm.trans (decode_of_and_maskBits hj))
  rw [← withOperandOf_matchBits v i, h, withOperandOf_matchBits]

theorem exists_decode_error_of_not_ok (h : ∀ i, decode v ≠ .ok i) : ∃ e, decode v = .error e := by
  cases hd : decode v with
  | ok i => exact absurd hd (h i)
  | error e => exact ⟨e, rfl⟩

/-- A word that decodes to no command ends with ILLEGAL_COMMAND (R101). -/
theorem completeCommand_of_not_ok (h : ∀ i, decode v ≠ .ok i) (s : State) :
    completeCommand v s = .next (s.raiseError .illegalCommand) := by
  obtain ⟨e, hd⟩ := exists_decode_error_of_not_ok h
  exact completeCommand_of_decode_error hd

end Rows

/-- Settles O3: a clause per fact above; the error effect is the update the statement writes out. -/
theorem commandWordMatchesItsRow : Obligations.CommandWordMatchesItsRow := by
  unfold Obligations.CommandWordMatchesItsRow
  refine ⟨fun v i => exists_decode_iff_and_maskBits, fun v i j => matchBits_unique, fun v s hnone => ?_,
    fun v i => decode_eq_ok_iff_encode.mp⟩
  exact completeCommand_of_not_ok (fun j hd => hnone j (exists_decode_iff_and_maskBits.mp ⟨j, hd, rfl⟩)) s

/-! ### Decoding is total -/

/-- A width that fits `W` and is none of `STUFF_PAD`'s (R206). -/
theorem exec_stuffPad_of_illegalWidth {w : Nat} (h : legalWidth w = false) (s : State) :
    exec (.stuffPad w) s = .next (s.raiseError .illegalOperand) := by
  rw [exec_eq_finish, commandBody, stuffPadEffect_eq_raise_iff.mpr ⟨h, rfl⟩, finish_raise]

/-- An operand that fits `NB` and is above 32 (R132). -/
theorem exec_bbAppendMsb_of_large {nb : Nat} (h : 32 < nb) (s : State) :
    exec (.bbAppendMsb nb) s = .next (s.raiseError .illegalOperand) := by
  have hcheck : appendCheck s.raw nb = some .illegalOperand := appendCheck_eq_some_iff.mpr (Or.inl ⟨h, rfl⟩)
  rw [exec_eq_finish, commandBody, appendEffect_eq_raise_iff.mpr hcheck, finish_raise]

/-- Settles O4: the tests of the statement are those of `decode_eq_ok_iff_digits`, so a word that fails one decodes to no
command. -/
theorem decodeIsTotal : Obligations.DecodeIsTotal := by
  unfold Obligations.DecodeIsTotal
  refine ⟨?_, fun s => ⟨?_, ?_⟩⟩
  · rintro v n op w nb r rfl rfl rfl rfl rfl
    split_ifs with hbad
    · have hnone : ∀ i, decode v ≠ .ok i := by
        intro i hd
        obtain ⟨⟨hlow, hhigh⟩, hlegal, hi⟩ := decode_eq_ok_iff_digits.mp hd
        rcases hbad with hop | hl | hh | ⟨h5, hw⟩ | ⟨h2, h3, hnb⟩ | ⟨h6, hr⟩
        · exact absurd (opcodeInstr_lt hi) (Nat.not_lt.mpr hop)
        · exact hl hlow
        · exact hh hhigh
        · exact hlegal.w_used.elim h5 hw
        · exact hlegal.nb_used.elim h2 (Or.rec h3 hnb)
        · exact hlegal.r_used.elim h6 hr
      exact ⟨exists_decode_error_of_not_ok hnone, completeCommand_of_not_ok hnone⟩
    · push Not at hbad
      obtain ⟨hop, hlow, hhigh, hw, hnb, hr⟩ := hbad
      obtain ⟨i, hi⟩ := exists_opcodeInstr hop (v.toNat / 16 % 16) (v.toNat / 256 % 64) (v.toNat / 65536 % 4096)
      have hd : decode v = .ok i := decode_eq_ok_iff_digits.mpr ⟨⟨hlow, hhigh⟩,
        ⟨Nat.mod_lt _ (by decide), Nat.mod_lt _ (by decide), Nat.mod_lt _ (by decide), by omega, by omega, by omega⟩,
        hi⟩
      exact ⟨i, hi, hd, fun s => completeCommand_of_decode_ok hd⟩
  · exact (completeCommand_of_decode_ok rfl).trans (exec_stuffPad_of_illegalWidth rfl s)
  · exact (completeCommand_of_decode_ok rfl).trans (exec_bbAppendMsb_of_large (by decide) s)

/-- Settles O1: `decode` computes on each word. -/
theorem knownWordsDecode : Obligations.KnownWordsDecode := by
  unfold Obligations.KnownWordsDecode
  exact ⟨rfl, rfl, rfl, rfl, rfl, rfl, rfl, rfl, rfl, rfl, rfl, rfl, rfl, rfl, rfl, rfl, rfl⟩

end Sys2Proof.Machine
end

