-- ==== Sys2Proof/Proofs/BitBuffer.lean ====
section
/-! PROOFS. The BitBuffer commands (40_bitbuffer.md): the word of a command without operand, the bits each append order appends,
and the checks of both append commands. -/

namespace Sys2Proof.Machine

/-! ### BB_CLEAR -/

section Opcode
variable {v : Word} {i : Instr} {op : Nat}

/-- A command without operand has one word; any other word with its opcode ends with ILLEGAL_COMMAND (R101, R103). -/
theorem completeCommand_of_ne_encode (hi : ∀ w nb r, opcodeInstr op w nb r = some i) (hop : v.toNat % 16 = op)
    (hv : v ≠ encode i) (s : State) : completeCommand v s = .next (s.raiseError .illegalCommand) := by
  refine completeCommand_of_not_ok (fun j hd => ?_) s
  obtain ⟨-, -, hj⟩ := decode_eq_ok_iff_digits.mp hd
  rw [hop, hi] at hj
  obtain rfl := Option.some.inj hj
  obtain ⟨-, hword⟩ := decode_eq_ok_iff_encode.mp hd
  exact hv hword.symm

end Opcode

/-- Settles O9: the body of `BB_CLEAR` is one update of the raw bit buffer, and word 1 is its only word. -/
theorem bbClearEmptiesRaw : Obligations.BbClearEmptiesRaw := by
  unfold Obligations.BbClearEmptiesRaw
  refine ⟨rfl, fun _ => ⟨rfl, rfl⟩, fun s _ hop hv => ?_⟩
  exact completeCommand_of_ne_encode (i := .bbClear) (fun _ _ _ => rfl) hop hv s

/-! ### The bits an append order appends -/

theorem msbBits_getElem?_toNat {n j : Nat} (h : j < n) (v : Word) :
    (msbBits n v.toNat)[j]? = some (v.getLsbD (n - 1 - j)) := by
  rw [List.getElem?_eq_getElem (by rwa [msbBits_length]), msbBits_getElem, BitVec.testBit_toNat]

theorem lsbBits_getElem?_toNat {n j : Nat} (h : j < n) (v : Word) :
    (lsbBits n v.toNat)[j]? = some (v.getLsbD j) := by
  rw [List.getElem?_eq_getElem (by rwa [lsbBits_length]), lsbBits_getElem, BitVec.testBit_toNat]

/-! ### The completion of an append -/

section Append
variable {s : State} {f : Bits → Nat → Nat → Bits} {nb : Nat}

theorem finish_appendEffect_of_fits (hnb : nb ≤ 32) (hfits : s.raw.length + nb ≤ 19968) :
    finish s (appendEffect f nb s) = .next (s.setRaw (f s.raw s.argValue nb)).complete := by
  rw [appendEffect_eq_done_iff.mpr ⟨⟨hnb, hfits⟩, rfl⟩, finish_done]

theorem finish_appendEffect_of_large (h : 32 < nb) :
    finish s (appendEffect f nb s) = .next (s.raiseError .illegalOperand) := by
  rw [appendEffect_eq_raise_iff.mpr (appendCheck_eq_some_iff.mpr (Or.inl ⟨h, rfl⟩)), finish_raise]

theorem finish_appendEffect_of_overflow (hnb : nb ≤ 32) (h : 19968 < s.raw.length + nb) :
    finish s (appendEffect f nb s) = .next (s.raiseError .overflow) := by
  rw [appendEffect_eq_raise_iff.mpr (appendCheck_eq_some_iff.mpr (Or.inr ⟨hnb, h, rfl⟩)), finish_raise]

/-- The two append commands are one body, each with its order (R132, R134, R135). -/
theorem exists_exec_eq_finish_appendEffect {i : Instr} (h : i = .bbAppendMsb nb ∨ i = .bbAppendLsb nb) :
    ∃ f, ∀ s, exec i s = finish s (appendEffect f nb s) := by
  rcases h with rfl | rfl
  · exact ⟨appendMsb, exec_eq_finish _⟩
  · exact ⟨appendLsb, exec_eq_finish _⟩

end Append

/-- Settles O10: the appended bits are `msbBits` of `ARG`. -/
theorem bbAppendMsbAppends : Obligations.BbAppendMsbAppends := by
  unfold Obligations.BbAppendMsbAppends
  intro s nb hnb hfits
  refine ⟨msbBits nb s.argValue, msbBits_length _ _, fun j hj => msbBits_getElem?_toNat hj s.arg, ?_⟩
  exact (exec_eq_finish _ s).trans (finish_appendEffect_of_fits hnb hfits)

/-- Settles O11: the appended bits are `lsbBits` of `ARG`. -/
theorem bbAppendLsbAppends : Obligations.BbAppendLsbAppends := by
  unfold Obligations.BbAppendLsbAppends
  intro s nb hnb hfits
  refine ⟨lsbBits nb s.argValue, lsbBits_length _ _, fun j hj => lsbBits_getElem?_toNat hj s.arg, ?_⟩
  exact (exec_eq_finish _ s).trans (finish_appendEffect_of_fits hnb hfits)

/-- Settles O12: the completion of an append in each case of its checks. -/
theorem appendChecksInOrder : Obligations.AppendChecksInOrder := by
  unfold Obligations.AppendChecksInOrder
  intro s nb i hi
  obtain ⟨f, hexec⟩ := exists_exec_eq_finish_appendEffect hi
  rw [hexec]
  split_ifs with hlarge hover
  · exact finish_appendEffect_of_large hlarge
  · exact finish_appendEffect_of_overflow (Nat.le_of_not_lt hlarge) hover
  · exact ⟨_, finish_appendEffect_of_fits (Nat.le_of_not_lt hlarge) (Nat.le_of_not_lt hover), rfl⟩

end Sys2Proof.Machine
end

