-- ==== Sys2Proof/Proofs/ModeTables.lean ====
section
/-! PROOFS. The ModeEncoder's tables (41_mode_encoder.md R152 to R157, R162): each table as its list of (code, byte), the pair
codes and the byte classes. -/

namespace Sys2Proof.Machine

/-! ### The character tables -/

/-- The single-character table of a mode as the list of its (code, byte) (R152 to R156). -/
def Mode.table : Mode → List (Nat × Nat)
  | .upper => (1, 0x20) :: (List.range 26).map fun i => (2 + i, 0x41 + i)
  | .lower => (1, 0x20) :: (List.range 26).map fun i => (2 + i, 0x61 + i)
  | .mixed =>
    [(1, 0x20), (2, 0x01), (3, 0x02), (4, 0x03), (5, 0x04), (6, 0x05), (7, 0x06), (8, 0x07), (9, 0x08), (10, 0x09),
      (11, 0x0A), (12, 0x0B), (13, 0x0C), (14, 0x0D)] ++
    [(15, 0x1B), (16, 0x1C), (17, 0x1D), (18, 0x1E), (19, 0x1F), (20, 0x40), (21, 0x5C), (22, 0x5E), (23, 0x5F),
      (24, 0x60), (25, 0x7C), (26, 0x7E), (27, 0x7F)]
  | .punct =>
    [(1, 0x0D), (6, 0x21), (7, 0x22), (8, 0x23), (9, 0x24), (10, 0x25), (11, 0x26), (12, 0x27), (13, 0x28), (14, 0x29),
      (15, 0x2A), (16, 0x2B), (17, 0x2C), (18, 0x2D), (19, 0x2E), (20, 0x2F)] ++
    [(21, 0x3A), (22, 0x3B), (23, 0x3C), (24, 0x3D), (25, 0x3E), (26, 0x3F), (27, 0x5B), (28, 0x5D), (29, 0x7B),
      (30, 0x7D)]
  | .digit => [(1, 0x20), (12, 0x2C), (13, 0x2E)] ++ (List.range 10).map fun i => (2 + i, 0x30 + i)

@[simp] theorem mem_modeOrder (t : Mode) : t ∈ modeOrder := by cases t <;> decide

/-- A property of bytes holds when it holds of the 256 of them. -/
theorem byte_induction {p : Byte → Prop} (h : ∀ n < 256, p (BitVec.ofNat 8 n)) (b : Byte) : p b := by
  simpa using h b.toNat b.isLt

theorem code_mem_table : ∀ t ∈ modeOrder, ∀ n < 256, ∀ c ∈ t.code (BitVec.ofNat 8 n), (c, n) ∈ t.table := by
  decide +kernel

theorem code_of_mem_table : ∀ t ∈ modeOrder, ∀ p ∈ t.table, p.1 < 2 ^ t.width ∧ t.code (BitVec.ofNat 8 p.2) = some p.1 := by
  decide +kernel

/-- Each table gives a byte exactly the code its list gives it (R152 to R156). -/
theorem Mode.code_eq_some_iff (t : Mode) (b : Byte) (c : Nat) : t.code b = some c ↔ (c, b.toNat) ∈ t.table := by
  constructor
  · intro h
    exact code_mem_table t (mem_modeOrder t) b.toNat b.isLt c (by simpa using h)
  · intro h
    simpa using (code_of_mem_table t (mem_modeOrder t) _ h).2

/-- A code is below 2 to the width of its mode (R151). -/
theorem Mode.code_lt {t : Mode} {b : Byte} {c : Nat} (h : t.code b = some c) : c < 2 ^ t.width :=
  (code_of_mem_table t (mem_modeOrder t) _ ((t.code_eq_some_iff b c).mp h)).1

theorem headCode_lt {t : Mode} {s : List Byte} {c : Nat} (h : headCode t s = some c) : c < 2 ^ t.width := by
  cases s with
  | nil => cases h
  | cons b s => exact Mode.code_lt h

/-! ### The pair codes -/

/-- The four pairs of bytes and their codes (R157). -/
theorem pairCode_eq_some_iff (a b : Byte) (s : List Byte) (c : Nat) : pairCode (a :: b :: s) = some c ↔
    (c, a.toNat, b.toNat) ∈ [(2, 0x0D, 0x0A), (3, 0x2E, 0x20), (4, 0x2C, 0x20), (5, 0x3A, 0x20)] := by
  simp only [pairCode, ← BitVec.toNat_inj, BitVec.toNat_ofNat, List.mem_cons, List.not_mem_nil, Prod.mk.injEq]
  split_ifs <;> simp <;> omega

/-- A pair code stands for two bytes that are there, and is one of 2 to 5. -/
theorem pairCode_bounds {s : List Byte} {c : Nat} (h : pairCode s = some c) : 2 ≤ s.length ∧ c < 2 ^ 5 := by
  match s, h with
  | a :: b :: s, h =>
    have hmem := (pairCode_eq_some_iff a b s c).mp h
    simp only [List.mem_cons, List.not_mem_nil, or_false, Prod.mk.injEq] at hmem
    exact ⟨by simp, by omega⟩

/-! ### The byte classes -/

theorem isBinary_iff (b : Byte) : isBinary b = true ↔ ∀ t : Mode, t.code b = none := by
  simp [isBinary]

theorem isBinary_iff_range (b : Byte) :
    isBinary b = true ↔ b.toNat = 0 ∨ (0x0E ≤ b.toNat ∧ b.toNat ≤ 0x1A) ∨ 0x80 ≤ b.toNat := by
  induction b using byte_induction with
  | h n hn => revert n; decide +kernel

/-- The bytes in more than one table are space, comma, full stop and CR (R162). -/
theorem shared_bytes : ∀ t ∈ modeOrder, ∀ u ∈ modeOrder, t ≠ u → ∀ n < 256, (t.code (BitVec.ofNat 8 n)).isSome = true →
    (u.code (BitVec.ofNat 8 n)).isSome = true → n = 0x20 ∨ n = 0x2C ∨ n = 0x2E ∨ n = 0x0D := by
  decide +kernel

/-- Settles O16: the tables by their lists, the classes by the 256 bytes. -/
theorem binaryBytesAreTheUntabled : Obligations.BinaryBytesAreTheUntabled := by
  unfold Obligations.BinaryBytesAreTheUntabled
  have codes (t : Mode) := t.code_eq_some_iff
  refine ⟨fun b c => ⟨codes _ b c, codes _ b c, codes _ b c, codes _ b c, codes _ b c⟩, pairCode_eq_some_iff,
    ⟨rfl, fun _ => rfl⟩, fun b => ⟨isBinary_iff b, isBinary_iff_range b⟩, by decide +kernel,
    fun t => by cases t <;> decide, fun b t u htu ht hu => ?_⟩
  have h := shared_bytes t (mem_modeOrder t) u (mem_modeOrder u) htu b.toNat b.isLt
  simpa [← BitVec.toNat_inj] using h (by simpa using ht) (by simpa using hu)

end Sys2Proof.Machine
end

