-- ==== Sys2Proof/Proofs/ModeActions.lean ====
section
/-! PROOFS. The ModeEncoder's actions (41_mode_encoder.md R157 to R165, R172): what a binary run is, which actions apply and when,
the bytes an action consumes, and that its tokens fit their widths and make up its bits. -/

namespace Sys2Proof.Machine

variable {x t : Mode} {b : Byte} {s bs : List Byte} {a : Action} {ts : List Token}

/-! ### Binary runs -/

theorem take_binRun (s : List Byte) : s.take (binRun s) = (s.take Config.binRunMax).takeWhile isBinary :=
  (List.prefix_iff_eq_take.mp ((List.takeWhile_prefix _).trans (List.take_prefix _ s))).symm

theorem isBinary_of_mem_take_binRun (h : b ∈ s.take (binRun s)) : isBinary b = true := by
  rw [take_binRun] at h
  exact List.mem_takeWhile_imp h

theorem binRun_le (s : List Byte) : binRun s ≤ 2078 ∧ binRun s ≤ s.length := by
  have h : binRun s ≤ (s.take Config.binRunMax).length := (List.takeWhile_prefix _).length_le
  rw [List.length_take, Config.binRunMax_eq] at h
  omega

/-- No run of binary bytes within the bound is longer (R164). -/
theorem le_binRun {k : Nat} (hk : k ≤ 2078) (hlen : k ≤ s.length) (hbin : ∀ b ∈ s.take k, isBinary b = true) :
    k ≤ binRun s := by
  have hpre : s.take k <+: s.take Config.binRunMax := List.take_prefix_take_left hk
  obtain ⟨rest, hrest⟩ := hpre
  rw [binRun, ← hrest, List.takeWhile_append_of_pos hbin, List.length_append, List.length_take]
  omega

theorem binRun_pos_iff : 0 < binRun (b :: bs) ↔ isBinary b = true := by
  constructor
  · intro h
    obtain ⟨k, hk⟩ := Nat.exists_eq_succ_of_ne_zero h.ne'
    exact isBinary_of_mem_take_binRun (s := b :: bs) (by rw [hk]; simp)
  · intro h
    exact le_binRun (by omega) (by simp) (by simpa using h)

/-! ### Which actions apply -/

/-- The conditions under which the six actions apply, a row of R164 each. -/
inductive Applies (x : Mode) (s : List Byte) : Action → Prop
  | pair {c : Nat} : x = .punct → pairCode s = some c → Applies x s (.pair c)
  | direct {c : Nat} : headCode x s = some c → Applies x s (.direct c)
  | shiftPair {c : Nat} : x ≠ .punct → pairCode s = some c → Applies x s (.shiftPair c)
  | shiftP {c : Nat} : x ≠ .punct → headCode .punct s = some c → Applies x s (.shiftP c)
  | shiftU {c : Nat} : x = .lower ∨ x = .digit → headCode .upper s = some c → Applies x s (.shiftU c)
  | binary : x = .upper ∨ x = .lower ∨ x = .mixed → 0 < binRun s → Applies x s (.binary (binRun s))

theorem punctShift_isSome_iff (x : Mode) : (punctShift x).isSome = true ↔ x ≠ .punct := by cases x <;> decide

theorem upperShift_isSome_iff (x : Mode) : (upperShift x).isSome = true ↔ x = .lower ∨ x = .digit := by
  cases x <;> decide

theorem binaryShift_isSome_iff (x : Mode) : (binaryShift x).isSome = true ↔ x = .upper ∨ x = .lower ∨ x = .mixed := by
  cases x <;> decide

theorem forcedAction_of_pair {c : Nat} (hx : x = .punct) (hc : pairCode s = some c) :
    forcedAction x s = some (.pair c) := by
  subst hx
  simp [forcedAction, hc]

theorem forcedAction_of_no_pair (h : x ≠ .punct ∨ pairCode s = none) :
    forcedAction x s = (headCode x s).map .direct := by
  unfold forcedAction
  split
  · rename_i hc
    simp [hc] at h
  · rfl

theorem applies_of_forcedAction (h : forcedAction x s = some a) : Applies x s a := by
  by_cases hp : x ≠ .punct ∨ pairCode s = none
  · rw [forcedAction_of_no_pair hp] at h
    obtain ⟨c, hc, rfl⟩ := Option.map_eq_some_iff.mp h
    exact .direct hc
  · obtain ⟨hx, hs⟩ := not_or.mp hp
    obtain ⟨c, hc⟩ := Option.ne_none_iff_exists'.mp hs
    rw [forcedAction_of_pair (not_not.mp hx) hc] at h
    exact Option.some.inj h ▸ .pair (not_not.mp hx) hc

/-- The free actions are those of R164 that apply, in the order of R165. -/
theorem freeActions_cons (x : Mode) (b : Byte) (bs : List Byte) : freeActions x (b :: bs) =
    (if x = .punct then [] else (pairCode (b :: bs)).toList.map .shiftPair) ++
    (if x = .punct then [] else (Mode.punct.code b).toList.map .shiftP) ++
    (if x = .lower ∨ x = .digit then (Mode.upper.code b).toList.map .shiftU else []) ++
    (if (x = .upper ∨ x = .lower ∨ x = .mixed) ∧ isBinary b = true then [.binary (binRun (b :: bs))] else []) := by
  have toList_map {f : Nat → Action} (o : Option Nat) : (o.map f).toList = o.toList.map f := by cases o <;> rfl
  simp only [freeActions, shiftPairAction, shiftPAction, shiftUAction, binaryAction, headCode, punctShift_isSome_iff,
    upperShift_isSome_iff, binaryShift_isSome_iff, binRun_pos_iff, ite_not, apply_ite Option.toList, Option.toList_none,
    Option.toList_some, toList_map]

theorem applies_of_mem_freeActions (h : a ∈ freeActions x s) : Applies x s a := by
  simp only [freeActions, shiftPairAction, shiftPAction, shiftUAction, binaryAction, List.mem_append, Option.mem_toList,
    Option.ite_none_right_eq_some, Option.map_eq_some_iff, Option.some.injEq, punctShift_isSome_iff,
    upperShift_isSome_iff, binaryShift_isSome_iff] at h
  rcases h with ((⟨hx, c, hc, rfl⟩ | ⟨hx, c, hc, rfl⟩) | ⟨hx, c, hc, rfl⟩) | ⟨⟨hx, hk⟩, rfl⟩
  · exact .shiftPair hx hc
  · exact .shiftP hx hc
  · exact .shiftU hx hc
  · exact .binary hx hk

theorem applicable_of_forced (h : forcedAction x s = some a) : applicable x s = [a] := by simp [applicable, h]

theorem applicable_of_free (h : forcedAction x s = none) : applicable x s = freeActions x s := by simp [applicable, h]

theorem applies_of_mem_applicable (h : a ∈ applicable x s) : Applies x s a := by
  cases hf : forcedAction x s with
  | some f =>
    rw [applicable_of_forced hf, List.mem_singleton] at h
    exact h ▸ applies_of_forcedAction hf
  | none => exact applies_of_mem_freeActions (applicable_of_free hf ▸ h)

theorem exists_mem_applicable_of_forced (h : forcedAction x s ≠ none) : ∃ a, a ∈ applicable x s := by
  obtain ⟨a, ha⟩ := Option.ne_none_iff_exists'.mp h
  exact ⟨a, applicable_of_forced ha ▸ List.mem_singleton_self a⟩

theorem exists_mem_applicable_of_binary (hx : x = .upper ∨ x = .lower ∨ x = .mixed) (hb : isBinary b = true) :
    ∃ a, a ∈ applicable x (b :: bs) := by
  by_cases hf : forcedAction x (b :: bs) = none
  · exact ⟨.binary (binRun (b :: bs)), by rw [applicable_of_free hf, freeActions_cons]; simp [hx, hb]⟩
  · exact exists_mem_applicable_of_forced hf

/-- At every state an action applies, or there is no forced one and one applies in another mode: a text byte has a mode that
contains it, and a binary byte has the binary run of Upper (R166). -/
theorem exists_mem_applicable (x : Mode) (b : Byte) (bs : List Byte) :
    (∃ a, a ∈ applicable x (b :: bs)) ∨
      forcedAction x (b :: bs) = none ∧ ∃ t, t ≠ x ∧ ∃ a, a ∈ applicable t (b :: bs) := by
  by_cases hf : forcedAction x (b :: bs) = none
  · have hother : ∃ t, ∃ a, a ∈ applicable t (b :: bs) := by
      by_cases hb : isBinary b = true
      · exact ⟨.upper, exists_mem_applicable_of_binary (.inl rfl) hb⟩
      · obtain ⟨t, ht⟩ := not_forall.mp (mt (isBinary_iff b).mpr hb)
        refine ⟨t, exists_mem_applicable_of_forced fun h => ?_⟩
        by_cases hp : t ≠ .punct ∨ pairCode (b :: bs) = none
        · rw [forcedAction_of_no_pair hp] at h
          exact ht (Option.map_eq_none_iff.mp h)
        · obtain ⟨hx, hs⟩ := not_or.mp hp
          obtain ⟨c, hc⟩ := Option.ne_none_iff_exists'.mp hs
          exact absurd h (by simp [forcedAction_of_pair (not_not.mp hx) hc])
    obtain ⟨t, ht⟩ := hother
    by_cases htx : t = x
    · exact .inl (htx ▸ ht)
    · exact .inr ⟨hf, t, htx, ht⟩
  · exact .inl (exists_mem_applicable_of_forced hf)

/-! ### Spans -/

/-- An action consumes at least one byte, and no byte after the end of the input (R164). -/
theorem Applies.span_bounds (h : Applies x s a) : 1 ≤ a.span ∧ a.span ≤ s.length := by
  have head {t : Mode} {c : Nat} (hc : headCode t s = some c) : 1 ≤ s.length := by
    cases s with
    | nil => cases hc
    | cons b bs => simp
  cases h with
  | pair _ hc => exact ⟨Nat.le_succ 1, (pairCode_bounds hc).1⟩
  | direct hc => exact ⟨le_rfl, head hc⟩
  | shiftPair _ hc => exact ⟨Nat.le_succ 1, (pairCode_bounds hc).1⟩
  | shiftP _ hc => exact ⟨le_rfl, head hc⟩
  | shiftU _ hc => exact ⟨le_rfl, head hc⟩
  | binary _ hk => exact ⟨hk, (binRun_le s).2⟩

/-! ### Tokens -/

/-- The token's value loses no bit in its width (R172). -/
abbrev Token.Fits (k : Token) : Prop := k.value < 2 ^ k.width

@[simp] theorem tokenBits_nil : tokenBits [] = 0 := rfl

@[simp] theorem tokenBits_cons (k : Token) (ts : List Token) : tokenBits (k :: ts) = k.width + tokenBits ts := by
  simp [tokenBits]

@[simp] theorem tokenBits_append (ts us : List Token) : tokenBits (ts ++ us) = tokenBits ts + tokenBits us := by
  simp [tokenBits]

@[simp] theorem tokenBits_binaryBytes (bs : List Byte) : tokenBits (binaryBytes bs) = 8 * bs.length := by
  simp [tokenBits, binaryBytes, Function.comp_def, Nat.mul_comm]

/-- The raw stream has the bits of its tokens. -/
theorem tokensRaw_length (ts : List Token) : (tokensRaw ts).length = tokenBits ts := by
  simp [tokensRaw, tokenBits, List.length_flatMap]

/-- The shift to Punct of every mode that has one is its code 0 (R159). -/
theorem punctShift_of_ne_punct (h : x ≠ .punct) : punctShift x = some ⟨0, x.width⟩ := by
  revert h
  cases x <;> decide

theorem binaryShift_of_text (h : x = .upper ∨ x = .lower ∨ x = .mixed) : binaryShift x = some ⟨31, 5⟩ := by
  rcases h with rfl | rfl | rfl <;> rfl

theorem latchTokens_self (x : Mode) : latchTokens x x = [] := by cases x <;> rfl

/-- The bits of an action that applies are the sum of its token widths (R164). -/
theorem Applies.tokenBits_tokens (h : Applies x s a) : tokenBits (a.tokens x s) = a.bits x := by
  cases h with
  | pair _ _ => rfl
  | direct _ => rfl
  | shiftPair hx _ => simp [Action.tokens, Action.bits, punctShift_of_ne_punct hx]
  | shiftP hx _ => simp [Action.tokens, Action.bits, punctShift_of_ne_punct hx]
  | shiftU hx _ => rcases hx with rfl | rfl <;> rfl
  | binary hx _ =>
    have hlen : (s.take (binRun s)).length = binRun s := by simp [(binRun_le s).2]
    simp only [Action.tokens, Action.bits, binaryShift_of_text hx, binaryLength, Option.toList_some, tokenBits_append,
      tokenBits_binaryBytes, tokenBits_cons, tokenBits_nil, hlen]
    split_ifs <;> rfl

theorem latchTokens_fit (x t : Mode) : ∀ k ∈ latchTokens x t, k.Fits := by
  cases x <;> cases t <;> decide

theorem binaryLength_fit {n : Nat} (hn : n ≤ 2078) : ∀ k ∈ binaryLength n, k.Fits := by
  unfold binaryLength
  split_ifs <;> simp [Token.Fits] <;> omega

theorem binaryBytes_fit (bs : List Byte) : ∀ k ∈ binaryBytes bs, k.Fits := by
  simp only [binaryBytes, List.forall_mem_map]
  exact fun b _ => b.isLt

/-- Every token of an action that applies fits its width (R172). -/
theorem Applies.tokens_fit (h : Applies x s a) : ∀ k ∈ a.tokens x s, k.Fits := by
  cases h with
  | pair _ hc => simpa [Action.tokens, Token.Fits] using (pairCode_bounds hc).2
  | direct hc => simpa [Action.tokens, Token.Fits] using headCode_lt hc
  | shiftPair hx hc => simpa [Action.tokens, Token.Fits, punctShift_of_ne_punct hx] using (pairCode_bounds hc).2
  | shiftP hx hc =>
    have hlt : _ < 2 ^ 5 := headCode_lt hc
    simpa [Action.tokens, Token.Fits, punctShift_of_ne_punct hx] using hlt
  | shiftU hx hc =>
    have hlt : _ < 2 ^ 5 := headCode_lt hc
    rcases hx with rfl | rfl <;> simpa [Action.tokens, Token.Fits, upperShift] using hlt
  | binary hx _ =>
    simp only [Action.tokens, binaryShift_of_text hx, List.forall_mem_append]
    exact ⟨⟨by simp [Token.Fits], binaryLength_fit (binRun_le s).1⟩, binaryBytes_fit _⟩

end Sys2Proof.Machine
end

