-- ==== Sys2Proof/Proofs/ModeCosts.lean ====
section
/-! PROOFS. The costs of the ModeEncoder (41_mode_encoder.md R166, R167): every suffix has a shortest stream, its bit count is the
least over one step, and the cost table holds exactly these counts. -/

namespace Sys2Proof.Machine

variable {x t : Mode} {b : Byte} {s bs : List Byte} {a : Action} {m n : Nat}

/-! ### Shortest streams -/

theorem exists_least {p : Nat → Prop} (h : ∃ n, p n) : ∃ n, p n ∧ ∀ m, p m → n ≤ m := by
  classical exact ⟨Nat.find h, Nat.find_spec h, fun _ => Nat.find_min' h⟩

theorem length_drop_span_lt (ha : a ∈ applicable x s) : (s.drop a.span).length < s.length := by
  obtain ⟨hpos, hle⟩ := (applies_of_mem_applicable ha).span_bounds
  rw [List.length_drop]
  omega

/-- The actions can encode every input from every latched mode (R166). -/
theorem exists_streamBits (x : Mode) (s : List Byte) : ∃ n, StreamBits x s n := by
  induction hl : s.length using Nat.strong_induction_on generalizing x s with
  | h l ih =>
    subst hl
    cases s with
    | nil => exact ⟨0, .stop x⟩
    | cons b bs =>
      rcases exists_mem_applicable x b bs with ⟨a, ha⟩ | ⟨hf, t, htx, a, ha⟩
      · obtain ⟨n, hn⟩ := ih _ (length_drop_span_lt ha) x _ rfl
        exact ⟨_, .stay (List.cons_ne_nil b bs) ha hn⟩
      · obtain ⟨n, hn⟩ := ih _ (length_drop_span_lt ha) t _ rfl
        exact ⟨_, .latch (List.cons_ne_nil b bs) hf htx ha hn⟩

theorem exists_costIs (x : Mode) (s : List Byte) : ∃ n, CostIs x s n := exists_least (exists_streamBits x s)

theorem exists_throughIs (x : Mode) (s : List Byte) (a : Action) : ∃ n, ThroughIs x s a n := by
  obtain ⟨m, hm⟩ := exists_costIs x (s.drop a.span)
  exact ⟨_, m, hm, rfl⟩

theorem exists_enterIs (ha : a ∈ applicable t s) : ∃ n, EnterIs t s n := by
  obtain ⟨n, hn⟩ := exists_throughIs t s a
  obtain ⟨m, hm, hmin⟩ := exists_least (p := fun n => ∃ a ∈ applicable t s, ThroughIs t s a n) ⟨n, a, ha, hn⟩
  exact ⟨m, hm, fun a ha k hk => hmin k ⟨a, ha, hk⟩⟩

theorem costIs_nil (x : Mode) : CostIs x [] 0 := ⟨.stop x, fun _ _ => Nat.zero_le _⟩

/-- `n` is the cost of one step at `(i, X)` followed by a shortest stream: of an action that may be taken, or of a latch and the
cost of entering its mode (R166). -/
def StepIs (x : Mode) (s : List Byte) (n : Nat) : Prop :=
  (∃ a ∈ applicable x s, ThroughIs x s a n) ∨
    forcedAction x s = none ∧ ∃ t, t ≠ x ∧ ∃ m, EnterIs t s m ∧ n = latchBits x t + m

theorem StepIs.streamBits (hs : s ≠ []) (h : StepIs x s n) : StreamBits x s n := by
  rcases h with ⟨a, ha, m, hm, rfl⟩ | ⟨hf, t, htx, _, ⟨⟨a, ha, m, hm, rfl⟩, -⟩, rfl⟩
  · exact .stay hs ha hm.1
  · rw [← Nat.add_assoc]
    exact .latch hs hf htx ha hm.1

/-- No stream is shorter than the best that begins with its first step. -/
theorem exists_stepIs_le (hs : s ≠ []) (h : StreamBits x s n) : ∃ m, StepIs x s m ∧ m ≤ n := by
  cases h with
  | stop => exact absurd rfl hs
  | stay _ ha hrest =>
    obtain ⟨c, hc⟩ := exists_costIs x (s.drop _)
    exact ⟨_, .inl ⟨_, ha, c, hc, rfl⟩, Nat.add_le_add_left (hc.2 _ hrest) _⟩
  | @latch _ t _ a k _ hf htx ha hrest =>
    obtain ⟨c, hc⟩ := exists_costIs t (s.drop a.span)
    obtain ⟨e, he⟩ := exists_enterIs ha
    have hec : e ≤ a.bits t + c := he.2 a ha _ ⟨c, hc, rfl⟩
    have hck : c ≤ k := hc.2 k hrest
    exact ⟨_, .inr ⟨hf, t, htx, e, he, rfl⟩, by omega⟩

/-- `C(i, X)` is the least cost of a step (R166). -/
theorem costIs_iff_least_stepIs (hs : s ≠ []) : CostIs x s n ↔ StepIs x s n ∧ ∀ m, StepIs x s m → n ≤ m := by
  constructor
  · intro h
    obtain ⟨m, hm, hmn⟩ := exists_stepIs_le hs h.1
    obtain rfl : m = n := Nat.le_antisymm hmn (h.2 m (hm.streamBits hs))
    exact ⟨hm, fun k hk => h.2 k (hk.streamBits hs)⟩
  · intro h
    refine ⟨h.1.streamBits hs, fun k hk => ?_⟩
    obtain ⟨m, hm, hmk⟩ := exists_stepIs_le hs hk
    exact (h.2 m hm).trans hmk

/-! ### Costs with infinity -/

theorem Cost.plus_eq_some_iff {c : Cost} : Cost.plus n c = some m ↔ ∃ k, c = some k ∧ m = n + k := by
  cases c <;> simp [Cost.plus, eq_comm]

@[simp] theorem Cost.min_none (c : Cost) : Cost.min c none = c := by cases c <;> rfl

@[simp] theorem Cost.none_min (c : Cost) : Cost.min none c = c := rfl

theorem Cost.min_assoc (c d e : Cost) : Cost.min (Cost.min c d) e = Cost.min c (Cost.min d e) := by
  cases c <;> cases d <;> cases e <;> simp [Cost.min, Nat.min_assoc]

/-- The smaller of two costs is one of them. -/
theorem Cost.eq_or_eq_of_min {c d : Cost} (h : Cost.min c d = some n) : c = some n ∨ d = some n := by
  cases c with
  | none => exact .inr h
  | some i =>
    cases d with
    | none => exact .inl h
    | some j =>
      simp only [Cost.min, Option.some.injEq] at h ⊢
      exact (Nat.le_total i j).imp (fun hij => h ▸ (Nat.min_eq_left hij).symm) (fun hji => h ▸ (Nat.min_eq_right hji).symm)

/-- The smaller of two costs is at most each of them. -/
theorem Cost.exists_min_le {c d : Cost} (h : c = some m ∨ d = some m) : ∃ n ≤ m, Cost.min c d = some n := by
  cases c with
  | none => exact ⟨m, le_rfl, by simpa using h⟩
  | some i =>
    cases d with
    | none => exact ⟨m, le_rfl, by simpa using h⟩
    | some j =>
      refine ⟨Nat.min i j, ?_, rfl⟩
      rcases h with h | h
      · exact Option.some.inj h ▸ Nat.min_le_left i j
      · exact Option.some.inj h ▸ Nat.min_le_right i j

@[simp] theorem Cost.least_nil : Cost.least [] = none := rfl

@[simp] theorem Cost.least_cons (c : Cost) (cs : List Cost) : Cost.least (c :: cs) = Cost.min c (Cost.least cs) := rfl

theorem Cost.least_append (cs ds : List Cost) : Cost.least (cs ++ ds) = Cost.min (Cost.least cs) (Cost.least ds) := by
  induction cs with
  | nil => rfl
  | cons c cs ih => simp [ih, Cost.min_assoc]

theorem Cost.mem_of_least {cs : List Cost} (h : Cost.least cs = some n) : some n ∈ cs := by
  induction cs with
  | nil => cases h
  | cons c cs ih =>
    rcases Cost.eq_or_eq_of_min h with rfl | h
    · exact List.mem_cons_self
    · exact List.mem_cons_of_mem c (ih h)

theorem Cost.exists_least_le {cs : List Cost} (h : some m ∈ cs) : ∃ n ≤ m, Cost.least cs = some n := by
  induction cs with
  | nil => cases h
  | cons c cs ih =>
    rcases List.mem_cons.mp h with rfl | h
    · exact Cost.exists_min_le (.inl rfl)
    · obtain ⟨k, hkm, hk⟩ := ih h
      obtain ⟨n, hnk, hn⟩ := Cost.exists_min_le (c := c) (.inr hk)
      exact ⟨n, hnk.trans hkm, hn⟩

theorem Cost.least_eq_some_iff {cs : List Cost} :
    Cost.least cs = some n ↔ some n ∈ cs ∧ ∀ m, some m ∈ cs → n ≤ m := by
  constructor
  · refine fun h => ⟨Cost.mem_of_least h, fun m hm => ?_⟩
    obtain ⟨k, hkm, hk⟩ := Cost.exists_least_le hm
    exact Option.some.inj (h.symm.trans hk) ▸ hkm
  · rintro ⟨hmem, hmin⟩
    obtain ⟨k, hkn, hk⟩ := Cost.exists_least_le hmem
    rw [hk, Nat.le_antisymm hkn (hmin k (Cost.mem_of_least hk))]

/-! ### The cost table -/

/-- The cost of entering a mode is the least over the actions that may be taken there (R166). -/
theorem enterCost_eq_least (t : Mode) (s : List Byte) (rows : List CostRow) :
    enterCost t s rows = Cost.least ((applicable t s).map (actionCost t rows)) := by
  unfold enterCost
  split
  · rename_i a hf
    simp [applicable_of_forced hf]
  · rename_i hf
    rw [applicable_of_free hf]

/-- The costs of the steps at a state: of the actions that may be taken, and of the latches when none is forced (R166). -/
def stepCosts (x : Mode) (s : List Byte) (rows : List CostRow) : List Cost :=
  (applicable x s).map (actionCost x rows) ++
    if forcedAction x s = none then (otherModes x).map (latchCost x s rows) else []

theorem stateCost_eq_least (x : Mode) (s : List Byte) (rows : List CostRow) :
    stateCost x s rows = Cost.least (stepCosts x s rows) := by
  unfold stateCost stepCosts
  split
  · rename_i a hf
    simp [applicable_of_forced hf, hf]
  · rename_i hf
    rw [applicable_of_free hf, if_pos hf, Cost.least_append]

/-- `C(i, X)` as the table of a suffix holds it. -/
def costAt (x : Mode) (s : List Byte) : Cost := (costTable s).head?.bind fun r => r.get x

theorem inputCost_eq_costAt (s : List Byte) : inputCost s = costAt .upper s := by
  cases s <;> rfl

theorem costAt_nil (x : Mode) : costAt x [] = some 0 := by cases x <;> rfl

theorem costAt_cons (x : Mode) (b : Byte) (bs : List Byte) :
    costAt x (b :: bs) = stateCost x (b :: bs) (costTable bs) := by
  cases x <;> rfl

/-- The table of a later index is the rest of the table. -/
theorem costTable_drop {k : Nat} (hk : k ≤ s.length) : (costTable s).drop k = costTable (s.drop k) := by
  induction s generalizing k with
  | nil =>
    obtain rfl : k = 0 := Nat.le_zero.mp hk
    rfl
  | cons b bs ih =>
    cases k with
    | zero => rfl
    | succ k => exact ih (Nat.le_of_succ_le_succ hk)

/-- The cost of an action is its bits and the table's cost at the index it leads to (R166). -/
theorem actionCost_costTable (ha : a ∈ applicable x (b :: bs)) :
    actionCost x (costTable bs) a = Cost.plus (a.bits x) (costAt x ((b :: bs).drop a.span)) := by
  obtain ⟨hpos, hle⟩ := (applies_of_mem_applicable ha).span_bounds
  obtain ⟨k, hk⟩ := Nat.exists_eq_succ_of_ne_zero (Nat.ne_of_gt hpos)
  rw [hk] at hle
  rw [actionCost, costAt, hk, Nat.succ_sub_one, List.drop_succ_cons, ← costTable_drop (Nat.le_of_succ_le_succ hle),
    List.head?_drop]
  cases (costTable bs)[k]? <;> rfl

section Later
/- The table holds the costs of the later indexes. -/
variable (later : ∀ a x n, a ∈ applicable x (b :: bs) →
  (costAt x ((b :: bs).drop a.span) = some n ↔ CostIs x ((b :: bs).drop a.span) n))
include later

theorem actionCost_eq_some_iff_of_later (ha : a ∈ applicable x (b :: bs)) :
    actionCost x (costTable bs) a = some n ↔ ThroughIs x (b :: bs) a n := by
  rw [actionCost_costTable ha, Cost.plus_eq_some_iff]
  exact exists_congr fun m => and_congr_left fun _ => later a x m ha

theorem mem_map_actionCost_iff_of_later : some n ∈ (applicable x (b :: bs)).map (actionCost x (costTable bs)) ↔
    ∃ a ∈ applicable x (b :: bs), ThroughIs x (b :: bs) a n := by
  rw [List.mem_map]
  exact exists_congr fun a => and_congr_right fun ha => actionCost_eq_some_iff_of_later later ha

theorem enterCost_eq_some_iff_of_later : enterCost t (b :: bs) (costTable bs) = some n ↔ EnterIs t (b :: bs) n := by
  rw [enterCost_eq_least, Cost.least_eq_some_iff]
  simp only [mem_map_actionCost_iff_of_later later]
  exact and_congr_right fun _ => ⟨fun h a ha m hm => h m ⟨a, ha, hm⟩, fun h m ⟨a, ha, hm⟩ => h a ha m hm⟩

theorem latchCost_eq_some_iff_of_later : latchCost x (b :: bs) (costTable bs) t = some n ↔
    ∃ m, EnterIs t (b :: bs) m ∧ n = latchBits x t + m := by
  rw [latchCost, Cost.plus_eq_some_iff]
  exact exists_congr fun m => and_congr_left fun _ => enterCost_eq_some_iff_of_later later

theorem mem_stepCosts_iff_of_later : some n ∈ stepCosts x (b :: bs) (costTable bs) ↔ StepIs x (b :: bs) n := by
  rw [stepCosts, List.mem_append, mem_map_actionCost_iff_of_later later, StepIs]
  refine or_congr_right ?_
  split_ifs with hf
  · simp [hf, otherModes, latchCost_eq_some_iff_of_later later]
  · simp [hf]

theorem costAt_eq_some_iff_of_later : costAt x (b :: bs) = some n ↔ CostIs x (b :: bs) n := by
  rw [costAt_cons, stateCost_eq_least, Cost.least_eq_some_iff, costIs_iff_least_stepIs (List.cons_ne_nil b bs)]
  simp only [mem_stepCosts_iff_of_later later]

end Later

/-- The table holds exactly the costs: the bit counts of the shortest streams (R166, R167). -/
theorem costAt_eq_some_iff : costAt x s = some n ↔ CostIs x s n := by
  induction hl : s.length using Nat.strong_induction_on generalizing x s n with
  | h l ih =>
    subst hl
    cases s with
    | nil =>
      rw [costAt_nil, Option.some.injEq]
      exact ⟨fun h => h ▸ costIs_nil x, (costIs_nil x).unique⟩
    | cons b bs => exact costAt_eq_some_iff_of_later fun a x n ha => ih _ (length_drop_span_lt ha) rfl

theorem actionCost_eq_some_iff (ha : a ∈ applicable x (b :: bs)) :
    actionCost x (costTable bs) a = some n ↔ ThroughIs x (b :: bs) a n :=
  actionCost_eq_some_iff_of_later (fun _ _ _ _ => costAt_eq_some_iff) ha

theorem enterCost_eq_some_iff : enterCost t (b :: bs) (costTable bs) = some n ↔ EnterIs t (b :: bs) n :=
  enterCost_eq_some_iff_of_later fun _ _ _ _ => costAt_eq_some_iff

theorem latchCost_eq_some_iff : latchCost x (b :: bs) (costTable bs) t = some n ↔
    ∃ m, EnterIs t (b :: bs) m ∧ n = latchBits x t + m :=
  latchCost_eq_some_iff_of_later fun _ _ _ _ => costAt_eq_some_iff

theorem stateCost_eq_some_iff : stateCost x (b :: bs) (costTable bs) = some n ↔ CostIs x (b :: bs) n := by
  rw [← costAt_cons, costAt_eq_some_iff]

end Sys2Proof.Machine
end

