-- ==== Sys2Proof/Proofs/ModeChoice.lean ====
section
/-! PROOFS. The choice rule of the ModeEncoder (41_mode_encoder.md R167 to R170): each step the encoder chooses is the one
`Emits` describes, so its tokens are the only ones the rule gives, and they have the bits of the least cost. -/

namespace Sys2Proof.Machine

variable {x t : Mode} {b : Byte} {s bs : List Byte} {a : Action} {m n : Nat} {ts us : List Token}

/-! ### The tokens of the choice rule -/

/-- The choice rule gives one token sequence (R169, R170). -/
theorem Emits.unique (h : Emits x s ts) (hu : Emits x s us) : us = ts := by
  induction h generalizing us with
  | stop => cases hu with
    | stop => rfl
    | stay hs => exact absurd rfl hs
    | latch hs => exact absurd rfl hs
  | stay hs hc hfirst _ ih => cases hu with
    | stop => exact absurd rfl hs
    | stay _ hc' hfirst' hrest' =>
      obtain rfl := hc.unique hc'
      obtain rfl := hfirst.unique hfirst'
      rw [ih hrest']
    | latch _ _ hc' hnone =>
      obtain rfl := hc.unique hc'
      obtain ⟨before, after, hl, hp, -⟩ := hfirst
      exact absurd hp (hnone _ (by simp [hl]))
  | latch hs _ hc hnone ht he hfirst _ ih => cases hu with
    | stop => exact absurd rfl hs
    | stay _ hc' hfirst' =>
      obtain rfl := hc.unique hc'
      obtain ⟨before, after, hl, hp, -⟩ := hfirst'
      exact absurd hp (hnone _ (by simp [hl]))
    | latch _ _ hc' _ ht' he' hfirst' hrest' =>
      obtain rfl := hc.unique hc'
      obtain rfl := ht.unique ht'
      obtain rfl := he.unique he'
      obtain rfl := hfirst.unique hfirst'
      rw [ih hrest']

theorem FirstIn.mem {α : Type} {l : List α} {p : α → Prop} {a : α} (h : FirstIn l p a) : a ∈ l := by
  obtain ⟨before, after, rfl, -⟩ := h
  simp

theorem FirstIn.holds {α : Type} {l : List α} {p : α → Prop} {a : α} (h : FirstIn l p a) : p a := by
  obtain ⟨-, -, -, hp, -⟩ := h
  exact hp

/-- The tokens of the choice rule have the bits of the least cost (R167). -/
theorem Emits.tokenBits_eq (h : Emits x s ts) (hn : CostIs x s n) : tokenBits ts = n := by
  induction h generalizing n with
  | stop x => exact (costIs_nil x).unique hn
  | stay _ hc hfirst _ ih =>
    obtain ⟨m, hm, hsum⟩ := hfirst.holds
    rw [tokenBits_append, (applies_of_mem_applicable hfirst.mem).tokenBits_tokens, ih hm, hn.unique hc, hsum]
  | latch _ _ hc _ ht he hfirst _ ih =>
    obtain ⟨m, hm, hsum⟩ := hfirst.holds
    obtain ⟨e, he', hsum'⟩ := ht.holds
    rw [tokenBits_append, tokenBits_append, (applies_of_mem_applicable hfirst.mem).tokenBits_tokens, ih hm, hn.unique hc,
      hsum', he'.unique he, hsum, Nat.add_assoc]
    rfl

/-- Every token of the choice rule fits its width (R172). -/
theorem Emits.tokens_fit (h : Emits x s ts) : ∀ k ∈ ts, k.Fits := by
  induction h with
  | stop => simp
  | stay _ _ hfirst _ ih =>
    exact List.forall_mem_append.mpr ⟨(applies_of_mem_applicable hfirst.mem).tokens_fit, ih⟩
  | latch _ _ _ _ _ _ hfirst _ ih =>
    exact List.forall_mem_append.mpr ⟨List.forall_mem_append.mpr
      ⟨latchTokens_fit _ _, (applies_of_mem_applicable hfirst.mem).tokens_fit⟩, ih⟩

/-! ### The encoder's choice -/

/-- A search finds the first element for which a property holds, if there is one. -/
theorem exists_find?_firstIn {α : Type} {l : List α} {p : α → Bool} {q : α → Prop} (hpq : ∀ b ∈ l, p b = true ↔ q b)
    (h : ∃ b ∈ l, q b) : ∃ a, l.find? p = some a ∧ FirstIn l q a := by
  obtain ⟨b, hb, hq⟩ := h
  obtain ⟨a, ha⟩ := Option.isSome_iff_exists.mp (List.find?_isSome.mpr ⟨b, hb, (hpq b hb).mpr hq⟩)
  obtain ⟨before, after, rfl, hp, hbefore⟩ := firstIn_of_find? ha
  refine ⟨a, ha, before, after, rfl, (hpq a (by simp)).mp hp, fun c hc hqc => hbefore c hc ((hpq c ?_).mpr hqc)⟩
  exact List.mem_append_left _ hc

/-- After a latch the first action that attains the cost of entering is taken; a forced one attains it (R169). -/
theorem enterChoice_eq_find? (t : Mode) (s : List Byte) (rows : List CostRow) :
    enterChoice t s rows = (applicable t s).find? fun a => actionCost t rows a == enterCost t s rows := by
  unfold enterChoice
  split
  · rename_i a hf
    simp [applicable_of_forced hf, enterCost, hf]
  · rename_i hf
    rw [applicable_of_free hf]

/-- Without a latch the first action that attains the cost is taken; a forced one attains it (R169). -/
theorem chooseStep_eq_of_find? {rows : List CostRow}
    (h : (applicable x s).find? (fun a => actionCost x rows a == stateCost x s rows) = some a) :
    chooseStep x s rows = some (a, none) := by
  unfold chooseStep
  split
  · rename_i f hf
    rw [applicable_of_forced hf] at h
    rw [List.mem_singleton.mp (List.mem_of_find?_eq_some h)]
  · rename_i hf
    rw [applicable_of_free hf] at h
    rw [h]

/-- Else the first latch that attains the cost is taken, and the first action that attains the cost of entering (R169). -/
theorem chooseStep_eq_of_latch {rows : List CostRow} (hf : forcedAction x s = none)
    (hnone : (applicable x s).find? (fun a => actionCost x rows a == stateCost x s rows) = none)
    (ht : (otherModes x).find? (fun t => latchCost x s rows t == stateCost x s rows) = some t)
    (ha : enterChoice t s rows = some a) : chooseStep x s rows = some (a, some t) := by
  rw [applicable_of_free hf] at hnone
  simp [chooseStep, hf, hnone, ht, ha]

theorem otherModes_eq (x : Mode) : otherModes x = [Mode.upper, .lower, .mixed, .punct, .digit].filter fun t => t ≠ x := by
  cases x <;> rfl

theorem actionCost_beq_iff {c : Cost} (hc : c = some n) (ha : a ∈ applicable x (b :: bs)) :
    (actionCost x (costTable bs) a == c) = true ↔ ThroughIs x (b :: bs) a n := by
  rw [beq_iff_eq, hc, actionCost_eq_some_iff ha]

theorem latchCost_beq_iff {c : Cost} (hc : c = some n) :
    (latchCost x (b :: bs) (costTable bs) t == c) = true ↔ ∃ m, EnterIs t (b :: bs) m ∧ n = latchBits x t + m := by
  rw [beq_iff_eq, hc, latchCost_eq_some_iff]

/-- The encoder chooses a step, and it is the one the choice rule makes (R169). -/
theorem exists_chooseStep_emits (x : Mode) (b : Byte) (bs : List Byte) : ∃ a l,
    chooseStep x (b :: bs) (costTable bs) = some (a, l) ∧ a ∈ applicable (modeAfter x l) (b :: bs) ∧
    ∀ ts, Emits (modeAfter x l) ((b :: bs).drop a.span) ts →
      Emits x (b :: bs) (latchTokens x (modeAfter x l) ++ a.tokens (modeAfter x l) (b :: bs) ++ ts) := by
  have hs : b :: bs ≠ [] := List.cons_ne_nil b bs
  obtain ⟨n, hn⟩ := exists_costIs x (b :: bs)
  have hcost := stateCost_eq_some_iff.mpr hn
  by_cases hstay : ∃ a ∈ applicable x (b :: bs), ThroughIs x (b :: bs) a n
  · obtain ⟨a, hfind, hfirst⟩ := exists_find?_firstIn (fun _ ha => actionCost_beq_iff hcost ha) hstay
    refine ⟨a, none, chooseStep_eq_of_find? hfind, hfirst.mem, fun ts hts => ?_⟩
    rw [modeAfter, latchTokens_self]
    exact .stay hs hn hfirst hts
  · obtain ⟨hf, t, htx, htn⟩ := ((costIs_iff_least_stepIs hs).mp hn).1.resolve_left hstay
    have hnone : ∀ a ∈ applicable x (b :: bs), ¬ThroughIs x (b :: bs) a n := fun a ha h => hstay ⟨a, ha, h⟩
    have htmem : t ∈ otherModes x := by simp [otherModes, htx]
    obtain ⟨t, hfindt, hfirstt⟩ := exists_find?_firstIn (fun u _ => latchCost_beq_iff (t := u) hcost) ⟨t, htmem, htn⟩
    obtain ⟨m, hm, -⟩ := hfirstt.holds
    obtain ⟨a, hfinda, hfirsta⟩ :=
      exists_find?_firstIn (fun _ ha => actionCost_beq_iff (enterCost_eq_some_iff.mpr hm) ha) hm.1
    refine ⟨a, some t, chooseStep_eq_of_latch hf ?_ hfindt ((enterChoice_eq_find? _ _ _).trans hfinda), hfirsta.mem,
      fun ts hts => .latch hs hf hn hnone (otherModes_eq x ▸ hfirstt) hm hfirsta hts⟩
    exact List.find?_eq_none.mpr fun a ha h => hnone a ha ((actionCost_beq_iff hcost ha).mp h)

/-- The loop ends, and emits the tokens of the choice rule (R170). -/
theorem exists_encodeLoop_emits (hlen : s.length ≤ n) :
    ∃ ts, encodeLoop n x s (costTable s) = some ts ∧ Emits x s ts := by
  induction n generalizing x s with
  | zero =>
    obtain rfl := List.length_eq_zero_iff.mp (Nat.le_zero.mp hlen)
    exact ⟨[], rfl, .stop x⟩
  | succ n ih =>
    cases s with
    | nil => exact ⟨[], rfl, .stop x⟩
    | cons b bs =>
      obtain ⟨a, l, hchoose, ha, hemits⟩ := exists_chooseStep_emits x b bs
      have hshort := length_drop_span_lt ha
      obtain ⟨ts, hloop, hts⟩ := ih (x := modeAfter x l) (s := (b :: bs).drop a.span) (by omega)
      refine ⟨_, ?_, hemits ts hts⟩
      rw [← costTable_drop (applies_of_mem_applicable ha).span_bounds.2] at hloop
      have hrows : (costTable (b :: bs)).drop 1 = costTable bs := rfl
      simp only [encodeLoop, hrows, hchoose, hloop]

/-- The tokens of an input are those of the choice rule (R170). -/
theorem exists_modeTokens_emits (bs : List Byte) : ∃ ts, modeTokens bs = some ts ∧ Emits .upper bs ts :=
  exists_encodeLoop_emits le_rfl

theorem emits_of_modeTokens (h : modeTokens bs = some ts) : Emits .upper bs ts := by
  obtain ⟨us, hus, hemits⟩ := exists_modeTokens_emits bs
  exact Option.some.inj (hus.symm.trans h) ▸ hemits

theorem inputCost_eq_some_iff : inputCost bs = some n ↔ CostIs .upper bs n := by
  rw [inputCost_eq_costAt, costAt_eq_some_iff]

/-- The raw stream has `C(0, U)` bits (R167). -/
theorem exists_modeTokens_of_inputCost (h : inputCost bs = some n) :
    ∃ ts, modeTokens bs = some ts ∧ (tokensRaw ts).length = n := by
  obtain ⟨ts, hts, hemits⟩ := exists_modeTokens_emits bs
  exact ⟨ts, hts, (tokensRaw_length ts).trans (hemits.tokenBits_eq (inputCost_eq_some_iff.mp h))⟩

/-- Settles O18: the cost table holds the counts of the shortest streams, and the loop makes the choices of `Emits`. -/
theorem streamIsShortest : Obligations.StreamIsShortest := by
  unfold Obligations.StreamIsShortest
  intro bs
  obtain ⟨c, hc⟩ := exists_costIs .upper bs
  obtain ⟨ts, hts, hemits⟩ := exists_modeTokens_emits bs
  exact ⟨c, ts, inputCost_eq_some_iff.mpr hc, hts, (tokensRaw_length ts).trans (hemits.tokenBits_eq hc), hc.1, hc.2, hemits,
    fun _ => hemits.unique⟩

end Sys2Proof.Machine
end

