-- ==== Sys2Proof/Proofs/ModeEncoder.lean ====
section
/-! PROOFS. The ModeEncoder's actions with their tokens, and the MODE_ENCODE command (41_mode_encoder.md R151 to R165, R172,
R173): the completion with the stream and the two CAPACITY ends. -/

namespace Sys2Proof.Machine

variable {x : Mode} {s : State} {bs : List Byte} {c : Nat}

/-! ### Tokens of the actions -/

theorem Mode.width_eq (x : Mode) : x.width = if x = .digit then 4 else 5 := by cases x <;> rfl

/-- The tokens of a shift into Punct (R164). -/
theorem tokens_of_punctShift (hx : x ≠ .punct) (s : List Byte) (c : Nat) :
    (Action.shiftPair c).tokens x s = [⟨0, if x = .digit then 4 else 5⟩, ⟨c, 5⟩] ∧
      (Action.shiftP c).tokens x s = [⟨0, if x = .digit then 4 else 5⟩, ⟨c, 5⟩] := by
  simp [Action.tokens, punctShift_of_ne_punct hx, x.width_eq]

/-- The format of a binary run (R161). -/
theorem tokens_of_binary (hx : x = .upper ∨ x = .lower ∨ x = .mixed) (s : List Byte) (k : Nat) :
    (Action.binary k).tokens x s =
      ⟨31, 5⟩ :: ((if k ≤ 31 then [⟨k, 5⟩] else [⟨0, 5⟩, ⟨k - 31, 11⟩]) ++ (s.take k).map fun b => ⟨b.toNat, 8⟩) := by
  simp [Action.tokens, binaryShift_of_text hx, binaryLength, binaryBytes]

/-- The raw stream begins with the value of the first token, most significant bit first in its width (R172). -/
theorem tokensRaw_cons (t : Token) (ts : List Token) : ∃ b : Bits, b.length = t.width ∧
    (∀ j, j < t.width → b[j]? = some (t.value.testBit (t.width - 1 - j))) ∧ tokensRaw (t :: ts) = b ++ tokensRaw ts := by
  refine ⟨msbBits t.width t.value, msbBits_length _ _, fun j hj => ?_, List.flatMap_cons⟩
  rw [List.getElem?_eq_getElem (by rwa [msbBits_length]), msbBits_getElem]

/-- Settles O17: the tokens are those of the choice rule, whose actions all apply by a row of R164. -/
theorem tokensFitTheirWidths : Obligations.TokensFitTheirWidths := by
  unfold Obligations.TokensFitTheirWidths
  refine ⟨fun bs ts hts => (emits_of_modeTokens hts).tokens_fit, Mode.width_eq, rfl,
    fun x => ⟨punctShift_isSome_iff x, upperShift_isSome_iff x, binaryShift_isSome_iff x⟩,
    fun x s c => ⟨rfl, x.width_eq ▸ rfl, fun hx => tokens_of_punctShift hx s c⟩, fun _ _ => ⟨rfl, rfl⟩,
    fun _ s k hx _ _ => tokens_of_binary hx s k, ⟨rfl, tokensRaw_cons⟩,
    fun x b s => ⟨fun _ => forcedAction_of_pair, fun hp => ?_, freeActions_cons x b s,
      fun a ha => (applies_of_mem_applicable ha).tokenBits_tokens.symm⟩,
    fun _ => ⟨rfl, rfl, rfl, rfl, rfl, rfl⟩,
    fun s => ⟨(binRun_le s).1, (binRun_le s).2, fun _ => isBinary_of_mem_take_binRun, fun _ => le_binRun⟩⟩
  rw [forcedAction_of_no_pair hp]
  exact ⟨fun c hc => congrArg (Option.map Action.direct) hc, fun hc => congrArg (Option.map Action.direct) hc⟩

/-! ### The command -/

/-- A written input of a legal length is read whole (R173). -/
theorem exec_modeEncode_of_input (hlen : s.inLen.toNat ≤ 8192) (hmem : s.mem.readBytes 0 s.inLen.toNat = some bs) :
    exec .modeEncode s = finish s ((encodeBytes bs).andThen fun b => .done (s.setRaw b)) := by
  have hinput : s.input = .done bs := State.input_eq_done_iff.mpr ⟨hlen, hmem⟩
  rw [exec_eq_finish, commandBody, modeEncodeEffect, hinput, Effect.andThen_done]

/-- An input whose least cost is above `RAW_MAX` has no stream that fits (R173). -/
theorem encodeBytes_of_large (hcost : inputCost bs = some c) (hc : 19968 < c) : encodeBytes bs = .raise .capacity := by
  obtain ⟨ts, hts, rfl⟩ := exists_modeTokens_of_inputCost hcost
  simp [encodeBytes, hts, hc]

/-- Settles O13: the encoder's stream has the bits of the least cost, so it passes the check. -/
theorem modeEncodeWritesTheStream : Obligations.ModeEncodeWritesTheStream := by
  unfold Obligations.ModeEncodeWritesTheStream
  refine ⟨fun m n bs => by simpa using m.readBytes_eq_some_iff 0 n bs, fun s bs c hlen hmem hcost hc => ?_⟩
  obtain ⟨ts, hts, rfl⟩ := exists_modeTokens_of_inputCost hcost
  refine ⟨ts, hts, rfl, ?_⟩
  rw [exec_modeEncode_of_input hlen hmem, encodeBytes_eq_done_iff.mpr ⟨ts, hts, hc, rfl⟩, Effect.andThen_done, finish_done]
  rfl

/-- Settles O14: the check of the length comes before the first byte is read, and that of the stream after the last. -/
theorem modeEncodeReportsCapacity : Obligations.ModeEncodeReportsCapacity := by
  unfold Obligations.ModeEncodeReportsCapacity
  refine ⟨fun s hlen => ?_, fun s bs c hlen hmem hcost hc => ?_⟩
  · have hraise : modeEncodeEffect s = .raise .capacity :=
      modeEncodeEffect_eq_raise_iff.mpr (.inl (State.input_eq_raise_iff.mpr ⟨hlen, rfl⟩))
    rw [exec_eq_finish, commandBody, hraise, finish_raise]
    rfl
  · rw [exec_modeEncode_of_input hlen hmem, encodeBytes_of_large hcost hc, Effect.andThen_raise, finish_raise]
    rfl

end Sys2Proof.Machine
end

