-- ==== Sys2Proof/Proofs/Stuffer.lean ====
section
/-! PROOFS. The StufferPadder and the STUFF_PAD command (42_stuffer.md R200 to R206): no codeword is degenerate, the source bits
stand in the codewords, and the completion of the command. -/

namespace Sys2Proof.Machine

theorem two_le_of_legalWidth {w : Nat} (hw : legalWidth w = true) : 2 ≤ w := by
  rcases legalWidth_iff.mp hw with rfl | rfl | rfl | rfl | rfl <;> decide

section Words
variable {w : Nat} {b x : Bits}

/-! ### No codeword is degenerate -/

/-- A codeword that is not degenerate holds both bits (R200). -/
theorem degenerate_eq_false_iff : degenerate x = false ↔ true ∈ x ∧ false ∈ x := by
  simp [degenerate, allBits]

theorem allBits_true_iff : allBits true x = true ↔ false ∉ x := by
  simp [allBits]

/-- The loop's test says that a whole codeword of source bits is left (R202). -/
theorem le_length_of_take (h : (b.take w).length = w) : w ≤ b.length := by
  rw [← h]
  exact List.length_take_le' w b

/-- The bit a step adds to equal bits is their opposite, and a codeword it takes whole is not all equal (R202). -/
theorem stuffStep_not_degenerate (hw : 2 ≤ w) (h : (b.take w).length = w) : degenerate (stuffStep w b).1 = false := by
  have hb := le_length_of_take h
  rw [degenerate_eq_false_iff, stuffStep]
  split_ifs with hd
  · obtain ⟨v, u, rfl⟩ := List.exists_cons_of_length_pos (show 0 < b.length by omega)
    obtain ⟨k, rfl⟩ := Nat.exists_eq_add_of_le hw
    have hk : 2 + k - 1 = k + 1 := by omega
    cases v <;> simp [hk]
  · obtain ⟨ht, hf⟩ := degenerate_eq_false_iff.mp (Bool.eq_false_of_not_eq_true hd)
    have hsub := (List.take_prefix_take_left (l := b) (Nat.sub_le w 1)).subset
    exact ⟨hsub ht, hsub hf⟩

theorem stuffLoop_not_degenerate (hw : 2 ≤ w) (n : Nat) (b : Bits) :
    ∀ x ∈ (stuffLoop n w b).1, degenerate x = false := by
  induction n generalizing b with
  | zero => simp [stuffLoop]
  | succ n ih =>
    unfold stuffLoop
    split_ifs with ht
    · exact List.forall_mem_cons.mpr ⟨stuffStep_not_degenerate hw ht, ih _⟩
    · simp

/-- The last bit of a final codeword is a 0 after all ones, and a 1 after any 0 (R203). -/
theorem finalWord_not_degenerate (hw : 2 ≤ w) (hb : b.length < w) : degenerate (finalWord w b) = false := by
  rw [degenerate_eq_false_iff, finalWord]
  split_ifs with hones
  · have hones : w - 1 ≠ 0 := by omega
    simp [hones]
  · have hf : false ∈ b := not_not.mp (mt allBits_true_iff.mpr hones)
    have hpad : w - b.length ≠ 0 := by omega
    simp [hf, hpad]

/-- No codeword is degenerate (R205). -/
theorem stuffWords_not_degenerate (hw : 2 ≤ w) : ∀ x ∈ stuffWords w b, degenerate x = false := by
  have hloop := stuffLoop_not_degenerate hw b.length b
  rcases stuffWords_cases w b with ⟨h, -⟩ | h <;> rw [h]
  · exact hloop
  · have hlast := finalWord_not_degenerate hw (stuffLoop_lengths hw b.length b le_rfl).2
    exact List.forall_mem_append.mpr ⟨hloop, List.forall_mem_singleton.mpr hlast⟩

/-! ### The source bits of the codewords -/

/-- A codeword of two bits or more holds a source bit. -/
theorem sourceBits_ne_nil (hw : 2 ≤ w) (hx : x.length = w) : sourceBits w x ≠ [] := by
  have hpos : 0 < (sourceBits w x).length := by
    unfold sourceBits
    split_ifs
    · rw [List.length_take]; omega
    · omega
  exact List.ne_nil_of_length_pos hpos

/-- The source bits of a step's codeword are the bits the step consumes (R202). -/
theorem sourceBits_stuffStep (h : (b.take w).length = w) :
    sourceBits w (stuffStep w b).1 ++ (stuffStep w b).2 = b := by
  have hb := le_length_of_take h
  unfold stuffStep
  split_ifs with hd
  · have hprefix : (b.take (w - 1) ++ [!(b.headD false)]).take (w - 1) = b.take (w - 1) :=
      List.take_left' (by simp; omega)
    rw [sourceBits, hprefix, if_pos hd, List.take_append_drop]
  · have hprefix : (b.take w).take (w - 1) = b.take (w - 1) := by
      rw [List.take_take, Nat.min_eq_left (Nat.sub_le w 1)]
    rw [sourceBits, hprefix, if_neg hd, List.take_append_drop]

/-- The loop's codewords and the bits it leaves hold the source bits, once and in order (R202). -/
theorem flatMap_sourceBits_stuffLoop (n : Nat) (b : Bits) :
    (stuffLoop n w b).1.flatMap (sourceBits w) ++ (stuffLoop n w b).2 = b := by
  induction n generalizing b with
  | zero => simp [stuffLoop]
  | succ n ih =>
    unfold stuffLoop
    split_ifs with ht
    · rw [List.flatMap_cons, List.append_assoc, ih, sourceBits_stuffStep ht]
    · simp

/-- Whichever bit ends it, a final codeword begins with the remaining bits padded to `w - 1` with ones (R203). -/
theorem take_finalWord (hb : b.length < w) :
    (finalWord w b).take (w - 1) = b ++ List.replicate (w - 1 - b.length) true := by
  unfold finalWord
  split_ifs with hones
  · have hall : ∀ v ∈ b ++ List.replicate (w - 1 - b.length) true, v = true := by
      simpa [allBits, or_imp, forall_and] using hones
    rw [List.take_left' List.length_replicate, eq_comm, List.eq_replicate_iff]
    exact ⟨by rw [List.length_append, List.length_replicate]; omega, hall⟩
  · rw [List.take_append, List.take_of_length_le (by omega), List.take_replicate]
    congr 2
    omega

/-- The source bits of a final codeword are the remaining bits and fewer than `w` pad ones (R203, R205). -/
theorem exists_sourceBits_finalWord (hb : b.length < w) :
    ∃ n, n < w ∧ sourceBits w (finalWord w b) = b ++ List.replicate n true := by
  rw [sourceBits]
  split_ifs with hd
  · exact ⟨_, by omega, take_finalWord hb⟩
  · obtain ⟨-, hf⟩ := degenerate_eq_false_iff.mp (Bool.eq_false_of_not_eq_true hd)
    have hf : false ∈ b := by simpa [take_finalWord hb] using hf
    have hpos := List.length_pos_of_mem hf
    have hones : ¬allBits true b = true := fun h => allBits_true_iff.mp h hf
    exact ⟨w - b.length, by omega, by rw [finalWord, if_neg hones]⟩

/-- Where the output ends: the last codeword holds the source bits the others leave, and pad ones (R202, R203). -/
theorem exists_last_stuffWord (hw : 2 ≤ w) (b : Bits) : ∃ ws last tail n,
    stuffWords w b = ws ++ [last] ∧ ws.flatMap (sourceBits w) ++ tail = b ∧
      sourceBits w last = tail ++ List.replicate n true ∧ n < w ∧ (tail = [] → b = []) := by
  have hsource := flatMap_sourceBits_stuffLoop (w := w) b.length b
  obtain ⟨hlen, hrest⟩ := stuffLoop_lengths hw b.length b le_rfl
  simp only [stuffWords]
  split_ifs with hend
  · obtain ⟨n, hn, hfinal⟩ := exists_sourceBits_finalWord hrest
    refine ⟨_, _, _, n, rfl, hsource, hfinal, hn, fun hnil => ?_⟩
    have hloop := hend.resolve_right (not_not.mpr hnil)
    rw [← hsource, hloop, hnil, List.flatMap_nil, List.append_nil]
  · obtain ⟨hloop, hnil⟩ := not_or.mp hend
    obtain ⟨ws, last, hwords⟩ := (List.eq_nil_or_concat' _).resolve_left hloop
    have hlast : sourceBits w last ≠ [] := sourceBits_ne_nil hw (hlen last (by simp [hwords]))
    refine ⟨ws, last, sourceBits w last, 0, hwords, ?_, by simp, by omega, fun h => absurd h hlast⟩
    rwa [hwords, not_not.mp hnil, List.append_nil, List.flatMap_append, List.flatMap_singleton] at hsource

end Words

/-! ### Every source bit, once and in order -/

/-- Settles O20: all codewords but the last hold input bits alone, and the last at least one before its pad ones. -/
theorem stuffingKeepsEverySourceBit : Obligations.StuffingKeepsEverySourceBit := by
  unfold Obligations.StuffingKeepsEverySourceBit
  intro w b hlegal
  have hlegal := legalWidth_iff.mpr hlegal
  have hw := two_le_of_legalWidth hlegal
  obtain ⟨ws, last, tail, n, hwords, hsource, hlast, hn, htail⟩ := exists_last_stuffWord hw b
  refine ⟨stuffWords_word_length hw, stuffWords_ne_nil,
    fun x hx => degenerate_eq_false_iff.mp (stuffWords_not_degenerate hw x hx), ⟨n, hn, ?_⟩, fun hb => ?_, ?_, ?_,
    fun hb => stuffPad_length (w := w) (b := b) ▸ stuffPad_length_le hlegal hb, stuffWords_conserves hw b⟩
  · rw [hwords, List.flatMap_append, List.flatMap_singleton, hlast, ← List.append_assoc, hsource]
  · have htail : 0 < tail.length := List.length_pos_of_ne_nil (mt htail hb)
    rw [hwords, List.dropLast_concat, ← hsource, List.length_append]
    omega
  · rintro rfl
    rfl
  · rw [← Nat.add_div_right _ (by omega), Nat.le_div_iff_mul_le (by omega), Nat.mul_comm]
    exact stuffWords_count

/-! ### The command -/

/-- A legal width never meets the INTERNAL condition (R326). -/
theorem stuffed_of_legalWidth {w : Nat} (hw : legalWidth w = true) (b : Bits) : stuffed w b = .done (stuffPad w b) :=
  stuffed_eq_done_iff.mpr ⟨stuffWords_not_degenerate (two_le_of_legalWidth hw), rfl⟩

theorem exec_stuffPad_of_legalWidth {w : Nat} (hw : legalWidth w = true) (s : State) :
    exec (.stuffPad w) s = .next (s.setCw w (stuffPad w s.raw)).complete := by
  rw [exec_eq_finish, commandBody, stuffPadEffect_eq_done_iff.mpr ⟨hw, _, stuffed_of_legalWidth hw s.raw, rfl⟩, finish_done]

/-- Settles O19: a legal width completes, since no codeword is degenerate, and any other ends with the error effect. -/
theorem stuffPadFillsCodewords : Obligations.StuffPadFillsCodewords := by
  unfold Obligations.StuffPadFillsCodewords
  refine ⟨fun s w => ?_, fun _ _ => rfl, fun x => ⟨bitsVal_lt x, fun j hj => ?_⟩⟩
  · split_ifs with hlegal
    · exact exec_stuffPad_of_legalWidth (legalWidth_iff.mpr hlegal) s
    · exact exec_stuffPad_of_illegalWidth (Bool.eq_false_of_not_eq_true (mt legalWidth_iff.mp hlegal)) s
  · rw [bitsVal_testBit x j hj, List.getElem?_eq_getElem hj]

end Sys2Proof.Machine
end

