-- ==== Sys2Proof/Proofs/ReedSolomon.lean ====
section
/-! PROOFS. GF(2^w), the ReedSolomonEncoder and the RS_PARITY command (43_reed_solomon.md R220 to R229): the laws of the product,
the syndrome condition of data followed by its parity, and the completion of the command; and the codewords that ENCODE leaves
(46_pipeline.md R314). -/

namespace Sys2Proof.Machine

/-! ### Doubling and the product are additive

Addition is exclusive or. Doubling is `2 * a`, with the field polynomial added when bit `w` is set (R223). -/

section Product
variable {w a b c : Nat}

theorem gfDouble_eq_xor (ha : a < 2 ^ w) : gfDouble w a = 2 * a ^^^ if (2 * a).testBit w then fieldPoly w else 0 := by
  unfold gfDouble
  split_ifs with hlt hbit hbit
  · rw [Nat.testBit_lt_two_pow hlt] at hbit
    cases hbit
  · rw [Nat.xor_zero]
  · rfl
  · exact absurd (Nat.testBit_of_two_pow_le_and_two_pow_add_one_gt (Nat.le_of_not_lt hlt) (by rw [pow_succ]; omega)) hbit

theorem two_mul_xor (a b : Nat) : 2 * (a ^^^ b) = 2 * a ^^^ 2 * b := by
  simpa [Nat.shiftLeft_eq, Nat.mul_comm] using Nat.shiftLeft_xor_distrib (a := a) (b := b) (i := 1)

theorem xor_xor_xor_comm (a b c d : Nat) : (a ^^^ b) ^^^ (c ^^^ d) = (a ^^^ c) ^^^ (b ^^^ d) := by ac_rfl

/-- A term added under a condition is additive in the condition. -/
theorem ite_xor (p q : Bool) (a : Nat) :
    (if (p ^^ q) = true then a else 0) = (if p = true then a else 0) ^^^ if q = true then a else 0 := by
  cases p <;> cases q <;> simp

theorem gfDouble_xor (ha : a < 2 ^ w) (hb : b < 2 ^ w) : gfDouble w (a ^^^ b) = gfDouble w a ^^^ gfDouble w b := by
  rw [gfDouble_eq_xor ha, gfDouble_eq_xor hb, gfDouble_eq_xor (Nat.xor_lt_two_pow ha hb), two_mul_xor, Nat.testBit_xor,
    ite_xor, xor_xor_xor_comm]

@[simp] theorem gfDouble_zero (w : Nat) : gfDouble w 0 = 0 := by simp [gfDouble]

@[simp] theorem gfMulBits_zero_left (w b n : Nat) : gfMulBits w 0 b n = 0 := by
  induction n generalizing b with
  | zero => rfl
  | succ n ih => simp [gfMulBits, ih]

@[simp] theorem gfMulBits_zero_right (w a n : Nat) : gfMulBits w a 0 n = 0 := by
  induction n with
  | zero => rfl
  | succ n ih => simp [gfMulBits, ih]

@[simp] theorem gfMul_zero_left (w a : Nat) : gfMul w 0 a = 0 := gfMulBits_zero_left w a w

@[simp] theorem gfMul_zero_right (w a : Nat) : gfMul w a 0 = 0 := gfMulBits_zero_right w a w

section Legal
variable (hw : legalWidth w = true)
include hw

theorem gfMulBits_xor_left (ha : a < 2 ^ w) (hb : b < 2 ^ w) (c n : Nat) :
    gfMulBits w (a ^^^ b) c n = gfMulBits w a c n ^^^ gfMulBits w b c n := by
  induction n generalizing c with
  | zero => exact (Nat.xor_self 0).symm
  | succ n ih =>
    have hbit : (if c.testBit 0 then a ^^^ b else 0) = (if c.testBit 0 then a else 0) ^^^ if c.testBit 0 then b else 0 := by
      split_ifs <;> rfl
    simp only [gfMulBits]
    rw [ih, gfDouble_xor (gfMulBits_lt hw ha n _) (gfMulBits_lt hw hb n _), hbit, xor_xor_xor_comm]

theorem gfMulBits_xor_right (ha : a < 2 ^ w) (b c n : Nat) :
    gfMulBits w a (b ^^^ c) n = gfMulBits w a b n ^^^ gfMulBits w a c n := by
  induction n generalizing b c with
  | zero => exact (Nat.xor_self 0).symm
  | succ n ih =>
    simp only [gfMulBits]
    rw [Nat.xor_div_two, ih, gfDouble_xor (gfMulBits_lt hw ha n _) (gfMulBits_lt hw ha n _), Nat.testBit_xor, ite_xor,
      xor_xor_xor_comm]

theorem gfMulBits_double_left (ha : a < 2 ^ w) (b n : Nat) :
    gfMulBits w (gfDouble w a) b n = gfDouble w (gfMulBits w a b n) := by
  induction n generalizing b with
  | zero => exact (gfDouble_zero w).symm
  | succ n ih =>
    simp only [gfMulBits]
    rw [ih]
    split_ifs
    · rw [gfDouble_xor ha (gfDouble_lt hw (gfMulBits_lt hw ha n _))]
    · rw [Nat.zero_xor, Nat.zero_xor]

theorem gfMul_xor_left (ha : a < 2 ^ w) (hb : b < 2 ^ w) (c : Nat) : gfMul w (a ^^^ b) c = gfMul w a c ^^^ gfMul w b c :=
  gfMulBits_xor_left hw ha hb c w

theorem gfMul_xor_right (ha : a < 2 ^ w) (b c : Nat) : gfMul w a (b ^^^ c) = gfMul w a b ^^^ gfMul w a c :=
  gfMulBits_xor_right hw ha b c w

theorem gfMul_double_left (ha : a < 2 ^ w) (b : Nat) : gfMul w (gfDouble w a) b = gfDouble w (gfMul w a b) :=
  gfMulBits_double_left hw ha b w

end Legal

/-! ### The laws of the product

Every field element is made from 0 and 1 by doubling and addition, so a law of the product need only be proved for these. -/

theorem lowBit_xor_two_mul (b : Nat) : ((if b.testBit 0 then 1 else 0) ^^^ 2 * (b / 2)) = b := by
  refine Nat.eq_of_testBit_eq fun i => ?_
  rw [Nat.testBit_xor]
  cases i with
  | zero => split_ifs with hbit <;> simp [hbit]
  | succ i => split_ifs <;> simp [Nat.testBit_succ]

theorem gfMulBits_one_left {n : Nat} (hn : n ≤ w) (hb : b < 2 ^ n) : gfMulBits w 1 b n = b := by
  induction n generalizing b with
  | zero => exact (Nat.lt_one_iff.mp hb).symm
  | succ n ih =>
    have hhalf : b / 2 < 2 ^ n := by rw [pow_succ] at hb; omega
    have hdouble : 2 * (b / 2) < 2 ^ w := by
      have hpow : 2 ^ (n + 1) ≤ 2 ^ w := Nat.pow_le_pow_right (by decide) hn
      omega
    rw [gfMulBits, ih (by omega) hhalf, gfDouble, if_pos hdouble, lowBit_xor_two_mul]

theorem gfMul_one_left (ha : a < 2 ^ w) : gfMul w 1 a = a := gfMulBits_one_left le_rfl ha

variable (hw : legalWidth w = true)
include hw

/-- The field elements are the sums of powers of `alpha`. -/
theorem gf_induction {P : (a : Nat) → a < 2 ^ w → Prop} (zero : P 0 (Nat.two_pow_pos w)) (one : P 1 (alphaPow_lt hw 0))
    (double : ∀ a ha, P a ha → P (gfDouble w a) (gfDouble_lt hw ha))
    (add : ∀ a ha b hb, P a ha → P b hb → P (a ^^^ b) (Nat.xor_lt_two_pow ha hb)) (a : Nat) (ha : a < 2 ^ w) :
    P a ha := by
  have key : ∀ n b, P (gfMulBits w 1 b n) (gfMulBits_lt hw (alphaPow_lt hw 0) n b) := by
    intro n
    induction n with
    | zero => exact fun _ => zero
    | succ n ih =>
      intro b
      have hlow : ∃ h, P (if b.testBit 0 then 1 else 0) h := by
        split_ifs
        · exact ⟨alphaPow_lt hw 0, one⟩
        · exact ⟨Nat.two_pow_pos w, zero⟩
      obtain ⟨_, hlow⟩ := hlow
      exact add _ _ _ _ hlow (double _ _ (ih _))
  have hone : gfMulBits w 1 a w = a := gfMul_one_left ha
  simpa only [hone] using key w a

theorem gfMul_two_left (ha : a < 2 ^ w) : gfMul w 2 a = gfDouble w a := by
  have h1 : 1 < 2 ^ w := alphaPow_lt hw 0
  have h2 : gfDouble w 1 = 2 := by rcases legalWidth_iff.mp hw with rfl | rfl | rfl | rfl | rfl <;> rfl
  rw [← h2, gfMul_double_left hw h1, gfMul_one_left ha]

theorem gfMul_double_right (ha : a < 2 ^ w) (hb : b < 2 ^ w) : gfMul w a (gfDouble w b) = gfDouble w (gfMul w a b) := by
  induction a, ha using gf_induction hw with
  | zero => simp
  | one => rw [gfMul_one_left hb, gfMul_one_left (gfDouble_lt hw hb)]
  | double a ha ih => rw [gfMul_double_left hw ha, gfMul_double_left hw ha, ih]
  | add a ha a' ha' ih ih' =>
    rw [gfMul_xor_left hw ha ha', gfMul_xor_left hw ha ha', ih, ih', gfDouble_xor (gfMul_lt hw ha b) (gfMul_lt hw ha' b)]

theorem gfMul_one_right (ha : a < 2 ^ w) : gfMul w a 1 = a := by
  induction a, ha using gf_induction hw with
  | zero => simp
  | one => exact gfMul_one_left (alphaPow_lt hw 0)
  | double a ha ih => rw [gfMul_double_left hw ha, ih]
  | add a ha a' ha' ih ih' => rw [gfMul_xor_left hw ha ha', ih, ih']

theorem gfMul_comm (ha : a < 2 ^ w) (hb : b < 2 ^ w) : gfMul w a b = gfMul w b a := by
  induction a, ha using gf_induction hw with
  | zero => simp
  | one => rw [gfMul_one_left hb, gfMul_one_right hw hb]
  | double a ha ih => rw [gfMul_double_left hw ha, gfMul_double_right hw hb ha, ih]
  | add a ha a' ha' ih ih' => rw [gfMul_xor_left hw ha ha', gfMul_xor_right hw hb, ih, ih']

/-- The last factor may be any number. -/
theorem gfMul_assoc (ha : a < 2 ^ w) (hb : b < 2 ^ w) (c : Nat) :
    gfMul w (gfMul w a b) c = gfMul w a (gfMul w b c) := by
  induction a, ha using gf_induction hw with
  | zero => simp
  | one => rw [gfMul_one_left hb, gfMul_one_left (gfMul_lt hw hb c)]
  | double a ha ih => rw [gfMul_double_left hw ha, gfMul_double_left hw (gfMul_lt hw ha b), gfMul_double_left hw ha, ih]
  | add a ha a' ha' ih ih' =>
    rw [gfMul_xor_left hw ha ha', gfMul_xor_left hw (gfMul_lt hw ha b) (gfMul_lt hw ha' b), gfMul_xor_left hw ha ha', ih, ih']

theorem gfMul_left_comm (ha : a < 2 ^ w) (hb : b < 2 ^ w) (c : Nat) :
    gfMul w a (gfMul w b c) = gfMul w b (gfMul w a c) := by
  rw [← gfMul_assoc hw ha hb c, gfMul_comm hw ha hb, gfMul_assoc hw hb ha c]

end Product

/-- Settles O23: the laws of the product, each by induction over the field elements. -/
theorem gfMulFieldLaws : Obligations.GfMulFieldLaws := by
  unfold Obligations.GfMulFieldLaws
  refine ⟨⟨rfl, rfl, rfl, rfl, rfl⟩, fun w a b c hlegal ha hb _ => ?_⟩
  have hw := legalWidth_iff.mpr hlegal
  exact ⟨gfMul_lt hw ha b, gfMul_comm hw ha hb, gfMul_assoc hw ha hb c, gfMul_xor_right hw ha b c, gfMul_one_left ha,
    gfMul_zero_left w a, gfMul_two_left hw ha⟩

/-! ### Polynomials as coefficient lists

A list of coefficients, the highest degree first, is evaluated by Horner's rule. Started at `acc`, the rule evaluates a list whose
earlier coefficients have the value `acc`. -/

/-- Horner's rule at `x`, started at `acc` (R225). -/
def hornerFrom (w x acc : Nat) (c : List Nat) : Nat := c.foldl (fun acc d => gfMul w x acc ^^^ d) acc

theorem syndrome_eq_hornerFrom (w i : Nat) (c : List Nat) : syndrome w i c = hornerFrom w (alphaPow w i) 0 c := rfl

section Horner
variable {w x : Nat}

@[simp] theorem hornerFrom_nil (w x acc : Nat) : hornerFrom w x acc [] = acc := rfl

@[simp] theorem hornerFrom_cons (w x acc d : Nat) (c : List Nat) :
    hornerFrom w x acc (d :: c) = hornerFrom w x (gfMul w x acc ^^^ d) c := rfl

theorem hornerFrom_concat (w x acc d : Nat) (c : List Nat) :
    hornerFrom w x acc (c ++ [d]) = gfMul w x (hornerFrom w x acc c) ^^^ d := List.foldl_concat ..

theorem hornerFrom_replicate_zero (w x r : Nat) : hornerFrom w x 0 (List.replicate r 0) = 0 := by
  induction r with
  | zero => rfl
  | succ r ih => simpa [List.replicate_succ] using ih

variable (hw : legalWidth w = true) (hx : x < 2 ^ w)
include hw hx

/-- Evaluation is additive, coefficient by coefficient. -/
theorem hornerFrom_zipWith_xor {c d : List Nat} (hlen : c.length = d.length) (a b : Nat) :
    hornerFrom w x (a ^^^ b) (List.zipWith (fun a b => a ^^^ b) c d) = hornerFrom w x a c ^^^ hornerFrom w x b d := by
  induction c generalizing d a b with
  | nil =>
    obtain rfl := List.eq_nil_of_length_eq_zero hlen.symm
    rfl
  | cons u c ih =>
    obtain ⟨v, d, rfl⟩ := List.exists_cons_of_length_eq_add_one hlen.symm
    rw [List.zipWith_cons_cons, hornerFrom_cons, hornerFrom_cons, hornerFrom_cons, gfMul_xor_right hw hx, xor_xor_xor_comm,
      ih (Nat.succ_inj.mp hlen)]

/-- Evaluation keeps a constant factor. -/
theorem hornerFrom_map_gfMul {f : Nat} (hf : f < 2 ^ w) (c : List Nat) (a : Nat) :
    hornerFrom w x (gfMul w f a) (c.map (gfMul w f)) = gfMul w f (hornerFrom w x a c) := by
  induction c generalizing a with
  | nil => rfl
  | cons u c ih =>
    rw [List.map_cons, hornerFrom_cons, hornerFrom_cons, gfMul_left_comm hw hx hf, ← gfMul_xor_right hw hf, ih]

/-! ### The generator polynomial -/

/-- The value of a polynomial times `(x - c)` (R224). -/
theorem hornerFrom_mulRoot {c : Nat} (hc : c < 2 ^ w) (p : List Nat) :
    hornerFrom w x 0 (mulRoot w c p) = gfMul w x (hornerFrom w x 0 p) ^^^ gfMul w c (hornerFrom w x 0 p) := by
  have hscaled := hornerFrom_map_gfMul hw hx hc p 0
  have hsum := hornerFrom_zipWith_xor hw hx (c := p ++ [0]) (d := 0 :: p.map (gfMul w c)) (by simp) 0 0
  rw [gfMul_zero_right] at hscaled
  rw [Nat.xor_self, hornerFrom_concat, hornerFrom_cons, gfMul_zero_right, Nat.xor_self, Nat.xor_zero, hscaled] at hsum
  exact hsum

end Horner

/-- The roots of the generator polynomial (R224). -/
theorem syndrome_genPoly {w i r : Nat} (hw : legalWidth w = true) (hi : 1 ≤ i) (hir : i ≤ r) :
    syndrome w i (genPoly w r) = 0 := by
  induction r with
  | zero => omega
  | succ r ih =>
    rw [syndrome_eq_hornerFrom] at ih ⊢
    rw [genPoly, hornerFrom_mulRoot hw (alphaPow_lt hw i) (alphaPow_lt hw (r + 1))]
    rcases Nat.le_succ_iff.mp hir with hle | rfl
    · rw [ih hle, gfMul_zero_right, gfMul_zero_right, Nat.xor_self]
    · exact Nat.xor_self _

/-- The generator polynomial is monic (R224). -/
theorem genPoly_eq_cons (w r : Nat) : genPoly w r = 1 :: (genPoly w r).drop 1 := by
  have hmonic : ∃ g, genPoly w r = 1 :: g := by
    induction r with
    | zero => exact ⟨[], rfl⟩
    | succ r ih =>
      obtain ⟨g, hg⟩ := ih
      rw [genPoly, hg]
      exact ⟨_, rfl⟩
  obtain ⟨g, hg⟩ := hmonic
  rw [hg, List.drop_one, List.tail_cons]

/-! ### The remainder register -/

section Remainder
variable {w x d t : Nat} {g ts : List Nat}

/-- A step shifts the register and adds a multiple of the generator polynomial's lower coefficients (R226). -/
theorem remStep_cons (hw : legalWidth w = true) (hg : ∀ c ∈ g, c < 2 ^ w) (hf : d ^^^ t < 2 ^ w) :
    remStep w g (t :: ts) d = List.zipWith (fun a b => a ^^^ b) (ts ++ [0]) (g.map (gfMul w (d ^^^ t))) := by
  have hcomm : g.map (gfMul w (d ^^^ t)) = g.map fun c => gfMul w c (d ^^^ t) :=
    List.map_congr_left fun c hc => gfMul_comm hw hf (hg c hc)
  rw [hcomm, List.zipWith_map_right, List.zipWith_comm]
  rfl

variable (hw : legalWidth w = true) (hx : x < 2 ^ w)
include hw hx

/-- The invariant of the register, in one step: at a root of the generator polynomial, the codewords taken so far (of value `acc`)
followed by the register evaluate to 0. -/
theorem hornerFrom_remStep {acc : Nat} (hroot : hornerFrom w x 0 (1 :: g) = 0) (hg : ∀ c ∈ g, c < 2 ^ w)
    (hlen : g.length = (t :: ts).length) (hd : d < 2 ^ w) (ht : t < 2 ^ w) (hacc : hornerFrom w x acc (t :: ts) = 0) :
    hornerFrom w x (gfMul w x acc ^^^ d) (remStep w g (t :: ts) d) = 0 := by
  have hf : d ^^^ t < 2 ^ w := Nat.xor_lt_two_pow hd ht
  have hshift : hornerFrom w x (gfMul w x acc ^^^ t) (ts ++ [0]) = 0 := by
    rw [hornerFrom_concat, ← hornerFrom_cons, hacc, gfMul_zero_right, Nat.xor_self]
  have hmultiple : hornerFrom w x (d ^^^ t) (g.map (gfMul w (d ^^^ t))) = 0 := by
    have hscaled := hornerFrom_map_gfMul hw hx hf g 1
    rw [gfMul_one_right hw hf] at hscaled
    rw [hornerFrom_cons, gfMul_zero_right, Nat.zero_xor] at hroot
    rw [hscaled, hroot, gfMul_zero_right]
  have hstart : gfMul w x acc ^^^ d = (gfMul w x acc ^^^ t) ^^^ (d ^^^ t) := by
    rw [Nat.xor_comm d t, Nat.xor_assoc, Nat.xor_xor_cancel_left]
  rw [remStep_cons hw hg hf, hstart, hornerFrom_zipWith_xor hw hx (by simpa using hlen.symm), hshift, hmultiple, Nat.xor_self]

/-- The invariant of the register, over all data codewords. -/
theorem hornerFrom_append_foldl_remStep (hroot : hornerFrom w x 0 (1 :: g) = 0) (hg : ∀ c ∈ g, c < 2 ^ w)
    (hpos : 0 < g.length) {data rem : List Nat} (hdata : ∀ c ∈ data, c < 2 ^ w) (hrem : ∀ c ∈ rem, c < 2 ^ w)
    (hlen : g.length = rem.length) {acc : Nat} (hacc : hornerFrom w x acc rem = 0) :
    hornerFrom w x acc (data ++ data.foldl (remStep w g) rem) = 0 := by
  induction data generalizing rem acc with
  | nil => exact hacc
  | cons d data ih =>
    obtain ⟨hd, hdata⟩ := List.forall_mem_cons.mp hdata
    obtain ⟨t, ts, rfl⟩ := List.exists_cons_of_length_pos (hlen ▸ hpos)
    have hstep := hornerFrom_remStep hw hx hroot hg hlen hd (hrem t List.mem_cons_self) hacc
    exact ih hdata (remStep_lt hw hg hrem d) (by rw [remStep_length hlen, hlen]) hstep

end Remainder

/-- Data followed by its parity evaluates to 0 at each root of the generator polynomial (R225). -/
theorem syndrome_append_parity {w : Nat} (hw : legalWidth w = true) {i r : Nat} (hi : 1 ≤ i) (hir : i ≤ r) {d : List Nat}
    (hd : ∀ c ∈ d, c < 2 ^ w) : syndrome w i (d ++ parity w r d) = 0 := by
  have hroot := syndrome_genPoly hw hi hir
  rw [genPoly_eq_cons] at hroot
  refine hornerFrom_append_foldl_remStep hw (alphaPow_lt hw i) hroot (fun c hc => genPoly_lt hw r c (List.mem_of_mem_drop hc))
    (by simp; omega) hd (fun c hc => ?_) (by simp) (hornerFrom_replicate_zero w _ r)
  rw [List.eq_of_mem_replicate hc]
  exact Nat.two_pow_pos w

/-- Settles O24: the invariant of the remainder register, from the empty data to the whole. -/
theorem parityMakesSyndromesVanish : Obligations.ParityMakesSyndromesVanish := by
  unfold Obligations.ParityMakesSyndromesVanish
  refine ⟨fun w e hlegal => ?_, fun w i x c => ⟨rfl, hornerFrom_concat w _ 0 x c⟩, fun w r d hlegal hd => ?_⟩
  · have hw := legalWidth_iff.mpr hlegal
    exact ⟨rfl, (gfMul_two_left hw (alphaPow_lt hw e)).symm⟩
  · have hw := legalWidth_iff.mpr hlegal
    exact ⟨parity_length w r d, parity_lt hw r d, fun i hi hir => syndrome_append_parity hw hi hir hd⟩

/-! ### The command -/

/-- The remainder always has `r` codewords, so the INTERNAL condition is never met (R326). -/
theorem parityEffect_eq_done (w r : Nat) (d : List Nat) : parityEffect w r d = .done (parity w r d) :=
  parityEffect_eq_done_iff.mpr ⟨parity_length w r d, rfl⟩

/-- Settles O21: within the field's limit the body ends with the parity appended. -/
theorem rsParityAppendsParity : Obligations.RsParityAppendsParity := by
  unfold Obligations.RsParityAppendsParity
  intro s r hfilled hlimit
  have hbody : rsParityEffect r s = .done (s.setCw s.cwW (s.cw ++ parity s.cwW r s.cw)) :=
    rsParityEffect_eq_done_iff.mpr ⟨hfilled, hlimit, _, parityEffect_eq_done s.cwW r s.cw, rfl⟩
  refine ⟨_, parity_length s.cwW r s.cw, rfl, ?_⟩
  rw [exec_eq_finish, commandBody, hbody, finish_done]
  rfl

theorem exec_rsParity_of_raise {s : State} {r : Nat} {e : ErrCode} (h : rsParityEffect r s = .raise e) :
    exec (.rsParity r) s = .next (s.raiseError e) := by
  rw [exec_eq_finish, commandBody, h, finish_raise]

/-- Settles O22: the error effect is the update the statement writes out. -/
theorem rsParityErrors : Obligations.RsParityErrors := by
  unfold Obligations.RsParityErrors
  intro s r
  refine ⟨fun h => ?_, fun hfilled hlimit => ?_⟩
  · exact exec_rsParity_of_raise (rsParityEffect_eq_raise_iff.mpr (.inl ⟨h, rfl⟩))
  · exact exec_rsParity_of_raise (rsParityEffect_eq_raise_iff.mpr (.inr ⟨hfilled, hlimit, rfl⟩))

/-! ### The codewords of ENCODE -/

theorem Symbol.lt_total {y : Symbol} {k : Nat} (h : k + minParity y.total ≤ y.total) : k < y.total := by
  have hextra : 3 ≤ minParity y.total := Nat.le_add_left _ _
  omega

/-- The parity count that SIZE_SELECT's registers name (R257, R310). -/
theorem selectedParity_selectInto {s : State} {y : Symbol} {c : List Nat} (hy : y.valid = true) (hc : c.length < y.total) :
    selectedParity (selectInto s y c) = y.total - c.length := by
  have hn := Symbol.total_lt hy
  obtain ⟨-, hN, hK, -⟩ := res1Word_fields hn (hc.trans hn)
  exact congrArg₂ (· - ·) hN hK

/-- What the stages of `ENCODE` leave in the codeword buffer and the result registers (R310). -/
theorem codewords_of_encodeEffect {s t : State} (h : encodeEffect s = .done t) :
    ∃ y d, y.valid = true ∧ d.length < y.total ∧ (∀ c ∈ d, c < 2 ^ y.width) ∧ t.cwW = y.width ∧
      t.cw = d ++ parity y.width (y.total - d.length) d ∧ t.res0 = res0Word y ∧ t.res1 = res1Word y d.length := by
  simp only [encodeEffect, Effect.andThen_eq_done_iff] at h
  obtain ⟨_, _, _, h2, _, h3, _, h4, h5⟩ := h
  obtain ⟨y, d, hy, hd, rfl⟩ := sizeSelectEffect_eq_done_iff.mp h2
  obtain ⟨-, rfl⟩ := stuffed_eq_done_iff.mp hd
  obtain ⟨-, -, p, hp, rfl⟩ := rsParityEffect_eq_done_iff.mp h3
  obtain ⟨-, rfl⟩ := parityEffect_eq_done_iff.mp hp
  obtain ⟨_, _, -, -, rfl⟩ := modeMessageEffect_eq_done_iff.mp h4
  obtain ⟨_, _, -, -, -, -, -, rfl⟩ := layoutEffect_eq_done_iff.mp h5
  obtain ⟨hvalid, hfits⟩ := sizeSelect_eq_some hy
  have hk := Symbol.lt_total hfits
  refine ⟨y, _, hvalid, hk, stuffPad_lt (two_le_of_legalWidth y.legalWidth_width), rfl, ?_, rfl, rfl⟩
  rw [selectedParity_selectInto hvalid hk]
  rfl

/-- Every error of `ENCODE` is one of a stage's, so its code is not that of success (R310, R320). -/
theorem encodeEffect_raise_ne_ok {s : State} {e : ErrCode} (h : encodeEffect s = .raise e) : e ≠ .ok := by
  simp only [encodeEffect, Effect.andThen_eq_raise_iff] at h
  obtain h | ⟨_, -, h | ⟨_, -, h | ⟨_, -, h | ⟨_, -, h⟩⟩⟩⟩ := h
  · rcases modeEncodeEffect_eq_raise_iff.mp h with h | ⟨_, -, h⟩
    · obtain ⟨-, rfl⟩ := State.input_eq_raise_iff.mp h
      decide
    · obtain rfl := encodeBytes_eq_raise h
      decide
  · obtain ⟨-, rfl⟩ := sizeSelectEffect_eq_raise_iff.mp h
    decide
  · rcases rsParityEffect_eq_raise_iff.mp h with ⟨-, rfl⟩ | ⟨-, -, rfl⟩ <;> decide
  · obtain ⟨-, rfl⟩ := modeMessageEffect_eq_raise_iff.mp h
    decide
  · rcases layoutEffect_eq_raise_iff.mp h with ⟨-, rfl⟩ | ⟨_, -, -, rfl⟩ <;> decide

/-- Settles O37: the codewords are data in range followed by its parity, and the result registers give their counts. -/
theorem encodedSymbolChecks : Obligations.EncodedSymbolChecks := by
  unfold Obligations.EncodedSymbolChecks
  intro s t hexec hok
  rcases exec_eq_next_iff.mp hexec with ⟨u, hu, rfl⟩ | ⟨e, he, rfl⟩
  · obtain ⟨y, d, hvalid, hk, hd, hcwW, hcw, hres0, hres1⟩ := codewords_of_encodeEffect hu
    have hn := Symbol.total_lt hvalid
    obtain ⟨-, -, -, hW, -⟩ := res0Word_fields hvalid
    obtain ⟨-, hN, hK, -⟩ := res1Word_fields hn (hk.trans hn)
    rw [State.complete_cw, State.complete_cwW, State.complete_res0, State.complete_res1, hcwW, hcw, hres0, hres1, hW, hN, hK]
    refine ⟨?_, rfl, hk, fun i hi hir => syndrome_append_parity y.legalWidth_width hi hir hd⟩
    rw [List.length_append, parity_length, Nat.add_sub_cancel' hk.le]
  · exact absurd hok (encodeEffect_raise_ne_ok he)

end Sys2Proof.Machine
end

