-- ==== Sys2Proof/Proofs/SizeSelector.lean ====
section
/-! PROOFS. The SizeSelector and the SIZE_SELECT command (44_size_selector.md R255, R257): what the search takes, and what the
command writes. -/

namespace Sys2Proof.Machine

theorem Symbol.fits_iff {raw : Bits} {y : Symbol} :
    y.fits raw = true ↔ (stuffPad y.width raw).length + minParity y.total ≤ y.total :=
  decide_eq_true_iff

/-- The candidate selected is the one that fits after a run of candidates that do not (R255). -/
theorem sizeSelect_eq_some_iff {raw : Bits} {y : Symbol} :
    sizeSelect raw = some y ↔
      y.fits raw = true ∧ ∃ before after, candidates = before ++ y :: after ∧ ∀ z ∈ before, ¬z.fits raw = true := by
  simp [sizeSelect, List.find?_eq_some_iff_append]

theorem sizeSelect_eq_none_iff {raw : Bits} :
    sizeSelect raw = none ↔ ∀ z ∈ candidates, ¬z.fits raw = true :=
  List.find?_eq_none

/-- A selected symbol has a data width, so stuffing ends and the command completes with its writes (R257). -/
theorem exec_sizeSelect_of_some {s : State} {y : Symbol} (h : sizeSelect s.raw = some y) :
    exec .sizeSelect s = .next (selectInto s y (stuffPad y.width s.raw)).complete := by
  have hstuffed := stuffed_of_legalWidth y.legalWidth_width s.raw
  rw [exec_eq_finish, commandBody, sizeSelectEffect_eq_done_iff.mpr ⟨y, _, h, hstuffed, rfl⟩, finish_done]

theorem exec_sizeSelect_of_none {s : State} (h : sizeSelect s.raw = none) :
    exec .sizeSelect s = .next (s.raiseError .capacity) := by
  rw [exec_eq_finish, commandBody, sizeSelectEffect_eq_raise_iff.mpr ⟨h, rfl⟩, finish_raise]

/-- Settles O25: the search ends at the first candidate that fits, and each end of the search has one next state. -/
theorem sizeSelectTakesTheFirstFit : Obligations.SizeSelectTakesTheFirstFit := by
  unfold Obligations.SizeSelectTakesTheFirstFit
  refine ⟨by decide, fun s before after y hsplit hbefore hy => ?_, fun s hnone => ?_⟩
  · have hselect : sizeSelect s.raw = some y := sizeSelect_eq_some_iff.mpr
      ⟨Symbol.fits_iff.mpr hy, before, after, hsplit, fun z hz => mt Symbol.fits_iff.mp (hbefore z hz)⟩
    exact exec_sizeSelect_of_some hselect
  · have hselect : sizeSelect s.raw = none :=
      sizeSelect_eq_none_iff.mpr fun z hz => mt Symbol.fits_iff.mp (hnone z hz)
    exact exec_sizeSelect_of_none hselect

end Sys2Proof.Machine
end

