-- ==== Sys2Proof/Proofs/ModeMessage.lean ====
section
/-! PROOFS. The symbol descriptor and the mode message (45_layout.md R270 to R273): bits in blocks of a fixed width, a descriptor
as the number its fields make, and what MODE_MESSAGE writes. -/

namespace Sys2Proof.Machine

/-! ### Bits in blocks -/

/-- Bit `b` of block `n`, where every number gives a block of `w` bits. -/
theorem flatMap_msbBits_getElem? {w n b : Nat} {c : List Nat} (hn : n < c.length) (hb : b < w) :
    (c.flatMap (msbBits w))[n * w + b]? = some ((c.getD n 0).testBit (w - 1 - b)) := by
  induction c generalizing n with
  | nil => simp at hn
  | cons x c ih =>
    rw [List.flatMap_cons]
    cases n with
    | zero =>
      rw [Nat.zero_mul, Nat.zero_add, List.getElem?_append_left (by simpa using hb)]
      simp [msbBits, hb]
    | succ n =>
      rw [List.getElem?_append_right (by rw [msbBits_length, Nat.succ_mul]; omega), msbBits_length,
        show (n + 1) * w + b - w = n * w + b by rw [Nat.succ_mul]; omega, ih (by simpa using hn), List.getD_cons_succ]

theorem msbBits_add (m n v : Nat) : msbBits (m + n) v = msbBits m (v >>> n) ++ msbBits n v := by
  refine List.ext_getElem (by simp) fun j hj _ => ?_
  have hj' : j < m + n := by simpa using hj
  rw [List.getElem_append, msbBits_getElem]
  split_ifs with h
  · have hm : j < m := by simpa using h
    rw [msbBits_getElem, Nat.testBit_shiftRight]
    congr 1; omega
  · have hm : m ≤ j := by simpa using h
    rw [msbBits_getElem, msbBits_length]
    congr 1; omega

theorem msbBits_mod (n v : Nat) : msbBits n (v % 2 ^ n) = msbBits n v := by
  refine List.map_congr_left fun j hj => ?_
  have hlt : n - 1 - j < n := by have := List.mem_range.mp hj; omega
  rw [Nat.testBit_mod_two_pow, decide_eq_true hlt, Bool.true_and]

/-- The digits of `v` to base 16, the first one most significant, are its bits in blocks of 4. -/
theorem flatMap_msbBits_nibbles (n v : Nat) :
    ((List.range n).map fun j => (v >>> (4 * (n - 1 - j))) &&& 0xF).flatMap (msbBits 4) = msbBits (4 * n) v := by
  induction n with
  | zero => rfl
  | succ n ih =>
    have hfirst : msbBits 4 ((v >>> (4 * n)) &&& 0xF) = msbBits 4 (v >>> (4 * n)) := by
      rw [Nat.and_two_pow_sub_one_eq_mod _ 4, msbBits_mod]
    have hrest (j : Nat) : n - 1 - j = n - (j + 1) := by omega
    rw [List.range_succ_eq_map, List.map_cons, List.map_map, List.flatMap_cons, Nat.mul_succ, Nat.add_comm (4 * n),
      msbBits_add, ← ih, ← hfirst]
    simp only [Function.comp_def, Nat.succ_eq_add_one, hrest, Nat.add_sub_cancel, Nat.sub_zero]

/-! ### The descriptor -/

section Descriptors
variable {v : Word} {d : Descriptor}

theorem descriptorFields_eq_iff : descriptorFields v = d ↔
    v.toNat % 2 = d.form.bit ∧ v.toNat / 2 % 64 = d.layers ∧ v.toNat / 256 % 4096 = d.k := by
  obtain ⟨form, layers, k⟩ := d
  have hform : (if v.getLsbD 0 then Form.full else Form.compact) = form ↔ v.toNat % 2 = form.bit := by
    rw [← BitVec.testBit_toNat, Nat.testBit_zero]
    rcases Nat.mod_two_eq_zero_or_one v.toNat with h | h <;> cases form <;> simp [h, Form.bit]
  simp only [descriptorFields, Descriptor.mk.injEq, hform, BitVec.extractLsb'_toNat, Nat.shiftRight_eq_div_pow]

theorem descriptor_reserved_iff : (v.extractLsb' 7 1 = 0#1 ∧ v.extractLsb' 20 12 = 0#12) ↔
    v.toNat / 128 % 2 = 0 ∧ v.toNat / 1048576 = 0 := by
  have htop : v.toNat / 1048576 < 4096 := by omega
  simp only [← BitVec.toNat_inj, BitVec.extractLsb'_toNat, Nat.shiftRight_eq_div_pow]
  simp [Nat.mod_eq_of_lt htop]

/-- A word is a valid descriptor exactly when its value is made of fields in range (R270). -/
theorem descriptorOf_eq_some_iff_toNat : descriptorOf v = some d ↔
    d.inRange = true ∧ v.toNat = d.form.bit + 2 * d.layers + 256 * d.k := by
  rw [descriptorOf_eq_some_iff, ← and_assoc, descriptor_reserved_iff, descriptorFields_eq_iff]
  have hbit : d.form.bit ≤ 1 := by cases d.form <;> decide
  constructor
  · rintro ⟨hres, hrange, hfields⟩
    rw [descriptorFields_eq_iff.mpr hfields] at hrange
    exact ⟨hrange, by omega⟩
  · rintro ⟨hrange, hv⟩
    have hd := Descriptor.inRange_iff.mp hrange
    have hfields : v.toNat % 2 = d.form.bit ∧ v.toNat / 2 % 64 = d.layers ∧ v.toNat / 256 % 4096 = d.k := by omega
    rw [descriptorFields_eq_iff.mpr hfields]
    exact ⟨by omega, hrange, hfields⟩

/-- The word of a descriptor in range holds that descriptor (R270). -/
theorem descriptorOf_descriptorWord (h : d.inRange = true) : descriptorOf (descriptorWord d) = some d := by
  have hd := Descriptor.inRange_iff.mp h
  have hbit : d.form.bit ≤ 1 := by cases d.form <;> decide
  have hform : (BitVec.ofNat 32 d.form.bit).toNat = d.form.bit := Nat.mod_eq_of_lt (by omega)
  have hlow : (BitVec.ofNat 32 d.form.bit ||| BitVec.ofNat 32 d.layers <<< 1).toNat = d.form.bit + 2 * d.layers := by
    rw [match_or_operand_toNat (by omega) (by omega), hform, pow_one]
  refine descriptorOf_eq_some_iff_toNat.mpr ⟨h, ?_⟩
  rw [descriptorWord, match_or_operand_toNat (by omega) (by omega), hlow]
  norm_num

theorem Form.bit_eq (f : Form) : f.bit = if f = .full then 1 else 0 := by cases f <;> rfl

theorem inRange_of_descriptorOf (h : descriptorOf v = some d) : d.inRange = true :=
  (descriptorOf_eq_some_iff_toNat.mp h).1

/-- The symbols that exist (R250). -/
theorem Symbol.valid_iff {y : Symbol} : y.valid = true ↔
    (y.form = .compact ∧ 1 ≤ y.layers ∧ y.layers ≤ 4) ∨ (y.form = .full ∧ 1 ≤ y.layers ∧ y.layers ≤ 32) := by
  unfold Symbol.valid
  cases y.form <;> simp

theorem Descriptor.valid_symbol (h : d.inRange = true) : d.symbol.valid = true := by
  have hd := Descriptor.inRange_iff.mp h
  rw [Symbol.valid_iff, Descriptor.symbol]
  tauto

/-- The mode message's field holds the data codeword count of every symbol with its least parity (R254, R271). -/
theorem Symbol.dataCapacity_le {y : Symbol} (hy : y.valid = true) :
    (y.form = .compact → y.total - minParity y.total ≤ 64) ∧ y.total - minParity y.total ≤ 2048 := by
  rw [← mem_candidates_iff] at hy
  revert y
  decide

theorem inRange_of_selected {y : Symbol} {k : Nat} (hy : y.valid = true) (hk : 1 ≤ k)
    (hfits : k + minParity y.total ≤ y.total) : (Descriptor.mk y.form y.layers k).inRange = true := by
  obtain ⟨hcompact, hfull⟩ := Symbol.dataCapacity_le hy
  rw [Descriptor.inRange_iff]
  rcases Symbol.valid_iff.mp hy with ⟨hform, hlo, hhi⟩ | ⟨hform, hlo, hhi⟩
  · have := hcompact hform
    exact Or.inl ⟨hform, hlo, hhi, hk, show k ≤ 64 by omega⟩
  · exact Or.inr ⟨hform, hlo, hhi, hk, show k ≤ 2048 by omega⟩

end Descriptors

theorem exec_modeMessage_of_invalid {s : State} (h : descriptorOf s.arg = none) :
    exec .modeMessage s = .next (s.raiseError .illegalOperand) := by
  rw [exec_eq_finish, commandBody, modeMessageEffect_eq_raise_iff.mpr ⟨h, rfl⟩, finish_raise]

theorem exec_layout_of_raise {s : State} {e : ErrCode} (h : layoutEffect s.arg s = .raise e) :
    exec .layout s = .next (s.raiseError e) := by
  rw [exec_eq_finish, commandBody, h, finish_raise]

/-- Settles O27: a valid word is the number its fields make, and so is the word built from the result registers. -/
theorem descriptorOfArg : Obligations.DescriptorOfArg := by
  unfold Obligations.DescriptorOfArg
  refine ⟨fun v d => ?_, fun s h => ⟨?_, ?_⟩, fun y k hy hk hfits => ?_⟩
  · rw [descriptorOf_eq_some_iff_toNat, Descriptor.inRange_iff, Form.bit_eq]
    cases d.form <;> simp <;> omega
  · exact exec_modeMessage_of_invalid h
  · exact exec_layout_of_raise (layoutEffect_eq_raise_iff.mpr (.inl ⟨h, rfl⟩))
  · obtain ⟨-, hform, hlayers, -⟩ := res0Word_fields hy
    have hn := Symbol.total_lt hy
    obtain ⟨-, -, hK, -⟩ := res1Word_fields (k := k) hn (by omega)
    have hword := descriptorOf_descriptorWord (inRange_of_selected hy hk hfits)
    rw [hform, hlayers, hK, ← Form.bit_eq]
    simpa only [descriptorWord] using hword

/-! ### The mode message -/

section ModeMessage
variable {d : Descriptor}

@[simp] theorem modeNibbles_length (d : Descriptor) : (modeNibbles d).length = d.form.dataNibbles := by simp [modeNibbles]

theorem Form.modeBits_eq (f : Form) : f.modeBits = if f = .compact then 28 else 40 := by cases f <;> rfl

theorem Form.parityNibbles_eq (f : Form) : f.parityNibbles = if f = .compact then 5 else 6 := by cases f <;> rfl

/-- The parity always has its length, so the mode message is never refused (R272, R326). -/
theorem modeMessage_eq_done (d : Descriptor) : modeMessage d =
    .done ((modeNibbles d ++ parity 4 d.form.parityNibbles (modeNibbles d)).flatMap (msbBits 4)) := by
  rw [modeMessage, parityEffect_eq_done, Effect.andThen_done]

theorem exec_modeMessage_of_valid {s : State} {b : Bits} (hd : descriptorOf s.arg = some d) (hb : modeMessage d = .done b) :
    exec .modeMessage s = .next (s.setMm b).complete := by
  rw [exec_eq_finish, commandBody, modeMessageEffect_eq_done_iff.mpr ⟨d, b, hd, hb, rfl⟩, finish_done]

/-- The bits of the layer field of the mode message (R271). -/
def Form.layerBits : Form → Nat
  | .compact => 2
  | .full => 5

/-- The bits of its data codeword count field (R271). -/
def Form.countBits : Form → Nat
  | .compact => 6
  | .full => 11

/-- The two fields make up the data nibbles (R271). -/
theorem Form.layerBits_add_countBits (f : Form) : f.layerBits + f.countBits = 4 * f.dataNibbles := by cases f <;> rfl

/-- A descriptor in range fits the two fields (R270, R271). -/
theorem Descriptor.fields_lt (h : d.inRange = true) :
    d.layers - 1 < 2 ^ d.form.layerBits ∧ d.k - 1 < 2 ^ d.form.countBits := by
  rcases Descriptor.inRange_iff.mp h with ⟨hform, _⟩ | ⟨hform, _⟩
  · simp only [hform, Form.layerBits, Form.countBits]; omega
  · simp only [hform, Form.layerBits, Form.countBits]; omega

theorem modeValue_eq (hk : d.k - 1 < 2 ^ d.form.countBits) :
    modeValue d = (d.layers - 1) * 2 ^ d.form.countBits + (d.k - 1) := by
  rw [← Nat.shiftLeft_eq, Nat.shiftLeft_add_eq_or_of_lt hk]
  unfold modeValue
  cases d.form <;> rfl

/-- The mode message starts with the field value, most significant bit first (R272). -/
theorem exists_modeMessage_eq_append (d : Descriptor) : ∃ p : Bits,
    modeMessage d = .done (msbBits (4 * d.form.dataNibbles) (modeValue d) ++ p) := by
  have hdata : (modeNibbles d).flatMap (msbBits 4) = msbBits (4 * d.form.dataNibbles) (modeValue d) :=
    flatMap_msbBits_nibbles _ _
  exact ⟨_, by rw [modeMessage_eq_done, List.flatMap_append, hdata]⟩

/-- A bit sequence that starts with a value of two fields, of `m` and `n` bits, shows them in turn. -/
theorem bitsVal_fields {m n a c : Nat} {p : Bits} (ha : a < 2 ^ m) (hc : c < 2 ^ n) :
    bitsVal ((msbBits (m + n) (a * 2 ^ n + c) ++ p).take m) = a ∧
      bitsVal (((msbBits (m + n) (a * 2 ^ n + c) ++ p).drop m).take n) = c := by
  have hhigh : (a * 2 ^ n + c) / 2 ^ n = a := by
    rw [Nat.add_comm, Nat.add_mul_div_right _ _ (Nat.two_pow_pos n), Nat.div_eq_of_lt hc, Nat.zero_add]
  rw [msbBits_add, List.append_assoc, List.take_left' (msbBits_length _ _), List.drop_left' (msbBits_length _ _),
    List.take_left' (msbBits_length _ _), bitsVal_msbBits, bitsVal_msbBits, Nat.shiftRight_eq_div_pow, hhigh,
    Nat.mod_eq_of_lt ha, Nat.mul_add_mod', Nat.mod_eq_of_lt hc]
  exact ⟨rfl, rfl⟩

/-- The mode message of a descriptor in range shows the layer field and then the count field (R271). -/
theorem exists_modeMessage_fields (h : d.inRange = true) : ∃ b : Bits, modeMessage d = .done b ∧
    bitsVal (b.take d.form.layerBits) = d.layers - 1 ∧
      bitsVal ((b.drop d.form.layerBits).take d.form.countBits) = d.k - 1 := by
  obtain ⟨hlayers, hcount⟩ := Descriptor.fields_lt h
  obtain ⟨p, hp⟩ := exists_modeMessage_eq_append d
  rw [modeValue_eq hcount, ← Form.layerBits_add_countBits] at hp
  exact ⟨_, hp, bitsVal_fields hlayers hcount⟩

end ModeMessage

/-- Settles O28: the message is the nibbles and their parity, in blocks of 4 bits. -/
theorem modeMessageFillsMM : Obligations.ModeMessageFillsMM := by
  unfold Obligations.ModeMessageFillsMM
  intro s d hd
  have hmsg := modeMessage_eq_done d
  have hlen := modeMessage_length hmsg
  refine ⟨(modeNibbles d ++ parity 4 d.form.parityNibbles (modeNibbles d)).flatMap (msbBits 4), ?_, ?_,
    fun j t hj ht => ?_, exec_modeMessage_of_valid hd hmsg⟩
  · rw [hlen, Form.modeBits_eq]
  · rw [Form.parityNibbles_eq]
  · rw [flatMap_msbBits_length, Nat.mul_div_cancel _ (by decide)] at hj
    rw [Nat.mul_comm 4 j, flatMap_msbBits_getElem? hj ht, Form.parityNibbles_eq]

/-- Settles O29: the message starts with the field value, which is its two fields one after the other. -/
theorem modeMessageFields : Obligations.ModeMessageFields := by
  unfold Obligations.ModeMessageFields
  intro d hd
  obtain ⟨b, hb, hlayers, hcount⟩ := exists_modeMessage_fields hd
  have hlen := modeMessage_length hb
  have hnibbles := modeNibbles_length d
  refine ⟨b, hb, fun hform => ?_, fun hform => ?_⟩
  · rw [hform] at hlayers hcount hlen hnibbles
    exact ⟨hlen, hlayers, hcount, hnibbles⟩
  · rw [hform] at hlayers hcount hlen hnibbles
    exact ⟨hlen, hlayers, hcount, hnibbles⟩

end Sys2Proof.Machine
end

