-- ==== Sys2Proof/Proofs/Geometry.lean ====
section
/-! PROOFS. The coordinates of a symbol (45_layout.md R280, R283): its centre, its core, and the alignment map as an enumeration
of the coordinates that lie on no reference line. -/

namespace Sys2Proof.Machine

theorem gap_eq_ite (a b : Nat) : gap a b = if a ≤ b then b - a else a - b := by
  unfold gap
  split_ifs <;> omega

namespace Symbol
variable {y : Symbol} {t q : Nat}

theorem base_of_compact (h : y.form = .compact) : y.base = 4 * y.layers + 11 := by
  simp only [base, h]; omega

theorem base_of_full (h : y.form = .full) : y.base = 4 * y.layers + 14 := by
  simp only [base, h]; omega

theorem le_base (y : Symbol) : 4 * y.layers + 11 ≤ y.base := by
  cases h : y.form
  · exact (base_of_compact h).ge
  · rw [base_of_full h]; omega

theorem base_sub_one (y : Symbol) : y.base - 1 = 4 * y.layers + (if y.form = .compact then 10 else 13) := by
  cases h : y.form
  · rw [base_of_compact h]; rfl
  · rw [base_of_full h]; rfl

theorem centre_of_compact (h : y.form = .compact) : y.centre = 2 * y.layers + 5 := by
  simp only [centre, side, h, base_of_compact h]; omega

theorem centre_of_full (h : y.form = .full) : y.centre = (2 * y.layers + 7) + (2 * y.layers + 6) / 15 := by
  simp only [centre, side, h, base_of_full h]; omega

/-- Every symbol has a centre module (R280). -/
theorem side_eq (y : Symbol) : y.side = 2 * y.centre + 1 := by
  cases h : y.form
  · simp only [centre, side, h, base_of_compact h]; omega
  · simp only [centre, side, h, base_of_full h]; omega

theorem ring_of_compact (h : y.form = .compact) : y.ring = 5 := by simp only [ring, h]

theorem ring_of_full (h : y.form = .full) : y.ring = 7 := by simp only [ring, h]

theorem ring_eq_ite (y : Symbol) : y.ring = if y.form = .compact then 5 else 7 := by
  cases h : y.form <;> simp [ring, h]

theorem ring_pos (y : Symbol) : 1 ≤ y.ring := by
  rw [ring_eq_ite]
  split_ifs <;> decide

theorem ring_le_centre (y : Symbol) : y.ring ≤ y.centre := by
  cases h : y.form
  · rw [ring_of_compact h, centre_of_compact h]; omega
  · rw [ring_of_full h, centre_of_full h]; omega

theorem align_of_compact (h : y.form = .compact) (t : Nat) : y.align t = t := by simp only [align, h]

/-- The alignment map of Full before and after the centre: `s` counts the base coordinates nearer to the centre (R283). -/
theorem align_of_full (h : y.form = .full) (s : Nat) :
    (s < 2 * y.layers + 7 → y.align (2 * y.layers + 6 - s) + (s + s / 15 + 1) = y.centre) ∧
      y.align (2 * y.layers + 7 + s) = y.centre + (s + s / 15 + 1) := by
  simp only [align, h, centre_of_full h, base_of_full h]
  constructor
  · intro hs
    rw [if_pos (by omega)]
    omega
  · rw [if_neg (by omega)]
    omega

/-- A base coordinate of Full by the number of base coordinates between it and the centre. -/
theorem base_cases (h : y.form = .full) (ht : t < y.base) :
    ∃ s < 2 * y.layers + 7, t = 2 * y.layers + 6 - s ∨ t = 2 * y.layers + 7 + s := by
  rw [base_of_full h] at ht
  rcases Nat.lt_or_ge t (2 * y.layers + 7) with hlow | hhigh
  · exact ⟨2 * y.layers + 6 - t, by omega, by omega⟩
  · exact ⟨t - (2 * y.layers + 7), by omega, by omega⟩

/-- The base coordinate that `A` maps to `q`, when there is one: `A` skips one coordinate in 16 (R283). -/
def unalign (y : Symbol) (q : Nat) : Nat :=
  match y.form with
  | .compact => q
  | .full =>
    if q < y.centre then 2 * y.layers + 7 + (y.centre - q) / 16 - (y.centre - q)
    else 2 * y.layers + 6 + (q - y.centre) - (q - y.centre) / 16

theorem unalign_align (ht : t < y.base) : y.unalign (y.align t) = t := by
  cases h : y.form
  · simp only [unalign, h, align_of_compact h]
  · obtain ⟨s, hs, rfl | rfl⟩ := base_cases h ht
    · have := (align_of_full h s).1 hs
      simp only [unalign, h]
      rw [if_pos (by omega)]
      omega
    · rw [(align_of_full h s).2]
      simp only [unalign, h]
      rw [if_neg (by omega)]
      omega

theorem align_lt_side (ht : t < y.base) : y.align t < y.side := by
  cases h : y.form
  · simpa only [align_of_compact h, side, h] using ht
  · have hc := centre_of_full h
    rw [side_eq]
    obtain ⟨s, hs, rfl | rfl⟩ := base_cases h ht
    · have := (align_of_full h s).1 hs
      omega
    · rw [(align_of_full h s).2]
      omega

/-- The distance of a module of Full from the centre line counts the line and one more in each 15 base coordinates (R283). -/
theorem exists_gap_align_of_full (h : y.form = .full) (ht : t < y.base) : ∃ s < 2 * y.layers + 7,
    (t = 2 * y.layers + 6 - s ∨ t = 2 * y.layers + 7 + s) ∧ gap (y.align t) y.centre = s + s / 15 + 1 := by
  obtain ⟨s, hs, hcase⟩ := base_cases h ht
  refine ⟨s, hs, hcase, ?_⟩
  obtain ⟨hbefore, hafter⟩ := align_of_full h s
  have hbefore := hbefore hs
  unfold gap
  rcases hcase with rfl | rfl
  · omega
  · omega

/-- `A` never maps to a reference line (R283, R288). -/
theorem gap_align_centre_mod (h : y.form = .full) (ht : t < y.base) : gap (y.align t) y.centre % 16 ≠ 0 := by
  obtain ⟨s, -, -, hgap⟩ := exists_gap_align_of_full h ht
  omega

/-- The outermost `2 L` base coordinates at each end are farther from the centre than the core reaches (R280, R284). -/
theorem ring_lt_gap_align (ht : t < y.base) (hout : t < 2 * y.layers ∨ y.base ≤ t + 2 * y.layers) :
    y.ring < gap (y.align t) y.centre := by
  cases h : y.form
  · rw [base_of_compact h] at hout
    rw [ring_of_compact h, align_of_compact h, centre_of_compact h]
    unfold gap
    omega
  · obtain ⟨s, hs, hcase, hgap⟩ := exists_gap_align_of_full h ht
    rw [base_of_full h] at hout
    rw [ring_of_full h]
    omega

/-- A distance that is no multiple of 16 is that of a base coordinate (R283). -/
theorem exists_steps {u : Nat} (_ : u % 16 ≠ 0) : ∃ s, u = s + s / 15 + 1 := ⟨u - 1 - u / 16, by omega⟩

/-- `A` reaches every coordinate that lies on no reference line (R283). -/
theorem align_unalign (hq : q < y.side) (hline : y.form = .compact ∨ gap q y.centre % 16 ≠ 0) :
    y.unalign q < y.base ∧ y.align (y.unalign q) = q := by
  cases h : y.form
  · simpa only [unalign, align_of_compact h, side, h, and_true] using hq
  · have hline : gap q y.centre % 16 ≠ 0 := by simpa [h] using hline
    have hc := centre_of_full h
    rw [side_eq] at hq
    rw [base_of_full h]
    simp only [unalign, h]
    split_ifs with hlow
    · rw [gap, Nat.sub_eq_zero_of_le hlow.le, Nat.zero_add] at hline
      obtain ⟨s, hs⟩ := exists_steps hline
      have := (align_of_full h s).1 (by omega)
      rw [show 2 * y.layers + 7 + (y.centre - q) / 16 - (y.centre - q) = 2 * y.layers + 6 - s by omega]
      omega
    · rw [gap, Nat.sub_eq_zero_of_le (Nat.le_of_not_lt hlow), Nat.add_zero] at hline
      obtain ⟨s, hs⟩ := exists_steps hline
      have := (align_of_full h s).2
      rw [show 2 * y.layers + 6 + (q - y.centre) - (q - y.centre) / 16 = 2 * y.layers + 7 + s by omega]
      omega

/-- `A` keeps the order of the coordinates (R283). -/
theorem align_lt_align {u : Nat} (htu : t < u) : y.align t < y.align u := by
  cases h : y.form
  · simpa only [align_of_compact h] using htu
  · have hc := centre_of_full h
    have hb := base_of_full h
    simp only [align, h]
    split_ifs <;> omega

/-- The alignment map lists, in order, the coordinates that lie on no reference line (R283). -/
theorem map_align_range (y : Symbol) : (List.range y.base).map y.align =
    (List.range y.side).filter fun q => y.form = .compact ∨ gap q y.centre % 16 ≠ 0 := by
  have hrising : ((List.range y.base).map y.align).Pairwise (· < ·) :=
    List.pairwise_map.mpr (List.pairwise_lt_range.imp align_lt_align)
  refine hrising.eq_of_mem_iff (List.pairwise_lt_range.filter _) fun q => ?_
  simp only [List.mem_map, List.mem_range, List.mem_filter, decide_eq_true_eq]
  constructor
  · rintro ⟨t, ht, rfl⟩
    refine ⟨align_lt_side ht, ?_⟩
    cases h : y.form
    · exact Or.inl rfl
    · exact Or.inr (gap_align_centre_mod h ht)
  · rintro ⟨hq, hline⟩
    exact ⟨y.unalign q, align_unalign hq hline⟩

end Symbol

end Sys2Proof.Machine
end

