-- ==== Sys2Proof/Proofs/Placement.lean ====
section
/-! PROOFS. The placement generators (45_layout.md R282, R284, R285, R287): the data bits and their modules layer by layer, the
mode-message ring, and the orientation marks. -/

namespace Sys2Proof.Machine

/-! ### Places -/

/-- A list of `n` numbers in which each number below `n` occurs is a permutation of them. -/
theorem perm_range_of_surj {l : List Nat} {n : Nat} (hlen : l.length = n) (hmem : ∀ b < n, b ∈ l) :
    l.Perm (List.range n) := by
  have hsub : List.Subperm (List.range n) l :=
    List.nodup_range.subperm fun b hb => hmem b (List.mem_range.mp hb)
  exact (hsub.perm_of_length_le (by rw [List.length_range, hlen])).symm

/-- Places with distinct bits are distinct modules when the module determines the bit. -/
theorem nodup_modules {l : List Place} (f : Nat → Nat → Nat) (hbits : (l.map fun p => p.bit).Nodup)
    (hf : ∀ p ∈ l, f p.row p.col = p.bit) : (l.map fun p => (p.row, p.col)).Nodup := by
  refine List.Nodup.of_map (fun m => f m.1 m.2) ?_
  rwa [List.map_map, Function.comp_def, List.map_congr_left hf]

/-! ### Data -/

section Data
variable {y : Symbol} {i j t : Nat} {p : Place}

/-- A layer's two edges across, and the steps of one edge between them, fill the width that is left to it (R284). -/
theorem Symbol.rowSize_add (hi : i < y.layers) : y.rowSize i + 4 * i + 2 = y.base := by
  cases h : y.form
  · simp only [Symbol.rowSize, h, Symbol.base_of_compact h]; omega
  · simp only [Symbol.rowSize, h, Symbol.base_of_full h]; omega

theorem Symbol.rowSize_eq_ite (y : Symbol) (i : Nat) :
    y.rowSize i = 4 * (y.layers - i) + (if y.form = .compact then 9 else 12) := by
  cases h : y.form <;> simp [Symbol.rowSize, h]

theorem Symbol.layerOffset_eq_sum (y : Symbol) (i : Nat) :
    y.layerOffset i = ((List.range i).map fun m => 8 * y.rowSize m).sum := by
  induction i with
  | zero => rfl
  | succ i ih => simp [Symbol.layerOffset, List.range_succ, ih]

theorem Symbol.layerOffset_add (hi : i ≤ y.layers) : y.layerOffset i + 16 * (i * i) = 8 * (i * y.base) := by
  induction i with
  | zero => simp [Symbol.layerOffset]
  | succ i ih =>
    have hrow := Symbol.rowSize_add (y := y) hi
    have := ih (Nat.le_of_succ_le hi)
    rw [Symbol.layerOffset]
    linarith

/-- The layers take all the data bits (R252). -/
theorem Symbol.layerOffset_layers (y : Symbol) : y.layerOffset y.layers = y.dataBits := by
  have h := Symbol.layerOffset_add (y := y) le_rfl
  cases hf : y.form
  · rw [Symbol.base_of_compact hf] at h
    simp only [Symbol.dataBits, hf]
    linarith
  · rw [Symbol.base_of_full hf] at h
    simp only [Symbol.dataBits, hf]
    linarith

theorem mem_dataPlaces_iff :
    p ∈ dataPlaces y ↔ ∃ i < y.layers, ∃ j < y.rowSize i, ∃ t < 2, p ∈ edgePlaces y i j t := by
  simp [dataPlaces]

theorem edgePlaces_subset (hi : i < y.layers) (hj : j < y.rowSize i) (ht : t < 2) (hp : p ∈ edgePlaces y i j t) :
    p ∈ dataPlaces y := mem_dataPlaces_iff.mpr ⟨i, hi, j, hj, t, ht, hp⟩

theorem dataPlaces_length (y : Symbol) : (dataPlaces y).length = y.dataBits := by
  rw [← Symbol.layerOffset_layers, Symbol.layerOffset_eq_sum]
  simp [dataPlaces, List.length_flatMap, edgePlaces, Nat.mul_comm]

/-- A bit of the first `n` layers stands in one of them (R284). -/
theorem exists_layer {b n : Nat} (hb : b < y.layerOffset n) :
    ∃ i < n, ∃ k < 8 * y.rowSize i, b = y.layerOffset i + k := by
  induction n with
  | zero => simp [Symbol.layerOffset] at hb
  | succ n ih =>
    rcases Nat.lt_or_ge b (y.layerOffset n) with h | h
    · obtain ⟨i, hi, hk⟩ := ih h
      exact ⟨i, by omega, hk⟩
    · rw [Symbol.layerOffset] at hb
      exact ⟨n, by omega, b - y.layerOffset n, by omega, by omega⟩

/-- An index into the bits of a layer is one of its four edges, a step and a bit (R284). -/
theorem exists_edge_step {k rs : Nat} (hk : k < 8 * rs) :
    ∃ j < rs, ∃ t < 2, k = 2 * j + t ∨ k = 2 * rs + 2 * j + t ∨ k = 4 * rs + 2 * j + t ∨ k = 6 * rs + 2 * j + t := by
  rcases Nat.lt_or_ge k (4 * rs) with hlow | hhigh
  · rcases Nat.lt_or_ge k (2 * rs) with h | h
    · exact ⟨k / 2, by omega, k % 2, by omega, by omega⟩
    · exact ⟨(k - 2 * rs) / 2, by omega, k % 2, by omega, by omega⟩
  · rcases Nat.lt_or_ge k (6 * rs) with h | h
    · exact ⟨(k - 4 * rs) / 2, by omega, k % 2, by omega, by omega⟩
    · exact ⟨(k - 6 * rs) / 2, by omega, k % 2, by omega, by omega⟩

theorem exists_place_of_bit {b : Nat} (hb : b < y.dataBits) : ∃ p ∈ dataPlaces y, p.bit = b := by
  rw [← Symbol.layerOffset_layers] at hb
  obtain ⟨i, hi, k, hk, rfl⟩ := exists_layer hb
  obtain ⟨j, hj, t, ht, hk⟩ := exists_edge_step hk
  have hedge : ∃ p ∈ edgePlaces y i j t, p.bit = y.layerOffset i + k := by
    simp only [edgePlaces, List.mem_cons, List.not_mem_nil, or_false, exists_eq_or_imp, exists_eq_left]
    omega
  obtain ⟨p, hp, hbit⟩ := hedge
  exact ⟨p, edgePlaces_subset hi hj ht hp, hbit⟩

/-- The data bits are each placed once (R284). -/
theorem dataPlaces_bits (y : Symbol) : ((dataPlaces y).map fun p => p.bit).Perm (List.range y.dataBits) := by
  refine perm_range_of_surj (by rw [List.length_map, dataPlaces_length]) fun b hb => ?_
  obtain ⟨p, hp, rfl⟩ := exists_place_of_bit hb
  exact List.mem_map_of_mem hp

/-- The layer of a module of the data region, by its base coordinates: half its distance from the nearest side (R284). -/
def Symbol.layerAt (y : Symbol) (r q : Nat) : Nat := min (min r q) (min (y.base - 1 - r) (y.base - 1 - q)) / 2

/-- The bit that layer `i` shows at base coordinates `r`, `q`: on its left, bottom, right or top edge (R284). -/
def Symbol.bitIn (y : Symbol) (i r q : Nat) : Nat :=
  if q < 2 * i + 2 ∧ r + 2 * i + 2 < y.base then y.layerOffset i + 2 * (r - 2 * i) + (q - 2 * i)
  else if y.base ≤ r + 2 * i + 2 ∧ q + 2 * i + 2 < y.base then
    y.layerOffset i + 2 * y.rowSize i + 2 * (q - 2 * i) + (y.base - 1 - 2 * i - r)
  else if y.base ≤ q + 2 * i + 2 ∧ 2 * i + 2 ≤ r then
    y.layerOffset i + 4 * y.rowSize i + 2 * (y.base - 1 - 2 * i - r) + (y.base - 1 - 2 * i - q)
  else y.layerOffset i + 6 * y.rowSize i + 2 * (y.base - 1 - 2 * i - q) + (r - 2 * i)

/-- Place `p` is the one at base coordinates `r`, `q`, among the outermost `2 L` on one of the four sides. -/
structure Place.At (p : Place) (y : Symbol) (r q : Nat) : Prop where
  row_lt : r < y.base
  col_lt : q < y.base
  row : p.row = y.align r
  col : p.col = y.align q
  bit : p.bit = y.bitIn (y.layerAt r q) r q
  outer : (r < 2 * y.layers ∨ y.base ≤ r + 2 * y.layers) ∨ (q < 2 * y.layers ∨ y.base ≤ q + 2 * y.layers)

theorem Place.at_of_layer {r q b : Nat} (hi : i < y.layers) (hr : r < y.base) (hq : q < y.base)
    (hlayer : y.layerAt r q = i) (hbit : b = y.bitIn i r q) : Place.At ⟨y.align r, y.align q, b⟩ y r q where
  row_lt := hr
  col_lt := hq
  row := rfl
  col := rfl
  bit := by rw [hlayer, hbit]
  outer := by
    unfold Symbol.layerAt at hlayer
    omega

/-- Each edge of a layer keeps within the layer, and its test in `bitIn` is the first that holds there. -/
theorem exists_at_of_mem_edgePlaces (hi : i < y.layers) (hj : j < y.rowSize i) (ht : t < 2)
    (hp : p ∈ edgePlaces y i j t) : ∃ r q, p.At y r q := by
  have hrow := Symbol.rowSize_add hi
  have hbase := Symbol.le_base y
  simp only [edgePlaces, List.mem_cons, List.not_mem_nil, or_false] at hp
  rcases hp with rfl | rfl | rfl | rfl
  · refine ⟨_, _, Place.at_of_layer hi (by omega) (by omega) (by unfold Symbol.layerAt; omega) ?_⟩
    rw [Symbol.bitIn, if_pos (by omega)]
    omega
  · refine ⟨_, _, Place.at_of_layer hi (by omega) (by omega) (by unfold Symbol.layerAt; omega) ?_⟩
    rw [Symbol.bitIn, if_neg (by omega), if_pos (by omega)]
    omega
  · refine ⟨_, _, Place.at_of_layer hi (by omega) (by omega) (by unfold Symbol.layerAt; omega) ?_⟩
    rw [Symbol.bitIn, if_neg (by omega), if_neg (by omega), if_pos (by omega)]
    omega
  · refine ⟨_, _, Place.at_of_layer hi (by omega) (by omega) (by unfold Symbol.layerAt; omega) ?_⟩
    rw [Symbol.bitIn, if_neg (by omega), if_neg (by omega), if_neg (by omega)]
    omega

theorem exists_at_of_mem_dataPlaces (hp : p ∈ dataPlaces y) : ∃ r q, p.At y r q := by
  obtain ⟨i, hi, j, hj, t, ht, hp⟩ := mem_dataPlaces_iff.mp hp
  exact exists_at_of_mem_edgePlaces hi hj ht hp

/-- The data bits are placed at modules of the symbol (R284, R290). -/
theorem dataPlaces_lt_side (hp : p ∈ dataPlaces y) : p.row < y.side ∧ p.col < y.side := by
  obtain ⟨r, q, h⟩ := exists_at_of_mem_dataPlaces hp
  rw [h.row, h.col]
  exact ⟨Symbol.align_lt_side h.row_lt, Symbol.align_lt_side h.col_lt⟩

/-- The modules of the data bits are distinct: each determines its base coordinates, and they its bit (R284). -/
theorem dataPlaces_modules_nodup (y : Symbol) : ((dataPlaces y).map fun p => (p.row, p.col)).Nodup := by
  refine nodup_modules (fun row col => y.bitIn (y.layerAt (y.unalign row) (y.unalign col)) (y.unalign row) (y.unalign col))
    ((dataPlaces_bits y).nodup_iff.mpr List.nodup_range) fun p hp => ?_
  obtain ⟨r, q, h⟩ := exists_at_of_mem_dataPlaces hp
  rw [h.row, h.col, Symbol.unalign_align h.row_lt, Symbol.unalign_align h.col_lt, h.bit]

theorem ring_lt_distance_of_mem_dataPlaces (hp : p ∈ dataPlaces y) : y.ring < y.distance p.row p.col := by
  obtain ⟨r, q, h⟩ := exists_at_of_mem_dataPlaces hp
  rw [h.row, h.col]
  rcases h.outer with hout | hout
  · exact (Symbol.ring_lt_gap_align h.row_lt hout).trans_le (le_max_left _ _)
  · exact (Symbol.ring_lt_gap_align h.col_lt hout).trans_le (le_max_right _ _)

theorem off_lines_of_mem_dataPlaces (hy : y.form = .full) (hp : p ∈ dataPlaces y) :
    gap p.row y.centre % 16 ≠ 0 ∧ gap p.col y.centre % 16 ≠ 0 := by
  obtain ⟨r, q, h⟩ := exists_at_of_mem_dataPlaces hp
  rw [h.row, h.col]
  exact ⟨Symbol.gap_align_centre_mod hy h.row_lt, Symbol.gap_align_centre_mod hy h.col_lt⟩

/-- The pad zeros and the codewords make up the data bits (R282). -/
theorem messageBits_length {c : List Nat} (hc : c.length = y.total) : (messageBits y c).length = y.dataBits := by
  rw [messageBits, List.length_append, List.length_replicate, flatMap_msbBits_length, hc, Symbol.total, Nat.mod_add_div']

theorem messageBits_pad {c : List Nat} (hi : i < y.dataBits % y.width) : (messageBits y c)[i]? = some false := by
  rw [messageBits, List.getElem?_append_left (by rwa [List.length_replicate]), List.getElem?_replicate, if_pos hi]

theorem messageBits_codeword {c : List Nat} {n b : Nat} (hn : n < c.length) (hb : b < y.width) :
    (messageBits y c)[y.dataBits % y.width + n * y.width + b]? = some ((c.getD n 0).testBit (y.width - 1 - b)) := by
  rw [messageBits, List.getElem?_append_right (by rw [List.length_replicate]; omega), List.length_replicate, Nat.add_assoc,
    Nat.add_sub_cancel_left, flatMap_msbBits_getElem? hn hb]

end Data

/-! ### The mode-message ring -/

section Ring
variable {y : Symbol} {t : Nat} {p : Place}

/-- The bits on each side of the mode-message ring (R285). -/
def Symbol.sideBits (y : Symbol) : Nat :=
  match y.form with
  | .compact => 7
  | .full => 10

/-- The coordinate of step `t` along a side of the ring; for Full it skips the centre line (R285). -/
def Symbol.sideAt (y : Symbol) (t : Nat) : Nat :=
  match y.form with
  | .compact => y.centre - 3 + t
  | .full => y.centre - 5 + t + t / 5

/-- The step along a side of the ring at coordinate `o`. -/
def Symbol.sideStep (y : Symbol) (o : Nat) : Nat :=
  match y.form with
  | .compact => o - (y.centre - 3)
  | .full => o - (y.centre - 5) - (if y.centre < o then 1 else 0)

/-- The four places of step `t`: top, right, bottom and left side. -/
theorem mem_modePlaces_iff : p ∈ modePlaces y ↔ ∃ t < y.sideBits,
    p = ⟨y.centre - y.ring, y.sideAt t, t⟩ ∨ p = ⟨y.sideAt t, y.centre + y.ring, t + y.sideBits⟩ ∨
      p = ⟨y.centre + y.ring, y.sideAt t, 3 * y.sideBits - 1 - t⟩ ∨
      p = ⟨y.sideAt t, y.centre - y.ring, 4 * y.sideBits - 1 - t⟩ := by
  cases h : y.form <;> simp [modePlaces, Symbol.sideBits, Symbol.sideAt, Symbol.ring, h]

/-- A side keeps off the two modules at each of its ends (R285, R287). -/
theorem Symbol.sideAt_bounds (ht : t < y.sideBits) :
    y.centre + 2 ≤ y.sideAt t + y.ring ∧ y.sideAt t + 2 ≤ y.centre + y.ring := by
  have hring := y.ring_le_centre
  cases h : y.form <;> simp only [Symbol.sideBits, Symbol.sideAt, Symbol.ring, h] at ht hring ⊢ <;> omega

theorem Symbol.sideAt_ne_centre (h : y.form = .full) (t : Nat) : y.sideAt t ≠ y.centre := by
  have hring := y.ring_le_centre
  simp only [Symbol.sideAt, Symbol.ring, h] at hring ⊢
  omega

theorem Symbol.sideStep_sideAt (_ : t < y.sideBits) : y.sideStep (y.sideAt t) = t := by
  have hring := y.ring_le_centre
  cases h : y.form
  · simp only [Symbol.sideStep, Symbol.sideAt, h]
    omega
  · simp only [Symbol.sideBits, Symbol.sideStep, Symbol.sideAt, Symbol.ring, h] at *
    split_ifs <;> omega

/-- The mode message bits are each placed once (R285). -/
theorem modePlaces_bits (y : Symbol) :
    ((modePlaces y).map fun p => p.bit).Perm (List.range (if y.form = .compact then 28 else 40)) := by
  cases h : y.form
  · simp only [modePlaces, h, List.map_flatMap, List.map_cons, List.map_nil]
    decide
  · simp only [modePlaces, h, List.map_flatMap, List.map_cons, List.map_nil]
    decide

/-- The bit of the mode message at a module of the ring. -/
def Symbol.ringBit (y : Symbol) (row col : Nat) : Nat :=
  if row + y.ring = y.centre then y.sideStep col
  else if col = y.centre + y.ring then y.sideStep row + y.sideBits
  else if row = y.centre + y.ring then 3 * y.sideBits - 1 - y.sideStep col
  else 4 * y.sideBits - 1 - y.sideStep row

theorem ringBit_of_mem_modePlaces (hp : p ∈ modePlaces y) : y.ringBit p.row p.col = p.bit := by
  have hring := y.ring_le_centre
  obtain ⟨t, ht, hp⟩ := mem_modePlaces_iff.mp hp
  obtain ⟨hlo, hhi⟩ := Symbol.sideAt_bounds ht
  have hstep := Symbol.sideStep_sideAt ht
  rcases hp with rfl | rfl | rfl | rfl
  · simp only [Symbol.ringBit, hstep]
    rw [if_pos (by omega)]
  · simp only [Symbol.ringBit, hstep]
    rw [if_neg (by omega), if_true]
  · simp only [Symbol.ringBit, hstep]
    rw [if_neg (by omega), if_neg (by omega), if_true]
  · simp only [Symbol.ringBit, hstep]
    rw [if_neg (by omega), if_neg (by omega), if_neg (by omega)]

theorem modePlaces_modules_nodup (y : Symbol) : ((modePlaces y).map fun p => (p.row, p.col)).Nodup :=
  nodup_modules y.ringBit ((modePlaces_bits y).nodup_iff.mpr List.nodup_range) fun _ => ringBit_of_mem_modePlaces

theorem Symbol.gap_centre_sub_ring (y : Symbol) : gap (y.centre - y.ring) y.centre = y.ring := by
  have hring := y.ring_le_centre
  unfold gap
  omega

theorem Symbol.gap_centre_add_ring (y : Symbol) : gap (y.centre + y.ring) y.centre = y.ring := by
  unfold gap
  omega

/-- A place of the mode message lies on the ring: one coordinate on a side's line, the other along the side. -/
theorem gap_of_mem_modePlaces (hp : p ∈ modePlaces y) : ∃ t < y.sideBits,
    (gap p.row y.centre = y.ring ∧ p.col = y.sideAt t) ∨ (p.row = y.sideAt t ∧ gap p.col y.centre = y.ring) := by
  obtain ⟨t, ht, hp⟩ := mem_modePlaces_iff.mp hp
  refine ⟨t, ht, ?_⟩
  rcases hp with rfl | rfl | rfl | rfl
  · exact Or.inl ⟨y.gap_centre_sub_ring, rfl⟩
  · exact Or.inr ⟨rfl, y.gap_centre_add_ring⟩
  · exact Or.inl ⟨y.gap_centre_add_ring, rfl⟩
  · exact Or.inr ⟨rfl, y.gap_centre_sub_ring⟩

theorem Symbol.gap_sideAt_le (ht : t < y.sideBits) : gap (y.sideAt t) y.centre + 2 ≤ y.ring := by
  obtain ⟨hlo, hhi⟩ := Symbol.sideAt_bounds ht
  unfold gap
  omega

theorem distance_of_mem_modePlaces (hp : p ∈ modePlaces y) : y.distance p.row p.col = y.ring := by
  obtain ⟨t, ht, ⟨hrow, hcol⟩ | ⟨hrow, hcol⟩⟩ := gap_of_mem_modePlaces hp
  · have := Symbol.gap_sideAt_le ht
    rw [Symbol.distance, hrow, hcol]
    exact max_eq_left (by omega)
  · have := Symbol.gap_sideAt_le ht
    rw [Symbol.distance, hrow, hcol]
    exact max_eq_right (by omega)

/-- Both coordinates of an orientation mark are within one module of a corner of the ring (R287). -/
theorem gap_of_mem_orientationMarks {r q : Nat} (h : (r, q) ∈ orientationMarks y) :
    y.ring ≤ gap r y.centre + 1 ∧ y.ring ≤ gap q y.centre + 1 := by
  have hring := y.ring_le_centre
  simp only [orientationMarks, List.mem_cons, Prod.mk.injEq, List.not_mem_nil, or_false] at h
  unfold gap
  omega

theorem not_mark_of_mem_modePlaces (hp : p ∈ modePlaces y) : (p.row, p.col) ∉ orientationMarks y := by
  intro hmark
  obtain ⟨hr, hq⟩ := gap_of_mem_orientationMarks hmark
  obtain ⟨t, ht, ⟨-, h⟩ | ⟨h, -⟩⟩ := gap_of_mem_modePlaces hp
  · have := Symbol.gap_sideAt_le ht
    rw [h] at hq
    omega
  · have := Symbol.gap_sideAt_le ht
    rw [h] at hr
    omega

theorem off_lines_of_mem_modePlaces (h : y.form = .full) (hp : p ∈ modePlaces y) :
    gap p.row y.centre % 16 ≠ 0 ∧ gap p.col y.centre % 16 ≠ 0 := by
  have hring := Symbol.ring_of_full h
  obtain ⟨t, ht, hp⟩ := gap_of_mem_modePlaces hp
  have hle := Symbol.gap_sideAt_le ht
  have hne : gap (y.sideAt t) y.centre ≠ 0 := by
    have := Symbol.sideAt_ne_centre h t
    unfold gap
    omega
  rcases hp with ⟨hrow, hcol⟩ | ⟨hrow, hcol⟩ <;> rw [hrow, hcol] <;> omega

/-- The four sides clockwise from the top-left: the bottom and the left one are taken backwards (R285). -/
theorem modePlaces_clockwise (ht : t < y.sideBits) :
    ⟨y.centre - y.ring, y.sideAt t, t⟩ ∈ modePlaces y ∧
      ⟨y.sideAt t, y.centre + y.ring, y.sideBits + t⟩ ∈ modePlaces y ∧
      ⟨y.centre + y.ring, y.sideAt (y.sideBits - 1 - t), 2 * y.sideBits + t⟩ ∈ modePlaces y ∧
      ⟨y.sideAt (y.sideBits - 1 - t), y.centre - y.ring, 3 * y.sideBits + t⟩ ∈ modePlaces y := by
  simp only [mem_modePlaces_iff]
  refine ⟨⟨t, ht, .inl rfl⟩, ⟨t, ht, .inr (.inl ?_)⟩, ⟨y.sideBits - 1 - t, by omega, .inr (.inr (.inl ?_))⟩,
    ⟨y.sideBits - 1 - t, by omega, .inr (.inr (.inr ?_))⟩⟩
  · rw [Nat.add_comm t]
  · rw [Place.mk.injEq]
    exact ⟨rfl, rfl, by omega⟩
  · rw [Place.mk.injEq]
    exact ⟨rfl, rfl, by omega⟩

theorem modePlaces_of_compact (h : y.form = .compact) (ht : t < 7) :
    ⟨y.centre - 5, y.centre - 3 + t, t⟩ ∈ modePlaces y ∧ ⟨y.centre - 3 + t, y.centre + 5, 7 + t⟩ ∈ modePlaces y ∧
      ⟨y.centre + 5, y.centre + 3 - t, 14 + t⟩ ∈ modePlaces y ∧
      ⟨y.centre + 3 - t, y.centre - 5, 21 + t⟩ ∈ modePlaces y := by
  have hsides := modePlaces_clockwise (y := y) (t := t)
  have hring := y.ring_le_centre
  simp only [Symbol.sideBits, Symbol.sideAt, Symbol.ring, h] at hsides hring
  rw [show y.centre - 3 + (7 - 1 - t) = y.centre + 3 - t by omega] at hsides
  exact hsides ht

theorem modePlaces_of_full {o i : Nat} (h : y.form = .full) (ht : t < 10)
    (ho : o = y.centre - 5 + t + (if t < 5 then 0 else 1)) (hi : i = y.centre + 5 - t - (if t < 5 then 0 else 1)) :
    ⟨y.centre - 7, o, t⟩ ∈ modePlaces y ∧ ⟨o, y.centre + 7, 10 + t⟩ ∈ modePlaces y ∧
      ⟨y.centre + 7, i, 20 + t⟩ ∈ modePlaces y ∧ ⟨i, y.centre - 7, 30 + t⟩ ∈ modePlaces y := by
  have hsides := modePlaces_clockwise (y := y) (t := t)
  have hring := y.ring_le_centre
  simp only [Symbol.sideBits, Symbol.sideAt, Symbol.ring, h] at hsides hring
  rw [show y.centre - 5 + t + t / 5 = o by split_ifs at ho <;> omega,
    show y.centre - 5 + (10 - 1 - t) + (10 - 1 - t) / 5 = i by split_ifs at hi <;> omega] at hsides
  exact hsides ht

end Ring

/-- Settles O32: the clauses of the data placement over layers, steps and edges, then those of the mode-message ring; `c` and
`f` are the centre and the ring. -/
theorem placementVisitsEveryBitOnce : Obligations.PlacementVisitsEveryBitOnce := by
  unfold Obligations.PlacementVisitsEveryBitOnce
  refine ⟨fun y _ => ⟨dataPlaces_bits y, fun p hp => dataPlaces_lt_side hp, fun c hc => ⟨messageBits_length hc,
    fun i hi => messageBits_pad hi, fun n b hn hb => messageBits_codeword (hn.trans_eq hc.symm) hb⟩, ?_, y.map_align_range⟩,
    by decide, gap_eq_ite, ?_⟩
  · intro i j t rs ro last hi hrs hro hlast hj ht
    simp only [← Symbol.rowSize_eq_ite, ← Symbol.layerOffset_eq_sum, ← Symbol.base_sub_one] at hrs hro hlast
    subst hrs hro hlast
    have hmem : ∀ p ∈ edgePlaces y i j t, p ∈ dataPlaces y := fun p => edgePlaces_subset hi hj ht
    simpa only [edgePlaces, List.forall_mem_cons, List.not_mem_nil, false_imp_iff, implies_true, and_true] using hmem
  · intro y c f _ hc hf
    obtain rfl : c = y.centre := hc
    obtain rfl : f = y.ring := hf.trans y.ring_eq_ite.symm
    refine ⟨⟨rfl, rfl, fun _ _ => rfl⟩, modePlaces_bits y, modePlaces_modules_nodup y, fun p hp =>
      ⟨distance_of_mem_modePlaces hp, not_mark_of_mem_modePlaces hp, fun h => off_lines_of_mem_modePlaces h hp⟩,
      fun h t ht => modePlaces_of_compact h ht, fun h t o i ht ho hi => modePlaces_of_full h ht ho hi, rfl⟩

/-- Settles O33: each place of the generator is known by its base coordinates. -/
theorem placementAvoidsCoreAndLines : Obligations.PlacementAvoidsCoreAndLines := by
  unfold Obligations.PlacementAvoidsCoreAndLines
  exact fun y _ => ⟨dataPlaces_modules_nodup y, fun p hp => ⟨ring_lt_distance_of_mem_dataPlaces hp,
    fun hfull => off_lines_of_mem_dataPlaces hfull hp⟩⟩

end Sys2Proof.Machine
end

