-- ==== Sys2Proof/Proofs/Layout.lean ====
section
/-! PROOFS. The LAYOUT command (45_layout.md R281, R286 to R290): what each of the five parts sets dark, that none leaves the
symbol, and what the command writes. -/

namespace Sys2Proof.Machine

/-! ### The dark modules of each part -/

section Parts
variable {y : Symbol} {c : List Nat} {b : Bits} {r q : Nat}

theorem mem_darkPlaces_iff {ps : List Place} :
    (r, q) ∈ darkPlaces b ps ↔ ∃ p ∈ ps, p.row = r ∧ p.col = q ∧ b.getD p.bit false = true := by
  simp only [darkPlaces, List.mem_map, List.mem_filter, Prod.mk.injEq, and_assoc]
  exact exists_congr fun p => and_congr_right fun _ => by tauto

/-- The bull's eye lists the even distances inside the ring (R286). -/
theorem mem_bullsEye_iff : (r, q) ∈ bullsEye y ↔ y.distance r q < y.ring ∧ y.distance r q % 2 = 0 := by
  have hring := y.ring_le_centre
  simp only [bullsEye, List.mem_flatMap, List.mem_range, List.mem_map, List.mem_filter, Bool.and_eq_true,
    decide_eq_true_eq, beq_iff_eq, Prod.mk.injEq]
  constructor
  · rintro ⟨i, -, j, ⟨-, hd⟩, rfl, rfl⟩
    exact hd
  · intro hd
    obtain ⟨hr, hq⟩ : gap r y.centre < y.ring ∧ gap q y.centre < y.ring := max_lt_iff.mp hd.1
    unfold gap at hr hq
    have er : y.centre - y.ring + (r + y.ring - y.centre) = r := by omega
    have eq' : y.centre - y.ring + (q + y.ring - y.centre) = q := by omega
    refine ⟨r + y.ring - y.centre, by omega, q + y.ring - y.centre, ⟨by omega, ?_⟩, er, eq'⟩
    rwa [er, eq']

theorem mem_referenceLines_iff {j : Nat} : (r, q) ∈ referenceLines y j ↔
    (q < y.side ∧ q % 2 = y.centre % 2 ∧ (r = y.centre - j ∨ r = y.centre + j)) ∨
      (r < y.side ∧ r % 2 = y.centre % 2 ∧ (q = y.centre - j ∨ q = y.centre + j)) := by
  simp only [referenceLines, List.mem_flatMap, List.mem_filter, List.mem_range, beq_iff_eq, List.mem_cons, Prod.mk.injEq,
    List.not_mem_nil, or_false]
  constructor
  · rintro ⟨x, ⟨hx, hpar⟩, ⟨rfl, rfl⟩ | ⟨rfl, rfl⟩ | ⟨rfl, rfl⟩ | ⟨rfl, rfl⟩⟩
    · exact Or.inl ⟨hx, hpar, .inl rfl⟩
    · exact Or.inl ⟨hx, hpar, .inr rfl⟩
    · exact Or.inr ⟨hx, hpar, .inl rfl⟩
    · exact Or.inr ⟨hx, hpar, .inr rfl⟩
  · rintro (⟨hx, hpar, h⟩ | ⟨hx, hpar, h⟩)
    · exact ⟨q, ⟨hx, hpar⟩, by tauto⟩
    · exact ⟨r, ⟨hx, hpar⟩, by tauto⟩

/-- A coordinate of the symbol is on a reference line when its distance from the centre is a multiple of 16 (R288). -/
theorem exists_line_iff (hr : r < y.side) :
    (∃ m ≤ y.centre / 16, r = y.centre - 16 * m ∨ r = y.centre + 16 * m) ↔ gap r y.centre % 16 = 0 := by
  have hside := y.side_eq
  unfold gap
  constructor
  · rintro ⟨m, hm, h⟩
    omega
  · intro h
    rcases Nat.le_total r y.centre with hle | hle
    · exact ⟨(y.centre - r) / 16, by omega, by omega⟩
    · exact ⟨(r - y.centre) / 16, by omega, by omega⟩

theorem gap_mod_two_iff {a b : Nat} : gap a b % 2 = 0 ↔ a % 2 = b % 2 := by
  unfold gap
  omega

/-- The reference grid inside the symbol (R288). -/
theorem mem_referenceGrid_iff (hr : r < y.side) (hq : q < y.side) : (r, q) ∈ referenceGrid y ↔ y.form = .full ∧
    ((gap r y.centre % 16 = 0 ∧ gap q y.centre % 2 = 0) ∨ (gap q y.centre % 16 = 0 ∧ gap r y.centre % 2 = 0)) := by
  cases h : y.form
  · simp [referenceGrid, h]
  · simp only [referenceGrid, h, List.mem_flatMap, List.mem_range, Nat.lt_succ_iff, mem_referenceLines_iff, true_and,
      ← exists_line_iff hr, ← exists_line_iff hq, gap_mod_two_iff]
    constructor
    · rintro ⟨m, hm, ⟨-, hpar, hline⟩ | ⟨-, hpar, hline⟩⟩
      · exact Or.inl ⟨⟨m, hm, hline⟩, hpar⟩
      · exact Or.inr ⟨⟨m, hm, hline⟩, hpar⟩
    · rintro (⟨⟨m, hm, hline⟩, hpar⟩ | ⟨⟨m, hm, hline⟩, hpar⟩)
      · exact ⟨m, hm, .inl ⟨hq, hpar, hline⟩⟩
      · exact ⟨m, hm, .inr ⟨hr, hpar, hline⟩⟩

theorem mem_darkModules_iff {m : Nat × Nat} : m ∈ darkModules y c b ↔
    m ∈ darkPlaces (messageBits y c) (dataPlaces y) ∨ m ∈ darkPlaces b (modePlaces y) ∨ m ∈ bullsEye y ∨
      m ∈ orientationMarks y ∨ m ∈ referenceGrid y := by
  simp [darkModules]

/-! ### No part leaves the symbol -/

theorem lt_side_of_gap_le (hr : gap r y.centre ≤ y.ring) : r < y.side := by
  have hring := y.ring_le_centre
  have hside := y.side_eq
  unfold gap at hr
  omega

theorem lt_side_of_distance_le (h : y.distance r q ≤ y.ring) : r < y.side ∧ q < y.side := by
  obtain ⟨hr, hq⟩ : gap r y.centre ≤ y.ring ∧ gap q y.centre ≤ y.ring := max_le_iff.mp h
  exact ⟨lt_side_of_gap_le hr, lt_side_of_gap_le hq⟩

theorem lt_side_of_mem_orientationMarks (h : (r, q) ∈ orientationMarks y) : r < y.side ∧ q < y.side := by
  have hring := y.ring_le_centre
  have hpos := y.ring_pos
  have hside := y.side_eq
  simp only [orientationMarks, List.mem_cons, Prod.mk.injEq, List.not_mem_nil, or_false] at h
  omega

theorem lt_side_of_mem_referenceGrid (h : (r, q) ∈ referenceGrid y) : r < y.side ∧ q < y.side := by
  have hside := y.side_eq
  cases hf : y.form
  · simp [referenceGrid, hf] at h
  · simp only [referenceGrid, hf, List.mem_flatMap, List.mem_range, mem_referenceLines_iff] at h
    omega

/-- Every dark module lies in the symbol (R290). -/
theorem lt_side_of_mem_darkModules (h : (r, q) ∈ darkModules y c b) : r < y.side ∧ q < y.side := by
  rcases mem_darkModules_iff.mp h with h | h | h | h | h
  · obtain ⟨p, hp, rfl, rfl, -⟩ := mem_darkPlaces_iff.mp h
    exact dataPlaces_lt_side hp
  · obtain ⟨p, hp, rfl, rfl, -⟩ := mem_darkPlaces_iff.mp h
    exact lt_side_of_distance_le (distance_of_mem_modePlaces hp).le
  · exact lt_side_of_distance_le (mem_bullsEye_iff.mp h).1.le
  · exact lt_side_of_mem_orientationMarks h
  · exact lt_side_of_mem_referenceGrid h

end Parts

/-! ### The command -/

/-- No dark module lies outside the symbol, so the INTERNAL condition is never met (R290, R326). -/
theorem layoutMatrix_eq_done (y : Symbol) (c : List Nat) (b : Bits) :
    layoutMatrix y c b = .done (paint (darkModules y c b)) :=
  layoutMatrix_eq_done_iff.mpr ⟨fun _ => lt_side_of_mem_darkModules, rfl⟩

theorem exec_layout_of_valid {s : State} {d : Descriptor} (hd : descriptorOf s.arg = some d) (hw : s.cwW = d.symbol.width)
    (hn : s.cw.length = d.symbol.total) (hm : s.mm.length = d.form.modeBits) :
    exec .layout s = .next (s.setMat (paint (darkModules d.symbol s.cw s.mm))).complete := by
  have hbody := layoutEffect_eq_done_iff.mpr ⟨d, _, hd, hw, hn, hm, layoutMatrix_eq_done d.symbol s.cw s.mm, rfl⟩
  rw [exec_eq_finish, commandBody, hbody, finish_done]

/-- A module of the painted matrix is dark exactly when one of the parts lists it (R281). -/
theorem paint_darkModules {y : Symbol} (hy : y.valid = true) {c : List Nat} {b : Bits} {r q : Nat} (hr : r < 151)
    (hq : q < 151) : ((paint (darkModules y c b)).getD r 0#151).getMsbD q = true ↔ (r, q) ∈ darkModules y c b := by
  have hside := Symbol.side_le hy
  rw [paint_module _ _ _ hr hq fun p hp => (lt_side_of_mem_darkModules hp).2.trans_le hside, List.contains_iff_mem]

/-- Settles O30: the matrix shows the dark modules, which are those of the five parts. -/
theorem layoutPaintsTheSymbol : Obligations.LayoutPaintsTheSymbol := by
  unfold Obligations.LayoutPaintsTheSymbol
  intro s d hd hw hn hm
  have hy := Descriptor.valid_symbol (inRange_of_descriptorOf hd)
  have hside := Symbol.side_le hy
  rw [← Form.modeBits_eq] at hm
  refine ⟨_, paint_length _, exec_layout_of_valid hd hw hn hm, fun r q hr hq hout => ?_, fun r q hr hq => ?_⟩
  · rw [← Bool.not_eq_true, paint_darkModules hy hr hq]
    intro hmem
    have := lt_side_of_mem_darkModules hmem
    omega
  · rw [paint_darkModules hy (hr.trans_le hside) (hq.trans_le hside), mem_darkModules_iff, mem_darkPlaces_iff,
      mem_darkPlaces_iff, mem_bullsEye_iff, mem_referenceGrid_iff hr hq]
    rfl

/-- Settles O31: each of the three mismatches makes the body raise STATE. -/
theorem layoutStateErrors : Obligations.LayoutStateErrors := by
  unfold Obligations.LayoutStateErrors
  intro s d hd hbad
  rw [← Form.modeBits_eq] at hbad
  exact exec_layout_of_raise (layoutEffect_eq_raise_iff.mpr (.inr ⟨d, hd, hbad, rfl⟩))

end Sys2Proof.Machine
end

