-- ==== Sys2Proof/Proofs/Pipeline.lean ====
section
/-! PROOFS. NOP and ENCODE (46_pipeline.md R310, R311, R313): no stage fails once a symbol is selected, ENCODE fails only as a
whole, and it ends where its five stage commands end. -/

namespace Sys2Proof.Machine

/-! ### NOP -/

/-- Settles O8: the body of `NOP` is the state itself, and word 0 is its only word. -/
theorem nopOnlyCompletes : Obligations.NopOnlyCompletes := by
  unfold Obligations.NopOnlyCompletes
  have hstatus : 0#24 ++ 0#4 ++ 0#2 ++ BitVec.ofBool true ++ BitVec.ofBool false = 2#32 := by decide
  refine ⟨rfl, fun _ => ⟨rfl, hstatus⟩, fun s _ hop hv => ?_⟩
  exact completeCommand_of_ne_encode (i := .nop) (fun _ _ _ => rfl) hop hv s

/-! ### What a selected symbol guarantees -/

section Selected
variable {s : State} {y : Symbol} {k : Nat} {b : Bits}

theorem Symbol.dataBits_le (hy : y.valid = true) : y.dataBits ≤ 19968 := by
  rw [← mem_candidates_iff] at hy
  revert y
  decide

/-- The codewords of a symbol are within the limit of its field (R253, R310). -/
theorem Symbol.total_le_field (hy : y.valid = true) : y.total ≤ 2 ^ y.width - 1 := by
  rw [← mem_candidates_iff] at hy
  revert y
  decide

/-- A stream that a candidate fits passes the check against `RAW_MAX`: stuffing drops no bit (R205, R310). -/
theorem length_le_of_sizeSelect (hy : sizeSelect b = some y) : b.length ≤ 19968 := by
  obtain ⟨hvalid, hfits⟩ := sizeSelect_eq_some hy
  calc b.length
    _ ≤ y.width * (stuffPad y.width b).length := by
      rw [stuffPad_length]
      exact stuffWords_conserves (two_le_of_legalWidth y.legalWidth_width) b
    _ ≤ y.width * y.total := Nat.mul_le_mul_left _ (Symbol.lt_total hfits).le
    _ ≤ y.dataBits := Nat.mul_div_le _ _
    _ ≤ 19968 := Symbol.dataBits_le hvalid

theorem stuffPad_length_pos (w : Nat) (b : Bits) : 0 < (stuffPad w b).length := by
  rw [stuffPad_length]
  exact List.length_pos_of_ne_nil stuffWords_ne_nil

/-- The word that ENCODE hands to its last two stages, made of the fields of the result registers (R310). -/
theorem descriptorWord_selectedDescriptor (s : State) : descriptorWord (selectedDescriptor s) =
    BitVec.ofNat 32 (resForm s.res0) ||| BitVec.ofNat 32 (resLayers s.res0) <<< 1 ||| BitVec.ofNat 32 (resK s.res1) <<< 8 := by
  have hbit : (selectedDescriptor s).form.bit = resForm s.res0 := by
    have hlt : resForm s.res0 < 2 := BitVec.isLt _
    simp only [selectedDescriptor]
    split_ifs with h
    · exact h.symm
    · exact (show resForm s.res0 = 1 by omega).symm
  rw [descriptorWord, hbit]
  rfl

/-- The result registers of a selected symbol name its descriptor, which is valid (R257, R270, R310). -/
theorem descriptorOf_selected (hy : y.valid = true) (hk : 1 ≤ k) (hfits : k + minParity y.total ≤ y.total)
    (h0 : s.res0 = res0Word y) (h1 : s.res1 = res1Word y k) :
    descriptorOf (descriptorWord (selectedDescriptor s)) = some ⟨y.form, y.layers, k⟩ := by
  obtain ⟨-, -, hword⟩ := descriptorOfArg
  rw [descriptorWord_selectedDescriptor, h0, h1]
  exact hword y k hy hk hfits

end Selected

/-! ### The stages on a selected symbol -/

section Stages
variable {s : State} {bs : List Byte} {ts : List Token} {y : Symbol}

theorem encodeBytes_of_tokens (hts : modeTokens bs = some ts) :
    encodeBytes bs = if 19968 < (tokensRaw ts).length then .raise .capacity else .done (tokensRaw ts) := by
  rw [encodeBytes, hts]
  rfl

/-- ENCODE ends with a value where its five stages, each from the end of the one before, end with one (R310). -/
theorem encodeEffect_of_stages {s1 s2 s3 s4 t : State} (h1 : modeEncodeEffect s = .done s1)
    (h2 : sizeSelectEffect s1 = .done s2) (h3 : rsParityEffect (selectedParity s2) s2 = .done s3)
    (h4 : modeMessageEffect (descriptorWord (selectedDescriptor s3)) s3 = .done s4)
    (h5 : layoutEffect (descriptorWord (selectedDescriptor s4)) s4 = .done t) : encodeEffect s = .done t := by
  rw [encodeEffect, h1, Effect.andThen_done, h2, Effect.andThen_done, h3, Effect.andThen_done, h4, Effect.andThen_done, h5]

/-- The parity stage fills the symbol's codewords (R229, R310). -/
theorem rsParityEffect_of_selected {d : List Nat} (hy : y.valid = true) (hd : d.length < y.total) :
    rsParityEffect (selectedParity (selectInto s y d)) (selectInto s y d) =
      .done ((selectInto s y d).setCw y.width (d ++ parity y.width (y.total - d.length) d)) := by
  have hwidth : y.width ≠ 0 := by
    have := y.width_of_valid
    omega
  have hlimit : d.length + (y.total - d.length) ≤ 2 ^ y.width - 1 := by
    rw [Nat.add_sub_cancel' hd.le]
    exact Symbol.total_le_field hy
  rw [selectedParity_selectInto hy hd]
  exact rsParityEffect_eq_done_iff.mpr ⟨hwidth, hlimit, _, parityEffect_eq_done _ _ _, rfl⟩

theorem append_parity_length {w n : Nat} {d : List Nat} (hd : d.length ≤ n) :
    (d ++ parity w (n - d.length) d).length = n := by
  rw [List.length_append, parity_length, Nat.add_sub_cancel' hd]

/-- Once a symbol is selected, every stage ends with its writes (R310). -/
theorem encodeEffect_of_selected {d c : List Nat} {b : Bits} (hinput : s.input = .done bs) (hts : modeTokens bs = some ts)
    (hy : sizeSelect (tokensRaw ts) = some y) (hd : d = stuffPad y.width (tokensRaw ts))
    (hc : c = d ++ parity y.width (y.total - d.length) d) (hb : modeMessage ⟨y.form, y.layers, d.length⟩ = .done b) :
    encodeEffect s = .done ((((selectInto (s.setRaw (tokensRaw ts)) y d).setCw y.width c).setMm b).setMat
      (paint (darkModules y c b))) := by
  subst hd hc
  obtain ⟨hvalid, hfits⟩ := sizeSelect_eq_some hy
  have hk := Symbol.lt_total hfits
  have hdesc {u : State} := descriptorOf_selected (s := u) hvalid (stuffPad_length_pos y.width (tokensRaw ts)) hfits
  have hstream := encodeBytes_eq_done_iff.mpr ⟨ts, hts, length_le_of_sizeSelect hy, rfl⟩
  have hstuffed := stuffed_of_legalWidth y.legalWidth_width (tokensRaw ts)
  exact encodeEffect_of_stages (modeEncodeEffect_eq_done_iff.mpr ⟨bs, _, hinput, hstream, rfl⟩)
    (sizeSelectEffect_eq_done_iff.mpr ⟨y, _, hy, hstuffed, rfl⟩) (rsParityEffect_of_selected hvalid hk)
    (modeMessageEffect_eq_done_iff.mpr ⟨_, b, hdesc rfl rfl, hb, rfl⟩)
    (layoutEffect_eq_done_iff.mpr ⟨_, _, hdesc rfl rfl, rfl, append_parity_length hk.le, modeMessage_length hb,
      layoutMatrix_eq_done _ _ _, rfl⟩)

/-- A stream that no candidate fits ends ENCODE with CAPACITY, in its first stage or in its second (R173, R255). -/
theorem encodeEffect_of_none (hinput : s.input = .done bs) (hts : modeTokens bs = some ts)
    (hnone : sizeSelect (tokensRaw ts) = none) : encodeEffect s = .raise .capacity := by
  have hselect : sizeSelectEffect (s.setRaw (tokensRaw ts)) = .raise .capacity :=
    sizeSelectEffect_eq_raise_iff.mpr ⟨hnone, rfl⟩
  rw [encodeEffect, modeEncodeEffect, hinput, Effect.andThen_done, encodeBytes_of_tokens hts]
  split_ifs
  · rfl
  · rw [Effect.andThen_done, Effect.andThen_done, hselect, Effect.andThen_raise]

end Stages

/-- Settles O34: the stages end with the symbol, whose mode message always exists. -/
theorem encodeCompletes : Obligations.EncodeCompletes := by
  unfold Obligations.EncodeCompletes
  rintro s bs ts y d _ hlen hmem hts hy hd rfl
  have hk : d.length ≤ y.total := hd ▸ (Symbol.lt_total (sizeSelect_eq_some hy).2).le
  have hb := modeMessage_eq_done ⟨y.form, y.layers, d.length⟩
  have hbody := encodeEffect_of_selected (State.input_eq_done_iff.mpr ⟨hlen, hmem⟩) hts hy hd rfl hb
  refine ⟨_, _, rfl, append_parity_length hk, hb, ?_⟩
  rw [exec_eq_finish, commandBody, hbody, finish_done]
  rfl

theorem exec_encode_of_raise {s : State} {e : ErrCode} (h : encodeEffect s = .raise e) :
    exec .encode s = .next (s.raiseError e) := by
  rw [exec_eq_finish, commandBody, h, finish_raise]

/-- Settles O35: the length check comes before every stage, and a stream that no candidate fits ends the body with CAPACITY. -/
theorem encodeFailsWhole : Obligations.EncodeFailsWhole := by
  unfold Obligations.EncodeFailsWhole
  refine ⟨fun s hlen => ?_, fun s bs ts hlen hmem hts hnone => ?_⟩
  · have hinput : s.input = .raise .capacity := State.input_eq_raise_iff.mpr ⟨hlen, rfl⟩
    refine exec_encode_of_raise ?_
    rw [encodeEffect, modeEncodeEffect, hinput, Effect.andThen_raise, Effect.andThen_raise]
  · exact exec_encode_of_raise (encodeEffect_of_none (State.input_eq_done_iff.mpr ⟨hlen, hmem⟩) hts hnone)

/-! ### The five stage commands -/

/-- Every error of a command has a code other than that of success (R320); one of `MODE_ENCODE` is one of `ENCODE` as well. -/
theorem commandBody_raise_ne_ok {i : Instr} {s : State} {e : ErrCode} (h : commandBody i s = .raise e) : e ≠ .ok := by
  cases i with
  | nop => cases h
  | bbClear => cases h
  | bbAppendMsb nb | bbAppendLsb nb =>
    rcases appendCheck_eq_some_iff.mp (appendEffect_eq_raise_iff.mp h) with ⟨-, rfl⟩ | ⟨-, -, rfl⟩ <;> decide
  | modeEncode => exact encodeEffect_raise_ne_ok (Effect.andThen_eq_raise_iff.mpr (.inl h))
  | stuffPad w =>
    obtain ⟨-, rfl⟩ := stuffPadEffect_eq_raise_iff.mp h
    decide
  | rsParity r => rcases rsParityEffect_eq_raise_iff.mp h with ⟨-, rfl⟩ | ⟨-, -, rfl⟩ <;> decide
  | sizeSelect =>
    obtain ⟨-, rfl⟩ := sizeSelectEffect_eq_raise_iff.mp h
    decide
  | modeMessage =>
    obtain ⟨-, rfl⟩ := modeMessageEffect_eq_raise_iff.mp h
    decide
  | layout => rcases layoutEffect_eq_raise_iff.mp h with ⟨-, rfl⟩ | ⟨_, -, -, rfl⟩ <;> decide
  | encode => exact encodeEffect_raise_ne_ok h

/-- A command that succeeds completes with the end of its body. -/
theorem exists_commandBody_of_ok {i : Instr} {s t : State} (h : exec i s = .next t) (hok : t.err = .ok) :
    ∃ u, commandBody i s = .done u ∧ t = u.complete := by
  rcases exec_eq_next_iff.mp h with hdone | ⟨e, he, rfl⟩
  · exact hdone
  · exact absurd hok (commandBody_raise_ne_ok he)

/-- Settles O36: what ends a stage with a value is read from fields that neither a completion nor a write of `ARG` touches, so it
ends the same stage of ENCODE with the same writes. -/
theorem encodeIsTheFiveCommands : Obligations.EncodeIsTheFiveCommands := by
  unfold Obligations.EncodeIsTheFiveCommands
  intro s s1 s2 s3 s4 s5 v e1 ok1 e2 ok2 e3 ok3 hv e4 ok4 e5 ok5
  rw [← descriptorWord_selectedDescriptor] at hv
  obtain ⟨_, h1, rfl⟩ := exists_commandBody_of_ok e1 ok1
  obtain ⟨_, h2, rfl⟩ := exists_commandBody_of_ok e2 ok2
  obtain ⟨_, h3, rfl⟩ := exists_commandBody_of_ok e3 ok3
  obtain ⟨_, h4, rfl⟩ := exists_commandBody_of_ok e4 ok4
  obtain ⟨_, h5, rfl⟩ := exists_commandBody_of_ok e5 ok5
  obtain ⟨bs, b, hinput, hb, rfl⟩ := modeEncodeEffect_eq_done_iff.mp h1
  obtain ⟨y, c, hy, hc, rfl⟩ := sizeSelectEffect_eq_done_iff.mp h2
  obtain ⟨hfilled, hlimit, p, hp, rfl⟩ := rsParityEffect_eq_done_iff.mp h3
  obtain ⟨d, m, hd, hm, rfl⟩ := modeMessageEffect_eq_done_iff.mp h4
  obtain ⟨d', x, hd', hw, hn, hlen, hx, rfl⟩ := layoutEffect_eq_done_iff.mp h5
  subst hv
  have hbody := encodeEffect_of_stages h1 (sizeSelectEffect_eq_done_iff.mpr ⟨y, c, hy, hc, rfl⟩)
    (rsParityEffect_eq_done_iff.mpr ⟨hfilled, hlimit, p, hp, rfl⟩) (modeMessageEffect_eq_done_iff.mpr ⟨d, m, hd, hm, rfl⟩)
    (layoutEffect_eq_done_iff.mpr ⟨d', x, hd', hw, hn, hlen, hx, rfl⟩)
  rw [exec_eq_finish, commandBody, hbody, finish_done]
  rfl

end Sys2Proof.Machine
end

