-- ==== Sys2Proof/Proofs/Exceptions.lean ====
section
/-! PROOFS. Errors and faults (60_exceptions.md R320, R323, R326; 70_reset_and_hazards.md R352): the error effect, the codes each
command reports, and the one fault a command can end in. -/

namespace Sys2Proof.Machine

variable {i : Instr} {s t : State} {e : ErrCode} {f : Fault}

/-! ### The error effect -/

/-- A command that does not succeed ends with the error effect of its code (R323). -/
theorem exec_eq_raiseError_of_err_ne_ok (h : exec i s = .next t) (he : t.err ≠ .ok) : t = s.raiseError t.err := by
  rcases exec_eq_next_iff.mp h with ⟨u, -, rfl⟩ | ⟨e, -, rfl⟩
  · exact absurd (State.complete_err u) he
  · rfl

theorem completeCommand_eq_raiseError_of_err_ne_ok {v : Word} (h : completeCommand v s = .next t) (he : t.err ≠ .ok) :
    t = s.raiseError t.err := by
  rcases completeCommand_cases v s with ⟨i, -, hv⟩ | ⟨_, -, hv⟩
  · exact exec_eq_raiseError_of_err_ne_ok (hv ▸ h) he
  · cases hv.symm.trans h
    rfl

/-- Settles O38: `raiseError` is the update the statement writes out. -/
theorem errorChangesOnlyStatus : Obligations.ErrorChangesOnlyStatus := by
  unfold Obligations.ErrorChangesOnlyStatus
  exact ⟨fun _ _ _ => exec_eq_raiseError_of_err_ne_ok, fun _ _ _ => completeCommand_eq_raiseError_of_err_ne_ok⟩

/-! ### The two commands that read the input -/

section Input
variable (hi : i = .modeEncode ∨ i = .encode)
include hi

/-- Once the input is read, the encoder has a token sequence and no later stage fails but for want of room (R166, R173, R310). -/
theorem commandBody_of_input_done {bs : List Byte} (h : s.input = .done bs) :
    commandBody i s = .raise .capacity ∨ ∃ t, commandBody i s = .done t := by
  obtain ⟨ts, hts, -⟩ := exists_modeTokens_emits bs
  rcases hi with rfl | rfl
  · rw [commandBody, modeEncodeEffect, h, Effect.andThen_done, encodeBytes_of_tokens hts]
    split_ifs
    · exact .inl rfl
    · exact .inr ⟨_, rfl⟩
  · cases hy : sizeSelect (tokensRaw ts) with
    | none => exact .inl (encodeEffect_of_none h hts hy)
    | some y => exact .inr ⟨_, encodeEffect_of_selected h hts hy rfl rfl (modeMessage_eq_done _)⟩

theorem commandBody_of_input_raise (h : s.input = .raise e) : commandBody i s = .raise e := by
  rcases hi with rfl | rfl <;> simp [commandBody, encodeEffect, modeEncodeEffect, h]

theorem commandBody_of_input_stop (h : s.input = .stop f) : commandBody i s = .stop f := by
  rcases hi with rfl | rfl <;> simp [commandBody, encodeEffect, modeEncodeEffect, h]

/-- The one error of the two commands (R320, R321). -/
theorem eq_capacity_of_commandBody_raise (h : commandBody i s = .raise e) : e = .capacity := by
  cases hin : s.input with
  | done bs =>
    rcases commandBody_of_input_done hi hin with hb | ⟨t, hb⟩ <;> cases hb.symm.trans h
    rfl
  | raise e' =>
    cases (commandBody_of_input_raise hi hin).symm.trans h
    exact (State.input_eq_raise_iff.mp hin).2
  | stop f => cases (commandBody_of_input_stop hi hin).symm.trans h

/-- The two commands are stopped exactly where the input is (R352). -/
theorem commandBody_eq_stop_iff_input : commandBody i s = .stop f ↔ s.input = .stop f := by
  cases hin : s.input with
  | done bs => rcases commandBody_of_input_done hi hin with hb | ⟨t, hb⟩ <;> simp [hb]
  | raise e => simp [commandBody_of_input_raise hi hin]
  | stop g => simp [commandBody_of_input_stop hi hin]

end Input

/-! ### The codes -/

/-- Which decoded commands may report a code: column `raised by` of R320. -/
def RaisedBy : ErrCode → Instr → Prop
  | .ok, _ => True
  | .capacity, i => i = .modeEncode ∨ i = .sizeSelect ∨ i = .encode
  | .illegalCommand, _ => False
  | .illegalOperand, i =>
    (∃ n, i = .bbAppendMsb n ∨ i = .bbAppendLsb n ∨ i = .stuffPad n ∨ i = .rsParity n) ∨ i = .modeMessage ∨ i = .layout
  | .stateError, i => (∃ n, i = .rsParity n) ∨ i = .layout
  | .overflow, i => ∃ n, i = .bbAppendMsb n ∨ i = .bbAppendLsb n
  | .internal, _ => False

theorem raisedBy_of_commandBody_raise (h : commandBody i s = .raise e) : RaisedBy e i := by
  cases i with
  | nop | bbClear => cases h
  | bbAppendMsb nb | bbAppendLsb nb =>
    rcases appendCheck_eq_some_iff.mp (appendEffect_eq_raise_iff.mp h) with ⟨-, rfl⟩ | ⟨-, -, rfl⟩ <;> simp [RaisedBy]
  | modeEncode => simp [RaisedBy, eq_capacity_of_commandBody_raise (.inl rfl) h]
  | stuffPad w => simp [RaisedBy, (stuffPadEffect_eq_raise_iff.mp h).2]
  | rsParity r => rcases rsParityEffect_eq_raise_iff.mp h with ⟨-, rfl⟩ | ⟨-, -, rfl⟩ <;> simp [RaisedBy]
  | sizeSelect => simp [RaisedBy, (sizeSelectEffect_eq_raise_iff.mp h).2]
  | modeMessage => simp [RaisedBy, (modeMessageEffect_eq_raise_iff.mp h).2]
  | layout => rcases layoutEffect_eq_raise_iff.mp h with ⟨-, rfl⟩ | ⟨_, -, -, rfl⟩ <;> simp [RaisedBy]
  | encode => simp [RaisedBy, eq_capacity_of_commandBody_raise (.inr rfl) h]

theorem raisedBy_err_of_exec (h : exec i s = .next t) : RaisedBy t.err i := by
  rcases exec_eq_next_iff.mp h with ⟨u, -, rfl⟩ | ⟨e, he, rfl⟩
  · trivial
  · exact raisedBy_of_commandBody_raise he

/-- Settles O39: the clauses on a command are the rows of `RaisedBy`, one per code. -/
theorem errorCodesByCommand : Obligations.ErrorCodesByCommand := by
  unfold Obligations.ErrorCodesByCommand
  refine ⟨by decide, fun i s t h => ?_⟩
  have hrow := raisedBy_err_of_exec h
  revert hrow
  cases t.err <;> simp [RaisedBy]

/-! ### The faults -/

/-- No codeword is degenerate (R205, R326). -/
theorem stuffPadEffect_ne_stop (w : Nat) : stuffPadEffect w s ≠ .stop f := by
  unfold stuffPadEffect
  split_ifs with hw
  · simp [stuffed_of_legalWidth hw]
  · simp

/-- The remainder has its stages (R226, R326). -/
theorem rsParityEffect_ne_stop (r : Nat) : rsParityEffect r s ≠ .stop f := by
  unfold rsParityEffect
  split_ifs <;> simp [parityEffect_eq_done]

theorem sizeSelectEffect_ne_stop : sizeSelectEffect s ≠ .stop f := by
  unfold sizeSelectEffect
  cases sizeSelect s.raw with
  | none => simp
  | some y => simp [stuffed_of_legalWidth y.legalWidth_width]

theorem modeMessageEffect_ne_stop (v : Word) : modeMessageEffect v s ≠ .stop f := by
  unfold modeMessageEffect
  cases descriptorOf v <;> simp [modeMessage_eq_done]

/-- No module lies outside the symbol (R281, R326). -/
theorem layoutEffect_ne_stop (v : Word) : layoutEffect v s ≠ .stop f := by
  unfold layoutEffect
  cases descriptorOf v with
  | none => simp
  | some d =>
    dsimp only
    split_ifs <;> simp [layoutMatrix_eq_done]

/-- Where the body of a command can be stopped: no command meets an INTERNAL condition (R326, R352). -/
theorem commandBody_eq_stop_iff :
    commandBody i s = .stop f ↔ (i = .modeEncode ∨ i = .encode) ∧ s.input = .stop f := by
  cases i with
  | nop | bbClear => simp [commandBody]
  | bbAppendMsb nb | bbAppendLsb nb => simp [commandBody, appendEffect_ne_stop]
  | modeEncode => simp [commandBody_eq_stop_iff_input]
  | stuffPad w => simp [commandBody, stuffPadEffect_ne_stop]
  | rsParity r => simp [commandBody, rsParityEffect_ne_stop]
  | sizeSelect => simp [commandBody, sizeSelectEffect_ne_stop]
  | modeMessage => simp [commandBody, modeMessageEffect_ne_stop]
  | layout => simp [commandBody, layoutEffect_ne_stop]
  | encode => simp [commandBody_eq_stop_iff_input]

/-- The faults of the commands, all of them (R327, R352). -/
theorem exec_eq_fault_iff :
    exec i s = .fault f ↔ f = .commandReadsUnwrittenInput ∧ (i = .modeEncode ∨ i = .encode) ∧ s.inLen.toNat ≤ 8192 ∧
      ∃ a, a < s.inLen.toNat ∧ s.mem.read a = none := by
  rw [exec_eq_finish, finish_eq_fault_iff, commandBody_eq_stop_iff, State.input_eq_stop_iff,
    Memory.readBytes_eq_none_iff]
  simp only [State.len, Nat.zero_add]
  tauto

/-- Settles O40: a command is a completion step, which is never refused, and its faults are those listed above. -/
theorem execFaultsOnlyOnUnwrittenInput : Obligations.ExecFaultsOnlyOnUnwrittenInput := by
  unfold Obligations.ExecFaultsOnlyOnUnwrittenInput
  exact fun i s => ⟨fun r => exec_eq_finish i s ▸ finish_ne_refused s _ r, fun _ => exec_eq_fault_iff.mp⟩

/-- Settles O15: the two directions of `exec_eq_fault_iff`. -/
theorem unwrittenInputByteFaults : Obligations.UnwrittenInputByteFaults := by
  unfold Obligations.UnwrittenInputByteFaults
  refine fun s i hi => ⟨fun hlen hnone => exec_eq_fault_iff.mpr ⟨rfl, hi, hlen, hnone⟩, fun hwritten hfault => ?_⟩
  obtain ⟨-, -, -, a, ha, hnone⟩ := exec_eq_fault_iff.mp hfault
  exact hwritten a ha hnone

end Sys2Proof.Machine
end

