-- ==== Sys2Proof/Proofs/Reset.lean ====
section
/-! PROOFS. Reset and hazards (70_reset_and_hazards.md R350, R351, R360 to R363): what a move of the outside leaves, what the
completion leaves, and the steps that lead to the completion. -/

namespace Sys2Proof.Machine

variable {s t : State} {v : Word}

/-! ### Host writes while a command runs -/

/-- Settles O48: the busy violation is the write's alone, and it needs a running command. -/
theorem writeWhileBusyFaults : Obligations.WriteWhileBusyFaults := by
  unfold Obligations.WriteWhileBusyFaults
  refine ⟨fun s u v off h ha => hostWrite_of_busy h ha v, fun s off n hr => ?_, fun s off v h ha => ?_⟩
  · rcases hostRead_eq_fault_iff.mp hr with ⟨-, hf⟩ | ⟨-, hstop⟩
    · cases hf
    · rcases readRegion_eq_stop hstop with hf | hf <;> cases hf
  · rw [hostWrite_of_idle h ha v]
    nofun

/-! ### Reset -/

theorem inputStep_of_inputs_reset {rest : List Input} (h : s.inputs = .reset :: rest) :
    inputStep s = .next (s.setInputs rest).platformReset := by
  simp only [inputStep, h]

/-- Settles O56: a reset takes every field but the outside's from `State.reset`, so a tick before it leaves no trace. -/
theorem resetState : Obligations.ResetState := by
  unfold Obligations.ResetState
  refine ⟨⟨rfl, rfl, rfl, rfl, rfl, rfl, rfl, rfl, rfl, rfl, rfl, rfl, rfl, rfl, rfl, rfl, fun _ => rfl, rfl⟩,
    fun s v rest hs h => ?_⟩
  rcases hs with hidle | ⟨hbusy, hw⟩
  · rw [step_of_idle hidle, inputStep_of_inputs_reset h]
    rfl
  · rw [step_of_busy_of_wait_ne_zero hbusy hw, inputStep_of_inputs_reset (s := s.tick) h]
    rfl

/-! ### A move of the outside -/

/-- What a move of the outside that is no reset leaves, from `s` to `t`. -/
structure OutsideFrame (s t : State) : Prop where
  /-- No buffer and no result register changes (R351, R360). -/
  results : t.raw = s.raw ∧ t.cw = s.cw ∧ t.cwW = s.cwW ∧ t.mm = s.mm ∧ t.res0 = s.res0 ∧ t.res1 = s.res1 ∧
    t.mat = s.mat ∧ t.matWritten = s.matWritten
  /-- No written flag of the input buffer is cleared (R351). -/
  written : ∀ a, s.mem.read a ≠ none → t.mem.read a ≠ none
  /-- A command that runs goes on, with the time it has left. -/
  running : ∀ v, s.eng = .busy v → t.eng = .busy v ∧ t.wait = s.wait

namespace OutsideFrame

theorem refl (s : State) : OutsideFrame s s := ⟨by simp, fun _ => id, fun _ h => ⟨h, rfl⟩⟩

/-! The clauses speak of no field that a host read writes: the host's record, the inputs to come and the draw count. -/

theorem record (s : State) (off : Offset) (v : Word) : OutsideFrame s (s.record off v) := { refl s with }

theorem setInputs_left {is : List Input} (h : OutsideFrame (s.setInputs is) t) : OutsideFrame s t := { h with }

theorem setInputs {is : List Input} (h : OutsideFrame s t) : OutsideFrame s (t.setInputs is) := { h with }

theorem drawn (h : OutsideFrame s t) : OutsideFrame s t.drawn := { h with }

theorem keeps_matWritten (h : OutsideFrame s t) (hm : s.matWritten = true) : t.matWritten = true := by
  obtain ⟨-, -, -, -, -, -, -, hflag⟩ := h.results
  exact hflag.trans hm

end OutsideFrame

theorem hostRead_outsideFrame {off : Offset} {n : Nat} (h : hostRead off n s = .next t) : OutsideFrame s t := by
  obtain ⟨-, ⟨v, -, rfl⟩ | ⟨-, rfl⟩⟩ := hostRead_eq_next_iff.mp h
  · exact .record s off v
  · exact (OutsideFrame.record s off _).drawn

/-- A word written to the input buffer sets written flags and clears none (R74). -/
theorem Memory.read_writeWord_ne_none (m : Memory) (q : Nat) (v : Word) {a : Nat} (h : m.read a ≠ none) :
    (m.writeWord q v).read a ≠ none := by
  rw [Memory.read_writeWord_div]
  split_ifs
  · nofun
  · exact h

/-- While idle a host write starts a command, stores an operand or an input word, or is ignored (R72). -/
theorem writeRegion_outsideFrame (hidle : s.eng = .idle) (g : Region) : OutsideFrame s (writeRegion s g v) := by
  rcases writeRegion_cases s g v with e | ⟨-, e⟩ | ⟨-, e⟩ | ⟨-, e⟩ | ⟨q, -, e⟩ <;> rw [e]
  · exact .refl s
  · exact { OutsideFrame.refl s with running := fun _ h => nomatch hidle.symm.trans h }
  · exact { OutsideFrame.refl s with }
  · exact { OutsideFrame.refl s with }
  · exact { OutsideFrame.refl s with written := fun _ => Memory.read_writeWord_ne_none s.mem q v }

theorem hostWrite_outsideFrame {off : Offset} {n : Nat} (h : hostWrite off n v s = .next t) : OutsideFrame s t := by
  obtain ⟨-, hbusy, rfl⟩ := hostWrite_eq_next_iff.mp h
  exact writeRegion_outsideFrame ((State.busy_eq_false_iff s).mp hbusy) _

theorem pollStatus_outsideFrame (rest : List Input) (s : State) : OutsideFrame s (pollStatus rest s) := by
  rw [pollStatus_eq_setInputs]
  exact (OutsideFrame.record s _ _).setInputs

theorem inputStep_outsideFrame (hreset : ∀ rest, s.inputs ≠ .reset :: rest) (h : inputStep s = .next t) :
    OutsideFrame s t := by
  rcases inputStep_eq_next_iff.mp h with ⟨-, rfl⟩ | ⟨off, n, rest, -, h⟩ | ⟨off, n, v, rest, -, h⟩ | ⟨rest, -, rfl⟩ |
    ⟨rest, hr, -⟩
  · exact .refl _
  · exact (hostRead_outsideFrame h).setInputs_left
  · exact (hostWrite_outsideFrame h).setInputs_left
  · exact pollStatus_outsideFrame rest s
  · exact absurd hr (hreset rest)

/-- A step of a running command that is neither its completion nor a reset is a move of the outside, one step nearer the
completion (R363). -/
theorem step_outsideFrame_of_busy (hbusy : s.eng = .busy v) (hw : s.wait ≠ 0)
    (hreset : ∀ rest, s.inputs ≠ .reset :: rest) (h : step s = .next t) : OutsideFrame s.tick t := by
  rw [step_of_busy_of_wait_ne_zero hbusy hw] at h
  exact inputStep_outsideFrame hreset h

/-! ### The completion -/

/-- No command clears the matrix-written flag (R47). -/
theorem exec_keeps_matWritten {i : Instr} (h : exec i s = .next t) (hm : s.matWritten = true) : t.matWritten = true := by
  rcases exec_next_cases h with ⟨u, hu, rfl⟩ | ⟨e, rfl⟩
  · cases hu <;> simp [hm]
  · simp [hm]

/-- The completion writes neither the input buffer nor clears a flag (R43, R47, R351). -/
theorem completeCommand_keeps_written (h : completeCommand v s = .next t) :
    t.mem = s.mem ∧ (s.matWritten = true → t.matWritten = true) := by
  rcases completeCommand_cases v s with ⟨i, -, hv⟩ | ⟨_, -, hv⟩
  · have hexec := hv.symm.trans h
    obtain ⟨-, -, -, hmem, -⟩ := commandsLeaveOperandsAlone i s t hexec
    exact ⟨hmem, exec_keeps_matWritten hexec⟩
  · cases hv.symm.trans h
    exact ⟨rfl, id⟩

/-- Settles O57: a step is a completion, which keeps every flag, or a move of the outside, which keeps a running command too. -/
theorem onlyCompletionOrResetIdles : Obligations.OnlyCompletionOrResetIdles := by
  unfold Obligations.OnlyCompletionOrResetIdles
  refine ⟨fun s t v hbusy h hidle => ?_, fun s t h hkind => ?_⟩
  · by_contra! hno
    obtain ⟨hw, hreset⟩ := hno
    obtain ⟨hstill, -⟩ := (step_outsideFrame_of_busy hbusy hw hreset h).running v hbusy
    cases hidle.symm.trans hstill
  · rcases step_cases (s := s) with ⟨hidle, hs⟩ | ⟨v, hbusy, hw, hs⟩ | ⟨v, hbusy, hw, hs⟩
    · have hreset := hkind.resolve_left fun ⟨⟨v, hv⟩, _⟩ => by cases hidle.symm.trans hv
      have hframe := inputStep_outsideFrame hreset (hs ▸ h)
      exact ⟨hframe.keeps_matWritten, hframe.written, fun _ => hframe.results⟩
    · obtain ⟨hmem, hmat⟩ := completeCommand_keeps_written (hs ▸ h)
      refine ⟨hmat, fun a ha => hmem ▸ ha, fun hno => ?_⟩
      rcases hno with hidle | hw'
      · cases hidle.symm.trans hbusy
      · exact absurd hw hw'
    · have hframe := step_outsideFrame_of_busy hbusy hw (hkind.resolve_left fun hc => hw hc.2) h
      exact ⟨hframe.keeps_matWritten, hframe.written, fun _ => hframe.results⟩

/-! ### Progress -/

theorem run_succ_of_step_next (h : step s = .next t) (n : Nat) :
    Host.Core.run Sys2Proof.core (n + 1) s = Host.Core.run Sys2Proof.core n t := by
  have hcore : Sys2Proof.core.step s = .next t := h
  simp only [Host.Core.run, hcore]

theorem run_one (s : State) : Host.Core.run Sys2Proof.core 1 s = step s := by
  have hcore : Sys2Proof.core.step s = step s := rfl
  simp only [Host.Core.run, hcore]
  cases step s <;> rfl

/-- With no input from outside, the time runs out and the completion is taken (R363). -/
theorem run_to_completion (hbusy : s.eng = .busy v) (hin : s.inputs = []) :
    Host.Core.run Sys2Proof.core (s.wait + 1) s = completeCommand v { s with wait := 0 } := by
  generalize hn : s.wait = n
  induction n generalizing s with
  | zero =>
    rw [run_one, step_of_busy_of_wait_eq_zero hbusy hn, ← hn]
  | succ n ih =>
    have hstep : step s = .next s.tick := by
      rw [step_of_busy_of_wait_ne_zero hbusy (by omega), inputStep_of_inputs_nil (s := s.tick) hin]
    rw [run_succ_of_step_next hstep, ih (s := s.tick) hbusy hin (by simp [hn])]
    rfl

/-- Settles O58: the outside leaves a running command and its time alone, so only the tick changes it. -/
theorem everyCommandCompletes : Obligations.EveryCommandCompletes := by
  unfold Obligations.EveryCommandCompletes
  refine ⟨fun s t v hbusy hw h => ?_, fun s v => run_to_completion⟩
  by_cases hreset : ∃ rest, s.inputs = .reset :: rest
  · exact .inr hreset
  · obtain ⟨hstill, hwait⟩ := (step_outsideFrame_of_busy hbusy hw (not_exists.mp hreset) h).running v hbusy
    rw [State.tick_wait] at hwait
    exact .inl ⟨hstill, by omega⟩

end Sys2Proof.Machine
end
